-- ==== Sys2Proof/Word.lean ====
section
/-! DEFINITION. The word types of the machine (00_scope R9, R10): registers, addresses, the instruction word and the
FSL word are 32 bits; a byte is 8 bits. Ordinary numbering is used throughout: the source's bit number i of a 32-bit
word is bit 31 - i here (R10). -/

namespace Sys2Proof

/-- A 32-bit vector: register value, address or instruction word (R9). -/
abbrev Word := BitVec 32

/-- The addressable unit (20_memory R60). -/
abbrev Byte := BitVec 8

/-- A register number, the 5-bit field of an instruction (30_encoding R101, R106). -/
abbrev RegNum := BitVec 5

/-- The 16-bit immediate field of a Type B instruction (30_encoding R102). -/
abbrev Imm16 := BitVec 16

/-- An FSL channel number, the 3-bit field of R112. -/
abbrev Channel := BitVec 3

end Sys2Proof
end

