-- ==== Sys2Proof/Config.lean ====
section
/-! DEFINITION. The configuration of one instance: the parameters of 00_scope R6 to R8 and of 93_implementation_defined
section 4 that some rule depends on, each with the spec's default; the platform's memory map (93 U70, U71); and the free
values (93 section 2), opaque constants of which nothing can be proved. A parameter no rule depends on has no field
(log 46). -/

namespace Sys2Proof

/-- What answers an address on one side of the core (20_memory R82, R85): storage, or a peripheral whose behaviour the spec
does not give (R76). -/
inductive RegionKind where
  | memory
  | device
  deriving DecidableEq, Repr

/-- One entry of the memory map of one side: first and last byte address, kind, and the width in bytes of the widest
transfer the addressed unit takes (20_memory R77). -/
structure Region where
  base : Nat
  last : Nat
  kind : RegionKind := .memory
  width : Nat := 4
  deriving DecidableEq, Repr

/-- Addresses from a first to a last byte. -/
structure Span where
  base : Nat
  last : Nat
  deriving DecidableEq, Repr

/-- The parameters of one cache (20_memory R88, R89; Table 2-10): presence, write enable, tag bits, size in bytes, and the
two ends of the cacheable window, both inclusive. -/
structure CacheConfig where
  use : Bool := false
  allowWrite : Bool := true
  tagBits : Nat := 7
  byteSize : Nat := 8192
  base : Nat := 0x00000000
  high : Nat := 0x3FFFFFFF
  deriving DecidableEq, Repr

/-- `MSR_INSTR_ENCODING` (30_encoding R119): the printed encoding inside the `muli` opcode, or the one of later tools. -/
inductive MsrEncoding where
  | printed
  | gnu
  deriving DecidableEq, Repr

/-- `IDIVU_FUNC` (30_encoding R111): function field 0x001 (Table 1-2) or 0x002. -/
inductive IdivuFunc where
  | f001
  | f002
  deriving DecidableEq, Repr

/-- One instance and its platform. Field defaults are the defaults of Table 2-10 (00_scope R6) and of 93 section 4. -/
structure Config where
  /-- `C_I_OPB`, `C_I_LMB`, `C_D_OPB`, `C_D_LMB` (55_bus_interfaces R381). -/
  iOpb : Bool := true
  iLmb : Bool := true
  dOpb : Bool := true
  dLmb : Bool := true
  /-- `HAS_MUL` (00_scope R8). -/
  hasMul : Bool := true
  /-- `C_USE_BARREL`. -/
  useBarrel : Bool := false
  /-- `C_USE_DIV`. -/
  useDiv : Bool := false
  /-- `C_FSL_LINKS`, 0 to 8. -/
  fslLinks : Nat := 0
  /-- `FSL_DEPTH` (45_fsl R340). -/
  fslDepth : Nat := 16
  /-- `C_INTERRUPT_IS_EDGE`, `C_EDGE_IS_POSITIVE` (60_exceptions R412). -/
  interruptIsEdge : Bool := false
  edgeIsPositive : Bool := true
  /-- `C_DEBUG_ENABLED` (60_exceptions R436). -/
  debugEnabled : Bool := false
  icache : CacheConfig := {}
  dcache : CacheConfig := {}
  /-- `C_USE_MSR_INSTR`, `MSR_INSTR_ENCODING` (30_encoding R119). -/
  useMsrInstr : Bool := false
  msrEncoding : MsrEncoding := .printed
  idivuFunc : IdivuFunc := .f001
  /-- `GPR_RESET_KNOWN` (10_state R22). -/
  gprResetKnown : Bool := true
  /-- `IFETCH_COHERENT`, `FETCH_AHEAD` (20_memory R87). -/
  ifetchCoherent : Bool := false
  fetchAhead : Nat := 2
  /-- The platform's memory map: what answers on the data side and what on the instruction side (20_memory R83, R85;
  55_bus_interfaces R392; 93 U70). -/
  dataMap : List Region := [⟨0, 0xFFFFFFFF, .memory, 4⟩]
  instrMap : List Region := [⟨0, 0xFFFFFFFF, .memory, 4⟩]
  /-- Where an address names the same storage on both sides: `SharedID` (20_memory R83, 93 U71). -/
  shared : List Span := [⟨0, 0xFFFFFFFF⟩]
  deriving DecidableEq, Repr

/-- The instance that `State.reset` has: every option of the instruction set present, the cache windows of 95_test_vectors
S16, every other parameter at its default, and maps in which the whole address space is memory shared by both sides.
DESIGN CHOICE (log 1, 2, 3): the spec fixes no instance. -/
def Config.full : Config :=
  { useBarrel := true
    useDiv := true
    fslLinks := 8
    debugEnabled := true
    icache := { use := true, base := 0x30000000, high := 0x300FFFFF }
    dcache := { use := true, base := 0x30000000, high := 0x300FFFFF }
    useMsrInstr := true }

/-- Free 32-bit values (93 section 2): the n-th value drawn. It has no body, so nothing is known of it (log 9). -/
opaque Config.freeWord : Nat → Word

/-- Free one-bit values (93 section 2): the n-th value drawn (log 9). -/
opaque Config.freeBit : Nat → Bool

end Sys2Proof
end

