-- ==== Sys2Proof/Syntax.lean ====
section
/-! DEFINITION. The syntax: one constructor of `Instr` for each row of spec/opcode_table.json (30_encoding R108), in the
table's order, named by the row's mnemonic, with the operand fields of 30_encoding R101 to R103 and R106. -/

namespace Sys2Proof

/-- The 1-bit special-register selector of `mfs` and `mts` (30_encoding R106, R114): 0 PC, 1 MSR. -/
inductive SpecReg where
  | rpc
  | rmsr
  deriving DecidableEq, Repr

/-- The 109 instructions. `rd`, `ra`, `rb` are the register-number fields, `imm` the 16-bit immediate, `amount` the 5-bit
shift amount, `ch` the FSL channel, `rs` the special-register selector. In stores `rd` names the data (43 R281). In `wic`
and `wdc` the two copies of the rA field are one operand (30 R113). -/
inductive Instr where
  /-- R141, row 1. -/
  | add (rd : RegNum) (ra : RegNum) (rb : RegNum)
  /-- R145, row 2. -/
  | rsub (rd : RegNum) (ra : RegNum) (rb : RegNum)
  /-- R142, row 3. -/
  | addc (rd : RegNum) (ra : RegNum) (rb : RegNum)
  /-- R146, row 4. -/
  | rsubc (rd : RegNum) (ra : RegNum) (rb : RegNum)
  /-- R143, row 5. -/
  | addk (rd : RegNum) (ra : RegNum) (rb : RegNum)
  /-- R147, row 6. -/
  | rsubk (rd : RegNum) (ra : RegNum) (rb : RegNum)
  /-- R144, row 7. -/
  | addkc (rd : RegNum) (ra : RegNum) (rb : RegNum)
  /-- R148, row 8. -/
  | rsubkc (rd : RegNum) (ra : RegNum) (rb : RegNum)
  /-- R149, row 9. -/
  | cmp (rd : RegNum) (ra : RegNum) (rb : RegNum)
  /-- R150, row 10. -/
  | cmpu (rd : RegNum) (ra : RegNum) (rb : RegNum)
  /-- R151, row 11. -/
  | addi (rd : RegNum) (ra : RegNum) (imm : Imm16)
  /-- R155, row 12. -/
  | rsubi (rd : RegNum) (ra : RegNum) (imm : Imm16)
  /-- R152, row 13. -/
  | addic (rd : RegNum) (ra : RegNum) (imm : Imm16)
  /-- R156, row 14. -/
  | rsubic (rd : RegNum) (ra : RegNum) (imm : Imm16)
  /-- R153, row 15. -/
  | addik (rd : RegNum) (ra : RegNum) (imm : Imm16)
  /-- R157, row 16. -/
  | rsubik (rd : RegNum) (ra : RegNum) (imm : Imm16)
  /-- R154, row 17. -/
  | addikc (rd : RegNum) (ra : RegNum) (imm : Imm16)
  /-- R158, row 18. -/
  | rsubikc (rd : RegNum) (ra : RegNum) (imm : Imm16)
  /-- R159, row 19. -/
  | mul (rd : RegNum) (ra : RegNum) (rb : RegNum)
  /-- R193, row 20. -/
  | bsrl (rd : RegNum) (ra : RegNum) (rb : RegNum)
  /-- R194, row 21. -/
  | bsra (rd : RegNum) (ra : RegNum) (rb : RegNum)
  /-- R195, row 22. -/
  | bsll (rd : RegNum) (ra : RegNum) (rb : RegNum)
  /-- R160, row 23. -/
  | muli (rd : RegNum) (ra : RegNum) (imm : Imm16)
  /-- R196, row 24. -/
  | bsrli (rd : RegNum) (ra : RegNum) (amount : BitVec 5)
  /-- R197, row 25. -/
  | bsrai (rd : RegNum) (ra : RegNum) (amount : BitVec 5)
  /-- R198, row 26. -/
  | bslli (rd : RegNum) (ra : RegNum) (amount : BitVec 5)
  /-- R161, row 27. -/
  | idiv (rd : RegNum) (ra : RegNum) (rb : RegNum)
  /-- R162, row 28. -/
  | idivu (rd : RegNum) (ra : RegNum) (rb : RegNum)
  /-- R341, row 29. -/
  | get (rd : RegNum) (ch : Channel)
  /-- R345, row 30. -/
  | put (ra : RegNum) (ch : Channel)
  /-- R342, row 31. -/
  | nget (rd : RegNum) (ch : Channel)
  /-- R346, row 32. -/
  | nput (ra : RegNum) (ch : Channel)
  /-- R343, row 33. -/
  | cget (rd : RegNum) (ch : Channel)
  /-- R347, row 34. -/
  | cput (ra : RegNum) (ch : Channel)
  /-- R344, row 35. -/
  | ncget (rd : RegNum) (ch : Channel)
  /-- R348, row 36. -/
  | ncput (ra : RegNum) (ch : Channel)
  /-- R181, row 37. -/
  | or (rd : RegNum) (ra : RegNum) (rb : RegNum)
  /-- R182, row 38. -/
  | and (rd : RegNum) (ra : RegNum) (rb : RegNum)
  /-- R183, row 39. -/
  | xor (rd : RegNum) (ra : RegNum) (rb : RegNum)
  /-- R184, row 40. -/
  | andn (rd : RegNum) (ra : RegNum) (rb : RegNum)
  /-- R189, row 41. -/
  | sra (rd : RegNum) (ra : RegNum)
  /-- R190, row 42. -/
  | src (rd : RegNum) (ra : RegNum)
  /-- R191, row 43. -/
  | srl (rd : RegNum) (ra : RegNum)
  /-- R187, row 44. -/
  | sext8 (rd : RegNum) (ra : RegNum)
  /-- R188, row 45. -/
  | sext16 (rd : RegNum) (ra : RegNum)
  /-- R319, row 46. -/
  | wic (ra : RegNum) (rb : RegNum)
  /-- R320, row 47. -/
  | wdc (ra : RegNum) (rb : RegNum)
  /-- R312, row 48. -/
  | mts (ra : RegNum) (rs : SpecReg)
  /-- R311, row 49. -/
  | mfs (rd : RegNum) (rs : SpecReg)
  /-- R222, row 50. -/
  | br (rb : RegNum)
  /-- R224, row 51. -/
  | brd (rb : RegNum)
  /-- R226, row 52. -/
  | brld (rd : RegNum) (rb : RegNum)
  /-- R223, row 53. -/
  | bra (rb : RegNum)
  /-- R225, row 54. -/
  | brad (rb : RegNum)
  /-- R227, row 55. -/
  | brald (rd : RegNum) (rb : RegNum)
  /-- R315, row 56. -/
  | brk (rd : RegNum) (rb : RegNum)
  /-- R231, row 57. -/
  | beq (ra : RegNum) (rb : RegNum)
  /-- R232, row 58. -/
  | bne (ra : RegNum) (rb : RegNum)
  /-- R233, row 59. -/
  | blt (ra : RegNum) (rb : RegNum)
  /-- R234, row 60. -/
  | ble (ra : RegNum) (rb : RegNum)
  /-- R235, row 61. -/
  | bgt (ra : RegNum) (rb : RegNum)
  /-- R236, row 62. -/
  | bge (ra : RegNum) (rb : RegNum)
  /-- R237, row 63. -/
  | beqd (ra : RegNum) (rb : RegNum)
  /-- R238, row 64. -/
  | bned (ra : RegNum) (rb : RegNum)
  /-- R239, row 65. -/
  | bltd (ra : RegNum) (rb : RegNum)
  /-- R240, row 66. -/
  | bled (ra : RegNum) (rb : RegNum)
  /-- R241, row 67. -/
  | bgtd (ra : RegNum) (rb : RegNum)
  /-- R242, row 68. -/
  | bged (ra : RegNum) (rb : RegNum)
  /-- R185, row 69. -/
  | ori (rd : RegNum) (ra : RegNum) (imm : Imm16)
  /-- R186, row 70. -/
  | andi (rd : RegNum) (ra : RegNum) (imm : Imm16)
  /-- R199, row 71. -/
  | xori (rd : RegNum) (ra : RegNum) (imm : Imm16)
  /-- R200, row 72. -/
  | andni (rd : RegNum) (ra : RegNum) (imm : Imm16)
  /-- R310, row 73. -/
  | imm (imm : Imm16)
  /-- R261, row 74. -/
  | rtsd (ra : RegNum) (imm : Imm16)
  /-- R317, row 75. -/
  | rtid (ra : RegNum) (imm : Imm16)
  /-- R318, row 76. -/
  | rtbd (ra : RegNum) (imm : Imm16)
  /-- R243, row 77. -/
  | bri (imm : Imm16)
  /-- R245, row 78. -/
  | brid (imm : Imm16)
  /-- R247, row 79. -/
  | brlid (rd : RegNum) (imm : Imm16)
  /-- R244, row 80. -/
  | brai (imm : Imm16)
  /-- R246, row 81. -/
  | braid (imm : Imm16)
  /-- R248, row 82. -/
  | bralid (rd : RegNum) (imm : Imm16)
  /-- R316, row 83. -/
  | brki (rd : RegNum) (imm : Imm16)
  /-- R249, row 84. -/
  | beqi (ra : RegNum) (imm : Imm16)
  /-- R250, row 85. -/
  | bnei (ra : RegNum) (imm : Imm16)
  /-- R251, row 86. -/
  | blti (ra : RegNum) (imm : Imm16)
  /-- R252, row 87. -/
  | blei (ra : RegNum) (imm : Imm16)
  /-- R253, row 88. -/
  | bgti (ra : RegNum) (imm : Imm16)
  /-- R254, row 89. -/
  | bgei (ra : RegNum) (imm : Imm16)
  /-- R255, row 90. -/
  | beqid (ra : RegNum) (imm : Imm16)
  /-- R256, row 91. -/
  | bneid (ra : RegNum) (imm : Imm16)
  /-- R257, row 92. -/
  | bltid (ra : RegNum) (imm : Imm16)
  /-- R258, row 93. -/
  | bleid (ra : RegNum) (imm : Imm16)
  /-- R259, row 94. -/
  | bgtid (ra : RegNum) (imm : Imm16)
  /-- R260, row 95. -/
  | bgeid (ra : RegNum) (imm : Imm16)
  /-- R282, row 96. -/
  | lbu (rd : RegNum) (ra : RegNum) (rb : RegNum)
  /-- R283, row 97. -/
  | lhu (rd : RegNum) (ra : RegNum) (rb : RegNum)
  /-- R284, row 98. -/
  | lw (rd : RegNum) (ra : RegNum) (rb : RegNum)
  /-- R285, row 99. -/
  | sb (rd : RegNum) (ra : RegNum) (rb : RegNum)
  /-- R286, row 100. -/
  | sh (rd : RegNum) (ra : RegNum) (rb : RegNum)
  /-- R287, row 101. -/
  | sw (rd : RegNum) (ra : RegNum) (rb : RegNum)
  /-- R288, row 102. -/
  | lbui (rd : RegNum) (ra : RegNum) (imm : Imm16)
  /-- R289, row 103. -/
  | lhui (rd : RegNum) (ra : RegNum) (imm : Imm16)
  /-- R290, row 104. -/
  | lwi (rd : RegNum) (ra : RegNum) (imm : Imm16)
  /-- R291, row 105. -/
  | sbi (rd : RegNum) (ra : RegNum) (imm : Imm16)
  /-- R292, row 106. -/
  | shi (rd : RegNum) (ra : RegNum) (imm : Imm16)
  /-- R293, row 107. -/
  | swi (rd : RegNum) (ra : RegNum) (imm : Imm16)
  /-- R313, row 108. -/
  | msrset (rd : RegNum) (imm : Imm16)
  /-- R314, row 109. -/
  | msrclr (rd : RegNum) (imm : Imm16)
  deriving DecidableEq, Repr

end Sys2Proof
end

