-- ==== Sys2Proof/WellFormed.lean ====
section
/-! DEFINITION. Well-formedness: which terms of `Instr` the instance's encoding can write. The field widths do most of it by
type; what is left is the two ways 30_encoding R119 places `msrset` and `msrclr`. Whether an option of the instance is
present is no question of form: an absent option is refused by the instruction's meaning (30 R120, log 29). -/

namespace Sys2Proof

/-- The printed `msrset` and `msrclr` are decoded, and take rA = 16 and rA = 17 away from `muli` (30_encoding R119). -/
def Config.msrPrinted (c : Config) : Bool := c.useMsrInstr && c.msrEncoding == .printed

/-- The later tools' encoding of `msrset` and `msrclr` is decoded (30_encoding R119). -/
def Config.msrGnu (c : Config) : Bool := c.useMsrInstr && c.msrEncoding == .gnu

/-- `muli` has no encoding for rA = 16 and 17 when the printed `msrset` and `msrclr` exist (30_encoding R119). -/
def muliEncodable (c : Config) (ra : RegNum) : Bool := !(c.msrPrinted && (ra == 16#5 || ra == 17#5))

/-- `msrset` and `msrclr` have an encoding when `C_USE_MSR_INSTR` = 1; the `gnu` one has 15 immediate bits (30 R119). -/
def msrEncodable (c : Config) (imm : Imm16) : Bool := c.msrPrinted || (c.msrGnu && !imm.msb)

/-- The instruction has an encoding in this instance. -/
def WellFormed (c : Config) (i : Instr) : Bool :=
  match i with
  | .add _ _ _ => true
  | .rsub _ _ _ => true
  | .addc _ _ _ => true
  | .rsubc _ _ _ => true
  | .addk _ _ _ => true
  | .rsubk _ _ _ => true
  | .addkc _ _ _ => true
  | .rsubkc _ _ _ => true
  | .cmp _ _ _ => true
  | .cmpu _ _ _ => true
  | .addi _ _ _ => true
  | .rsubi _ _ _ => true
  | .addic _ _ _ => true
  | .rsubic _ _ _ => true
  | .addik _ _ _ => true
  | .rsubik _ _ _ => true
  | .addikc _ _ _ => true
  | .rsubikc _ _ _ => true
  | .mul _ _ _ => true
  | .bsrl _ _ _ => true
  | .bsra _ _ _ => true
  | .bsll _ _ _ => true
  | .muli _ ra _ => muliEncodable c ra
  | .bsrli _ _ _ => true
  | .bsrai _ _ _ => true
  | .bslli _ _ _ => true
  | .idiv _ _ _ => true
  | .idivu _ _ _ => true
  | .get _ _ => true
  | .put _ _ => true
  | .nget _ _ => true
  | .nput _ _ => true
  | .cget _ _ => true
  | .cput _ _ => true
  | .ncget _ _ => true
  | .ncput _ _ => true
  | .or _ _ _ => true
  | .and _ _ _ => true
  | .xor _ _ _ => true
  | .andn _ _ _ => true
  | .sra _ _ => true
  | .src _ _ => true
  | .srl _ _ => true
  | .sext8 _ _ => true
  | .sext16 _ _ => true
  | .wic _ _ => true
  | .wdc _ _ => true
  | .mts _ _ => true
  | .mfs _ _ => true
  | .br _ => true
  | .brd _ => true
  | .brld _ _ => true
  | .bra _ => true
  | .brad _ => true
  | .brald _ _ => true
  | .brk _ _ => true
  | .beq _ _ => true
  | .bne _ _ => true
  | .blt _ _ => true
  | .ble _ _ => true
  | .bgt _ _ => true
  | .bge _ _ => true
  | .beqd _ _ => true
  | .bned _ _ => true
  | .bltd _ _ => true
  | .bled _ _ => true
  | .bgtd _ _ => true
  | .bged _ _ => true
  | .ori _ _ _ => true
  | .andi _ _ _ => true
  | .xori _ _ _ => true
  | .andni _ _ _ => true
  | .imm _ => true
  | .rtsd _ _ => true
  | .rtid _ _ => true
  | .rtbd _ _ => true
  | .bri _ => true
  | .brid _ => true
  | .brlid _ _ => true
  | .brai _ => true
  | .braid _ => true
  | .bralid _ _ => true
  | .brki _ _ => true
  | .beqi _ _ => true
  | .bnei _ _ => true
  | .blti _ _ => true
  | .blei _ _ => true
  | .bgti _ _ => true
  | .bgei _ _ => true
  | .beqid _ _ => true
  | .bneid _ _ => true
  | .bltid _ _ => true
  | .bleid _ _ => true
  | .bgtid _ _ => true
  | .bgeid _ _ => true
  | .lbu _ _ _ => true
  | .lhu _ _ _ => true
  | .lw _ _ _ => true
  | .sb _ _ _ => true
  | .sh _ _ _ => true
  | .sw _ _ _ => true
  | .lbui _ _ _ => true
  | .lhui _ _ _ => true
  | .lwi _ _ _ => true
  | .sbi _ _ _ => true
  | .shi _ _ _ => true
  | .swi _ _ _ => true
  | .msrset _ imm => msrEncodable c imm
  | .msrclr _ imm => msrEncodable c imm

end Sys2Proof
end

