-- ==== Sys2Proof/Decode.lean ====
section
/-! DEFINITION. Decoding and encoding (30_encoding). `decodeWord` is total: a word is an instruction or is rejected by a
named reason (R120). `encode` writes the word of an instruction from the same rows. Both take the instance's
configuration, which decides `IDIVU_FUNC` (R111) and where `msrset` and `msrclr` stand (R119). -/

namespace Sys2Proof

/-- Why a word is no instruction (30_encoding R120); every reason is the refusal `illegalEncoding` when executed. -/
inductive DecodeError where
  /-- One of the 14 unused primary opcodes (R107, R120). -/
  | unassignedOpcode
  /-- Function, selector or fixed zero bits that no row has (R108 to R114). -/
  | unassignedFunction
  /-- A branch kind, condition or return kind that no row has (R115 to R117), or a register field that must be zero. -/
  | unassignedKind
  /-- `wic` or `wdc` whose two rA fields differ (R113). -/
  | cacheRegisterMismatch
  /-- Fewer than four bytes (R100). -/
  | truncated
  deriving DecidableEq, Repr

/-! ### Fields (R101 to R103) -/

/-- `ins{0:5}`. -/
def opcodeOf (w : Word) : BitVec 6 := w.extractLsb' 26 6
/-- `ins{6:10}`. -/
def rdOf (w : Word) : RegNum := w.extractLsb' 21 5
/-- `ins{11:15}`. -/
def raOf (w : Word) : RegNum := w.extractLsb' 16 5
/-- `ins{16:20}`. -/
def rbOf (w : Word) : RegNum := w.extractLsb' 11 5
/-- `ins{21:31}`. -/
def funcOf (w : Word) : BitVec 11 := w.extractLsb' 0 11
/-- `ins{16:31}`. -/
def immOf (w : Word) : Imm16 := w.extractLsb' 0 16

/-- A Type A word (R101). -/
def typeA (op : BitVec 6) (rd ra rb : RegNum) (func : BitVec 11) : Word := op ++ rd ++ ra ++ rb ++ func

/-- A Type B word (R102); the groups of R103 are written with it too, their constants in the immediate field. -/
def typeB (op : BitVec 6) (rd ra : RegNum) (imm : Imm16) : Word := op ++ rd ++ ra ++ imm

/-! ### Operand fields of R103's groups -/

/-- The function field of the barrel-shift-immediate group: S, T, four zeros, the amount (R110). -/
def shiftField (st : BitVec 2) (amount : BitVec 5) : BitVec 11 := st ++ 0#4 ++ amount

/-- The low half of an FSL word: put, n, c, ten zeros, the channel (R112). -/
def fslField (kind : BitVec 3) (ch : Channel) : Imm16 := kind ++ 0#10 ++ ch

/-- The selector bit of a special register (R106). -/
def specBit (r : SpecReg) : BitVec 1 :=
  match r with
  | .rpc => 0#1
  | .rmsr => 1#1

/-- The special register a selector bit names (R106). -/
def specOf (b : BitVec 1) : SpecReg := if b = 0#1 then .rpc else .rmsr

/-- The low half of an `mfs` or `mts` word: two bits, thirteen zeros, the selector (R114). -/
def specField (kind : BitVec 2) (r : SpecReg) : Imm16 := kind ++ 0#13 ++ specBit r

/-- `{21:31}` of `idivu` (R111). -/
def idivuCode (c : Config) : BitVec 11 :=
  match c.idivuFunc with
  | .f001 => 0x001#11
  | .f002 => 0x002#11

/-! ### Decoding, group by group -/

/-- A Type A row whose function bits are all zero. -/
def plainA (w : Word) (k : RegNum → RegNum → RegNum → Instr) : Except DecodeError Instr :=
  if funcOf w = 0#11 then .ok (k (rdOf w) (raOf w) (rbOf w)) else .error .unassignedFunction

/-- A Type B row with all three fields. -/
def plainB (w : Word) (k : RegNum → RegNum → Imm16 → Instr) : Except DecodeError Instr :=
  .ok (k (rdOf w) (raOf w) (immOf w))

/-- Opcode 000101 (R109). -/
def decodeRsubk (w : Word) : Except DecodeError Instr :=
  if funcOf w = 0x000#11 then .ok (.rsubk (rdOf w) (raOf w) (rbOf w))
  else if funcOf w = 0x001#11 then .ok (.cmp (rdOf w) (raOf w) (rbOf w))
  else if funcOf w = 0x003#11 then .ok (.cmpu (rdOf w) (raOf w) (rbOf w))
  else .error .unassignedFunction

/-- Opcode 010001 (R110). -/
def decodeBarrel (w : Word) : Except DecodeError Instr :=
  if funcOf w = 0x000#11 then .ok (.bsrl (rdOf w) (raOf w) (rbOf w))
  else if funcOf w = 0x200#11 then .ok (.bsra (rdOf w) (raOf w) (rbOf w))
  else if funcOf w = 0x400#11 then .ok (.bsll (rdOf w) (raOf w) (rbOf w))
  else .error .unassignedFunction

/-- Opcode 010010 (R111). -/
def decodeDivide (c : Config) (w : Word) : Except DecodeError Instr :=
  if funcOf w = 0x000#11 then .ok (.idiv (rdOf w) (raOf w) (rbOf w))
  else if funcOf w = idivuCode c then .ok (.idivu (rdOf w) (raOf w) (rbOf w))
  else .error .unassignedFunction

/-- Opcode 011000 (R119). -/
def decodeMuli (c : Config) (w : Word) : Except DecodeError Instr :=
  if c.msrPrinted ∧ raOf w = 16#5 then .ok (.msrset (rdOf w) (immOf w))
  else if c.msrPrinted ∧ raOf w = 17#5 then .ok (.msrclr (rdOf w) (immOf w))
  else .ok (.muli (rdOf w) (raOf w) (immOf w))

/-- Opcode 011001 (R110). -/
def decodeBarrelImm (w : Word) : Except DecodeError Instr :=
  if rbOf w ≠ 0#5 ∨ (funcOf w).extractLsb' 5 4 ≠ 0#4 then .error .unassignedFunction
  else if (funcOf w).extractLsb' 9 2 = 0b00#2 then .ok (.bsrli (rdOf w) (raOf w) ((funcOf w).extractLsb' 0 5))
  else if (funcOf w).extractLsb' 9 2 = 0b01#2 then .ok (.bsrai (rdOf w) (raOf w) ((funcOf w).extractLsb' 0 5))
  else if (funcOf w).extractLsb' 9 2 = 0b10#2 then .ok (.bslli (rdOf w) (raOf w) ((funcOf w).extractLsb' 0 5))
  else .error .unassignedFunction

/-- A get row: the rA field is zero (R112). -/
def getRow (w : Word) (k : RegNum → Channel → Instr) : Except DecodeError Instr :=
  if raOf w = 0#5 then .ok (k (rdOf w) ((immOf w).extractLsb' 0 3)) else .error .unassignedKind

/-- A put row: the rD field is zero (R112). -/
def putRow (w : Word) (k : RegNum → Channel → Instr) : Except DecodeError Instr :=
  if rdOf w = 0#5 then .ok (k (raOf w) ((immOf w).extractLsb' 0 3)) else .error .unassignedKind

/-- Opcode 011011 (R112): the three bits are put, n, c. -/
def decodeFsl (w : Word) : Except DecodeError Instr :=
  if (immOf w).extractLsb' 3 10 ≠ 0#10 then .error .unassignedFunction
  else
    match ((immOf w).extractLsb' 13 3).toNat with
    | 0b000 => getRow w .get
    | 0b001 => getRow w .cget
    | 0b010 => getRow w .nget
    | 0b011 => getRow w .ncget
    | 0b100 => putRow w .put
    | 0b101 => putRow w .cput
    | 0b110 => putRow w .nput
    | _ => putRow w .ncput

/-- Opcode 100100 (R113). -/
def decodeShift (w : Word) : Except DecodeError Instr :=
  if immOf w = 0x0001#16 then .ok (.sra (rdOf w) (raOf w))
  else if immOf w = 0x0021#16 then .ok (.src (rdOf w) (raOf w))
  else if immOf w = 0x0041#16 then .ok (.srl (rdOf w) (raOf w))
  else if immOf w = 0x0060#16 then .ok (.sext8 (rdOf w) (raOf w))
  else if immOf w = 0x0061#16 then .ok (.sext16 (rdOf w) (raOf w))
  else if funcOf w = 0x068#11 then
    if rdOf w = raOf w then .ok (.wic (raOf w) (rbOf w)) else .error .cacheRegisterMismatch
  else if funcOf w = 0x064#11 then
    if rdOf w = raOf w then .ok (.wdc (raOf w) (rbOf w)) else .error .cacheRegisterMismatch
  else .error .unassignedFunction

/-- Opcode 100101 (R114), with the `gnu` rows of R119 where the instance has them: bit 15 tells them from `mfs` and
`mts`. -/
def decodeSpecial (c : Config) (w : Word) : Except DecodeError Instr :=
  if c.msrGnu ∧ (immOf w).msb = false ∧ raOf w = 16#5 then .ok (.msrset (rdOf w) (immOf w))
  else if c.msrGnu ∧ (immOf w).msb = false ∧ raOf w = 17#5 then .ok (.msrclr (rdOf w) (immOf w))
  else if (immOf w).extractLsb' 1 13 ≠ 0#13 then .error .unassignedFunction
  else if (immOf w).extractLsb' 14 2 = 0b10#2 then
    if raOf w = 0#5 then .ok (.mfs (rdOf w) (specOf ((immOf w).extractLsb' 0 1))) else .error .unassignedKind
  else if (immOf w).extractLsb' 14 2 = 0b11#2 then
    if rdOf w = 0#5 then .ok (.mts (raOf w) (specOf ((immOf w).extractLsb' 0 1))) else .error .unassignedKind
  else .error .unassignedFunction

/-- A branch row without link: the rD field is zero (R115). -/
def noLink (w : Word) (i : Instr) : Except DecodeError Instr :=
  if rdOf w = 0#5 then .ok i else .error .unassignedKind

/-- Opcode 100110 (R115): the rA field is D A L 0 0. -/
def decodeBr (w : Word) : Except DecodeError Instr :=
  if funcOf w ≠ 0#11 then .error .unassignedFunction
  else
    match (raOf w).toNat with
    | 0b00000 => noLink w (.br (rbOf w))
    | 0b10000 => noLink w (.brd (rbOf w))
    | 0b10100 => .ok (.brld (rdOf w) (rbOf w))
    | 0b01000 => noLink w (.bra (rbOf w))
    | 0b11000 => noLink w (.brad (rbOf w))
    | 0b11100 => .ok (.brald (rdOf w) (rbOf w))
    | 0b01100 => .ok (.brk (rdOf w) (rbOf w))
    | _ => .error .unassignedKind

/-- Opcode 101110 (R115). -/
def decodeBri (w : Word) : Except DecodeError Instr :=
  match (raOf w).toNat with
  | 0b00000 => noLink w (.bri (immOf w))
  | 0b10000 => noLink w (.brid (immOf w))
  | 0b10100 => .ok (.brlid (rdOf w) (immOf w))
  | 0b01000 => noLink w (.brai (immOf w))
  | 0b11000 => noLink w (.braid (immOf w))
  | 0b11100 => .ok (.bralid (rdOf w) (immOf w))
  | 0b01100 => .ok (.brki (rdOf w) (immOf w))
  | _ => .error .unassignedKind

/-- Opcode 100111 (R116): the rD field is D 0 and the condition. -/
def decodeCond (w : Word) : Except DecodeError Instr :=
  if funcOf w ≠ 0#11 then .error .unassignedFunction
  else
    match (rdOf w).toNat with
    | 0b00000 => .ok (.beq (raOf w) (rbOf w))
    | 0b00001 => .ok (.bne (raOf w) (rbOf w))
    | 0b00010 => .ok (.blt (raOf w) (rbOf w))
    | 0b00011 => .ok (.ble (raOf w) (rbOf w))
    | 0b00100 => .ok (.bgt (raOf w) (rbOf w))
    | 0b00101 => .ok (.bge (raOf w) (rbOf w))
    | 0b10000 => .ok (.beqd (raOf w) (rbOf w))
    | 0b10001 => .ok (.bned (raOf w) (rbOf w))
    | 0b10010 => .ok (.bltd (raOf w) (rbOf w))
    | 0b10011 => .ok (.bled (raOf w) (rbOf w))
    | 0b10100 => .ok (.bgtd (raOf w) (rbOf w))
    | 0b10101 => .ok (.bged (raOf w) (rbOf w))
    | _ => .error .unassignedKind

/-- Opcode 101111 (R116). -/
def decodeCondImm (w : Word) : Except DecodeError Instr :=
  match (rdOf w).toNat with
  | 0b00000 => .ok (.beqi (raOf w) (immOf w))
  | 0b00001 => .ok (.bnei (raOf w) (immOf w))
  | 0b00010 => .ok (.blti (raOf w) (immOf w))
  | 0b00011 => .ok (.blei (raOf w) (immOf w))
  | 0b00100 => .ok (.bgti (raOf w) (immOf w))
  | 0b00101 => .ok (.bgei (raOf w) (immOf w))
  | 0b10000 => .ok (.beqid (raOf w) (immOf w))
  | 0b10001 => .ok (.bneid (raOf w) (immOf w))
  | 0b10010 => .ok (.bltid (raOf w) (immOf w))
  | 0b10011 => .ok (.bleid (raOf w) (immOf w))
  | 0b10100 => .ok (.bgtid (raOf w) (immOf w))
  | 0b10101 => .ok (.bgeid (raOf w) (immOf w))
  | _ => .error .unassignedKind

/-- Opcode 101100 (R118). -/
def decodeImm (w : Word) : Except DecodeError Instr :=
  if rdOf w = 0#5 ∧ raOf w = 0#5 then .ok (.imm (immOf w)) else .error .unassignedKind

/-- Opcode 101101 (R117). -/
def decodeReturn (w : Word) : Except DecodeError Instr :=
  if rdOf w = 0b10000#5 then .ok (.rtsd (raOf w) (immOf w))
  else if rdOf w = 0b10001#5 then .ok (.rtid (raOf w) (immOf w))
  else if rdOf w = 0b10010#5 then .ok (.rtbd (raOf w) (immOf w))
  else .error .unassignedKind

/-- The instruction a word stands for, by the primary opcode map (R107), or why there is none (R120). -/
def decodeWord (c : Config) (w : Word) : Except DecodeError Instr :=
  match (opcodeOf w).toNat with
  | 0b000000 => plainA w .add
  | 0b000001 => plainA w .rsub
  | 0b000010 => plainA w .addc
  | 0b000011 => plainA w .rsubc
  | 0b000100 => plainA w .addk
  | 0b000101 => decodeRsubk w
  | 0b000110 => plainA w .addkc
  | 0b000111 => plainA w .rsubkc
  | 0b001000 => plainB w .addi
  | 0b001001 => plainB w .rsubi
  | 0b001010 => plainB w .addic
  | 0b001011 => plainB w .rsubic
  | 0b001100 => plainB w .addik
  | 0b001101 => plainB w .rsubik
  | 0b001110 => plainB w .addikc
  | 0b001111 => plainB w .rsubikc
  | 0b010000 => plainA w .mul
  | 0b010001 => decodeBarrel w
  | 0b010010 => decodeDivide c w
  | 0b011000 => decodeMuli c w
  | 0b011001 => decodeBarrelImm w
  | 0b011011 => decodeFsl w
  | 0b100000 => plainA w .or
  | 0b100001 => plainA w .and
  | 0b100010 => plainA w .xor
  | 0b100011 => plainA w .andn
  | 0b100100 => decodeShift w
  | 0b100101 => decodeSpecial c w
  | 0b100110 => decodeBr w
  | 0b100111 => decodeCond w
  | 0b101000 => plainB w .ori
  | 0b101001 => plainB w .andi
  | 0b101010 => plainB w .xori
  | 0b101011 => plainB w .andni
  | 0b101100 => decodeImm w
  | 0b101101 => decodeReturn w
  | 0b101110 => decodeBri w
  | 0b101111 => decodeCondImm w
  | 0b110000 => plainA w .lbu
  | 0b110001 => plainA w .lhu
  | 0b110010 => plainA w .lw
  | 0b110100 => plainA w .sb
  | 0b110101 => plainA w .sh
  | 0b110110 => plainA w .sw
  | 0b111000 => plainB w .lbui
  | 0b111001 => plainB w .lhui
  | 0b111010 => plainB w .lwi
  | 0b111100 => plainB w .sbi
  | 0b111101 => plainB w .shi
  | 0b111110 => plainB w .swi
  | _ => .error .unassignedOpcode

/-- Four bytes in memory order, most significant first (20_memory R63). -/
def wordOfBytes (b0 b1 b2 b3 : Byte) : Word := b0 ++ b1 ++ b2 ++ b3

/-- Byte k (0 to 3) of a word in memory order: byte 0 is the most significant (20_memory R62). -/
def byteOfWord (w : Word) (k : Nat) : Byte := w.extractLsb' (24 - 8 * k) 8

/-- The instruction at the head of a byte sequence and the bytes after it (30_encoding R100, 20_memory R63). -/
def decodeBytes (c : Config) (bs : List Byte) : Except DecodeError (Instr × List Byte) :=
  match bs with
  | b0 :: b1 :: b2 :: b3 :: rest =>
    match decodeWord c (wordOfBytes b0 b1 b2 b3) with
    | .ok i => .ok (i, rest)
    | .error e => .error e
  | _ => .error .truncated

/-- The instruction the decoder of the reset instance reads from the word numbered as spec/opcode_table.json numbers it. -/
def decodeTableWord (nbits w : Nat) : Option Instr :=
  let v : Word := BitVec.ofNat 32 (w % 2 ^ nbits)
  match decodeBytes Config.full [byteOfWord v 0, byteOfWord v 1, byteOfWord v 2, byteOfWord v 3] with
  | .ok (i, _) => some i
  | .error _ => none

/-! ### Encoding -/

/-- `msrset` and `msrclr` (R119): `kind` is 16 or 17; the opcode is the printed one or that of later tools. -/
def encodeMsr (c : Config) (kind rd : RegNum) (imm : Imm16) : Word :=
  if c.msrGnu then typeB 0b100101#6 rd kind imm else typeB 0b011000#6 rd kind imm

/-- The word of an instruction (R108). For an instruction that is not `WellFormed` the word means something else. -/
def encode (c : Config) (i : Instr) : Word :=
  match i with
  | .add rd ra rb => typeA 0b000000#6 rd ra rb 0x000#11
  | .rsub rd ra rb => typeA 0b000001#6 rd ra rb 0x000#11
  | .addc rd ra rb => typeA 0b000010#6 rd ra rb 0x000#11
  | .rsubc rd ra rb => typeA 0b000011#6 rd ra rb 0x000#11
  | .addk rd ra rb => typeA 0b000100#6 rd ra rb 0x000#11
  | .rsubk rd ra rb => typeA 0b000101#6 rd ra rb 0x000#11
  | .addkc rd ra rb => typeA 0b000110#6 rd ra rb 0x000#11
  | .rsubkc rd ra rb => typeA 0b000111#6 rd ra rb 0x000#11
  | .cmp rd ra rb => typeA 0b000101#6 rd ra rb 0x001#11
  | .cmpu rd ra rb => typeA 0b000101#6 rd ra rb 0x003#11
  | .addi rd ra imm => typeB 0b001000#6 rd ra imm
  | .rsubi rd ra imm => typeB 0b001001#6 rd ra imm
  | .addic rd ra imm => typeB 0b001010#6 rd ra imm
  | .rsubic rd ra imm => typeB 0b001011#6 rd ra imm
  | .addik rd ra imm => typeB 0b001100#6 rd ra imm
  | .rsubik rd ra imm => typeB 0b001101#6 rd ra imm
  | .addikc rd ra imm => typeB 0b001110#6 rd ra imm
  | .rsubikc rd ra imm => typeB 0b001111#6 rd ra imm
  | .mul rd ra rb => typeA 0b010000#6 rd ra rb 0x000#11
  | .bsrl rd ra rb => typeA 0b010001#6 rd ra rb 0x000#11
  | .bsra rd ra rb => typeA 0b010001#6 rd ra rb 0x200#11
  | .bsll rd ra rb => typeA 0b010001#6 rd ra rb 0x400#11
  | .muli rd ra imm => typeB 0b011000#6 rd ra imm
  | .bsrli rd ra amount => typeA 0b011001#6 rd ra 0#5 (shiftField 0b00#2 amount)
  | .bsrai rd ra amount => typeA 0b011001#6 rd ra 0#5 (shiftField 0b01#2 amount)
  | .bslli rd ra amount => typeA 0b011001#6 rd ra 0#5 (shiftField 0b10#2 amount)
  | .idiv rd ra rb => typeA 0b010010#6 rd ra rb 0x000#11
  | .idivu rd ra rb => typeA 0b010010#6 rd ra rb (idivuCode c)
  | .get rd ch => typeB 0b011011#6 rd 0b00000#5 (fslField 0b000#3 ch)
  | .put ra ch => typeB 0b011011#6 0b00000#5 ra (fslField 0b100#3 ch)
  | .nget rd ch => typeB 0b011011#6 rd 0b00000#5 (fslField 0b010#3 ch)
  | .nput ra ch => typeB 0b011011#6 0b00000#5 ra (fslField 0b110#3 ch)
  | .cget rd ch => typeB 0b011011#6 rd 0b00000#5 (fslField 0b001#3 ch)
  | .cput ra ch => typeB 0b011011#6 0b00000#5 ra (fslField 0b101#3 ch)
  | .ncget rd ch => typeB 0b011011#6 rd 0b00000#5 (fslField 0b011#3 ch)
  | .ncput ra ch => typeB 0b011011#6 0b00000#5 ra (fslField 0b111#3 ch)
  | .or rd ra rb => typeA 0b100000#6 rd ra rb 0x000#11
  | .and rd ra rb => typeA 0b100001#6 rd ra rb 0x000#11
  | .xor rd ra rb => typeA 0b100010#6 rd ra rb 0x000#11
  | .andn rd ra rb => typeA 0b100011#6 rd ra rb 0x000#11
  | .sra rd ra => typeB 0b100100#6 rd ra 0x0001#16
  | .src rd ra => typeB 0b100100#6 rd ra 0x0021#16
  | .srl rd ra => typeB 0b100100#6 rd ra 0x0041#16
  | .sext8 rd ra => typeB 0b100100#6 rd ra 0x0060#16
  | .sext16 rd ra => typeB 0b100100#6 rd ra 0x0061#16
  | .wic ra rb => typeA 0b100100#6 ra ra rb 0x068#11
  | .wdc ra rb => typeA 0b100100#6 ra ra rb 0x064#11
  | .mts ra rs => typeB 0b100101#6 0b00000#5 ra (specField 0b11#2 rs)
  | .mfs rd rs => typeB 0b100101#6 rd 0b00000#5 (specField 0b10#2 rs)
  | .br rb => typeA 0b100110#6 0b00000#5 0b00000#5 rb 0x000#11
  | .brd rb => typeA 0b100110#6 0b00000#5 0b10000#5 rb 0x000#11
  | .brld rd rb => typeA 0b100110#6 rd 0b10100#5 rb 0x000#11
  | .bra rb => typeA 0b100110#6 0b00000#5 0b01000#5 rb 0x000#11
  | .brad rb => typeA 0b100110#6 0b00000#5 0b11000#5 rb 0x000#11
  | .brald rd rb => typeA 0b100110#6 rd 0b11100#5 rb 0x000#11
  | .brk rd rb => typeA 0b100110#6 rd 0b01100#5 rb 0x000#11
  | .beq ra rb => typeA 0b100111#6 0b00000#5 ra rb 0x000#11
  | .bne ra rb => typeA 0b100111#6 0b00001#5 ra rb 0x000#11
  | .blt ra rb => typeA 0b100111#6 0b00010#5 ra rb 0x000#11
  | .ble ra rb => typeA 0b100111#6 0b00011#5 ra rb 0x000#11
  | .bgt ra rb => typeA 0b100111#6 0b00100#5 ra rb 0x000#11
  | .bge ra rb => typeA 0b100111#6 0b00101#5 ra rb 0x000#11
  | .beqd ra rb => typeA 0b100111#6 0b10000#5 ra rb 0x000#11
  | .bned ra rb => typeA 0b100111#6 0b10001#5 ra rb 0x000#11
  | .bltd ra rb => typeA 0b100111#6 0b10010#5 ra rb 0x000#11
  | .bled ra rb => typeA 0b100111#6 0b10011#5 ra rb 0x000#11
  | .bgtd ra rb => typeA 0b100111#6 0b10100#5 ra rb 0x000#11
  | .bged ra rb => typeA 0b100111#6 0b10101#5 ra rb 0x000#11
  | .ori rd ra imm => typeB 0b101000#6 rd ra imm
  | .andi rd ra imm => typeB 0b101001#6 rd ra imm
  | .xori rd ra imm => typeB 0b101010#6 rd ra imm
  | .andni rd ra imm => typeB 0b101011#6 rd ra imm
  | .imm imm => typeB 0b101100#6 0b00000#5 0b00000#5 imm
  | .rtsd ra imm => typeB 0b101101#6 0b10000#5 ra imm
  | .rtid ra imm => typeB 0b101101#6 0b10001#5 ra imm
  | .rtbd ra imm => typeB 0b101101#6 0b10010#5 ra imm
  | .bri imm => typeB 0b101110#6 0b00000#5 0b00000#5 imm
  | .brid imm => typeB 0b101110#6 0b00000#5 0b10000#5 imm
  | .brlid rd imm => typeB 0b101110#6 rd 0b10100#5 imm
  | .brai imm => typeB 0b101110#6 0b00000#5 0b01000#5 imm
  | .braid imm => typeB 0b101110#6 0b00000#5 0b11000#5 imm
  | .bralid rd imm => typeB 0b101110#6 rd 0b11100#5 imm
  | .brki rd imm => typeB 0b101110#6 rd 0b01100#5 imm
  | .beqi ra imm => typeB 0b101111#6 0b00000#5 ra imm
  | .bnei ra imm => typeB 0b101111#6 0b00001#5 ra imm
  | .blti ra imm => typeB 0b101111#6 0b00010#5 ra imm
  | .blei ra imm => typeB 0b101111#6 0b00011#5 ra imm
  | .bgti ra imm => typeB 0b101111#6 0b00100#5 ra imm
  | .bgei ra imm => typeB 0b101111#6 0b00101#5 ra imm
  | .beqid ra imm => typeB 0b101111#6 0b10000#5 ra imm
  | .bneid ra imm => typeB 0b101111#6 0b10001#5 ra imm
  | .bltid ra imm => typeB 0b101111#6 0b10010#5 ra imm
  | .bleid ra imm => typeB 0b101111#6 0b10011#5 ra imm
  | .bgtid ra imm => typeB 0b101111#6 0b10100#5 ra imm
  | .bgeid ra imm => typeB 0b101111#6 0b10101#5 ra imm
  | .lbu rd ra rb => typeA 0b110000#6 rd ra rb 0x000#11
  | .lhu rd ra rb => typeA 0b110001#6 rd ra rb 0x000#11
  | .lw rd ra rb => typeA 0b110010#6 rd ra rb 0x000#11
  | .sb rd ra rb => typeA 0b110100#6 rd ra rb 0x000#11
  | .sh rd ra rb => typeA 0b110101#6 rd ra rb 0x000#11
  | .sw rd ra rb => typeA 0b110110#6 rd ra rb 0x000#11
  | .lbui rd ra imm => typeB 0b111000#6 rd ra imm
  | .lhui rd ra imm => typeB 0b111001#6 rd ra imm
  | .lwi rd ra imm => typeB 0b111010#6 rd ra imm
  | .sbi rd ra imm => typeB 0b111100#6 rd ra imm
  | .shi rd ra imm => typeB 0b111101#6 rd ra imm
  | .swi rd ra imm => typeB 0b111110#6 rd ra imm
  | .msrset rd imm => encodeMsr c 0b10000#5 rd imm
  | .msrclr rd imm => encodeMsr c 0b10001#5 rd imm

/-! ### The rows of the instruction list (R108) -/

/-- The mask of an instruction's row (R108); the `gnu` words of `msrset` and `msrclr` fix bit 15 too (R119). -/
def rowMask (c : Config) (i : Instr) : Word :=
  match i with
  | .add _ _ _ => 0xFC0007FF#32
  | .rsub _ _ _ => 0xFC0007FF#32
  | .addc _ _ _ => 0xFC0007FF#32
  | .rsubc _ _ _ => 0xFC0007FF#32
  | .addk _ _ _ => 0xFC0007FF#32
  | .rsubk _ _ _ => 0xFC0007FF#32
  | .addkc _ _ _ => 0xFC0007FF#32
  | .rsubkc _ _ _ => 0xFC0007FF#32
  | .cmp _ _ _ => 0xFC0007FF#32
  | .cmpu _ _ _ => 0xFC0007FF#32
  | .addi _ _ _ => 0xFC000000#32
  | .rsubi _ _ _ => 0xFC000000#32
  | .addic _ _ _ => 0xFC000000#32
  | .rsubic _ _ _ => 0xFC000000#32
  | .addik _ _ _ => 0xFC000000#32
  | .rsubik _ _ _ => 0xFC000000#32
  | .addikc _ _ _ => 0xFC000000#32
  | .rsubikc _ _ _ => 0xFC000000#32
  | .mul _ _ _ => 0xFC0007FF#32
  | .bsrl _ _ _ => 0xFC0007FF#32
  | .bsra _ _ _ => 0xFC0007FF#32
  | .bsll _ _ _ => 0xFC0007FF#32
  | .muli _ _ _ => 0xFC000000#32
  | .bsrli _ _ _ => 0xFC00FFE0#32
  | .bsrai _ _ _ => 0xFC00FFE0#32
  | .bslli _ _ _ => 0xFC00FFE0#32
  | .idiv _ _ _ => 0xFC0007FF#32
  | .idivu _ _ _ => 0xFC0007FF#32
  | .get _ _ => 0xFC1FFFF8#32
  | .put _ _ => 0xFFE0FFF8#32
  | .nget _ _ => 0xFC1FFFF8#32
  | .nput _ _ => 0xFFE0FFF8#32
  | .cget _ _ => 0xFC1FFFF8#32
  | .cput _ _ => 0xFFE0FFF8#32
  | .ncget _ _ => 0xFC1FFFF8#32
  | .ncput _ _ => 0xFFE0FFF8#32
  | .or _ _ _ => 0xFC0007FF#32
  | .and _ _ _ => 0xFC0007FF#32
  | .xor _ _ _ => 0xFC0007FF#32
  | .andn _ _ _ => 0xFC0007FF#32
  | .sra _ _ => 0xFC00FFFF#32
  | .src _ _ => 0xFC00FFFF#32
  | .srl _ _ => 0xFC00FFFF#32
  | .sext8 _ _ => 0xFC00FFFF#32
  | .sext16 _ _ => 0xFC00FFFF#32
  | .wic _ _ => 0xFC0007FF#32
  | .wdc _ _ => 0xFC0007FF#32
  | .mts _ _ => 0xFFE0FFFE#32
  | .mfs _ _ => 0xFC1FFFFE#32
  | .br _ => 0xFFFF07FF#32
  | .brd _ => 0xFFFF07FF#32
  | .brld _ _ => 0xFC1F07FF#32
  | .bra _ => 0xFFFF07FF#32
  | .brad _ => 0xFFFF07FF#32
  | .brald _ _ => 0xFC1F07FF#32
  | .brk _ _ => 0xFC1F07FF#32
  | .beq _ _ => 0xFFE007FF#32
  | .bne _ _ => 0xFFE007FF#32
  | .blt _ _ => 0xFFE007FF#32
  | .ble _ _ => 0xFFE007FF#32
  | .bgt _ _ => 0xFFE007FF#32
  | .bge _ _ => 0xFFE007FF#32
  | .beqd _ _ => 0xFFE007FF#32
  | .bned _ _ => 0xFFE007FF#32
  | .bltd _ _ => 0xFFE007FF#32
  | .bled _ _ => 0xFFE007FF#32
  | .bgtd _ _ => 0xFFE007FF#32
  | .bged _ _ => 0xFFE007FF#32
  | .ori _ _ _ => 0xFC000000#32
  | .andi _ _ _ => 0xFC000000#32
  | .xori _ _ _ => 0xFC000000#32
  | .andni _ _ _ => 0xFC000000#32
  | .imm _ => 0xFFFF0000#32
  | .rtsd _ _ => 0xFFE00000#32
  | .rtid _ _ => 0xFFE00000#32
  | .rtbd _ _ => 0xFFE00000#32
  | .bri _ => 0xFFFF0000#32
  | .brid _ => 0xFFFF0000#32
  | .brlid _ _ => 0xFC1F0000#32
  | .brai _ => 0xFFFF0000#32
  | .braid _ => 0xFFFF0000#32
  | .bralid _ _ => 0xFC1F0000#32
  | .brki _ _ => 0xFC1F0000#32
  | .beqi _ _ => 0xFFE00000#32
  | .bnei _ _ => 0xFFE00000#32
  | .blti _ _ => 0xFFE00000#32
  | .blei _ _ => 0xFFE00000#32
  | .bgti _ _ => 0xFFE00000#32
  | .bgei _ _ => 0xFFE00000#32
  | .beqid _ _ => 0xFFE00000#32
  | .bneid _ _ => 0xFFE00000#32
  | .bltid _ _ => 0xFFE00000#32
  | .bleid _ _ => 0xFFE00000#32
  | .bgtid _ _ => 0xFFE00000#32
  | .bgeid _ _ => 0xFFE00000#32
  | .lbu _ _ _ => 0xFC0007FF#32
  | .lhu _ _ _ => 0xFC0007FF#32
  | .lw _ _ _ => 0xFC0007FF#32
  | .sb _ _ _ => 0xFC0007FF#32
  | .sh _ _ _ => 0xFC0007FF#32
  | .sw _ _ _ => 0xFC0007FF#32
  | .lbui _ _ _ => 0xFC000000#32
  | .lhui _ _ _ => 0xFC000000#32
  | .lwi _ _ _ => 0xFC000000#32
  | .sbi _ _ _ => 0xFC000000#32
  | .shi _ _ _ => 0xFC000000#32
  | .swi _ _ _ => 0xFC000000#32
  | .msrset _ _ => if c.msrGnu then 0xFC1F8000#32 else 0xFC1F0000#32
  | .msrclr _ _ => if c.msrGnu then 0xFC1F8000#32 else 0xFC1F0000#32

/-- The match value of an instruction's row (R108, R111, R119). -/
def rowMatch (c : Config) (i : Instr) : Word :=
  match i with
  | .add _ _ _ => 0x00000000#32
  | .rsub _ _ _ => 0x04000000#32
  | .addc _ _ _ => 0x08000000#32
  | .rsubc _ _ _ => 0x0C000000#32
  | .addk _ _ _ => 0x10000000#32
  | .rsubk _ _ _ => 0x14000000#32
  | .addkc _ _ _ => 0x18000000#32
  | .rsubkc _ _ _ => 0x1C000000#32
  | .cmp _ _ _ => 0x14000001#32
  | .cmpu _ _ _ => 0x14000003#32
  | .addi _ _ _ => 0x20000000#32
  | .rsubi _ _ _ => 0x24000000#32
  | .addic _ _ _ => 0x28000000#32
  | .rsubic _ _ _ => 0x2C000000#32
  | .addik _ _ _ => 0x30000000#32
  | .rsubik _ _ _ => 0x34000000#32
  | .addikc _ _ _ => 0x38000000#32
  | .rsubikc _ _ _ => 0x3C000000#32
  | .mul _ _ _ => 0x40000000#32
  | .bsrl _ _ _ => 0x44000000#32
  | .bsra _ _ _ => 0x44000200#32
  | .bsll _ _ _ => 0x44000400#32
  | .muli _ _ _ => 0x60000000#32
  | .bsrli _ _ _ => 0x64000000#32
  | .bsrai _ _ _ => 0x64000200#32
  | .bslli _ _ _ => 0x64000400#32
  | .idiv _ _ _ => 0x48000000#32
  | .idivu _ _ _ =>
    match c.idivuFunc with
    | .f001 => 0x48000001#32
    | .f002 => 0x48000002#32
  | .get _ _ => 0x6C000000#32
  | .put _ _ => 0x6C008000#32
  | .nget _ _ => 0x6C004000#32
  | .nput _ _ => 0x6C00C000#32
  | .cget _ _ => 0x6C002000#32
  | .cput _ _ => 0x6C00A000#32
  | .ncget _ _ => 0x6C006000#32
  | .ncput _ _ => 0x6C00E000#32
  | .or _ _ _ => 0x80000000#32
  | .and _ _ _ => 0x84000000#32
  | .xor _ _ _ => 0x88000000#32
  | .andn _ _ _ => 0x8C000000#32
  | .sra _ _ => 0x90000001#32
  | .src _ _ => 0x90000021#32
  | .srl _ _ => 0x90000041#32
  | .sext8 _ _ => 0x90000060#32
  | .sext16 _ _ => 0x90000061#32
  | .wic _ _ => 0x90000068#32
  | .wdc _ _ => 0x90000064#32
  | .mts _ _ => 0x9400C000#32
  | .mfs _ _ => 0x94008000#32
  | .br _ => 0x98000000#32
  | .brd _ => 0x98100000#32
  | .brld _ _ => 0x98140000#32
  | .bra _ => 0x98080000#32
  | .brad _ => 0x98180000#32
  | .brald _ _ => 0x981C0000#32
  | .brk _ _ => 0x980C0000#32
  | .beq _ _ => 0x9C000000#32
  | .bne _ _ => 0x9C200000#32
  | .blt _ _ => 0x9C400000#32
  | .ble _ _ => 0x9C600000#32
  | .bgt _ _ => 0x9C800000#32
  | .bge _ _ => 0x9CA00000#32
  | .beqd _ _ => 0x9E000000#32
  | .bned _ _ => 0x9E200000#32
  | .bltd _ _ => 0x9E400000#32
  | .bled _ _ => 0x9E600000#32
  | .bgtd _ _ => 0x9E800000#32
  | .bged _ _ => 0x9EA00000#32
  | .ori _ _ _ => 0xA0000000#32
  | .andi _ _ _ => 0xA4000000#32
  | .xori _ _ _ => 0xA8000000#32
  | .andni _ _ _ => 0xAC000000#32
  | .imm _ => 0xB0000000#32
  | .rtsd _ _ => 0xB6000000#32
  | .rtid _ _ => 0xB6200000#32
  | .rtbd _ _ => 0xB6400000#32
  | .bri _ => 0xB8000000#32
  | .brid _ => 0xB8100000#32
  | .brlid _ _ => 0xB8140000#32
  | .brai _ => 0xB8080000#32
  | .braid _ => 0xB8180000#32
  | .bralid _ _ => 0xB81C0000#32
  | .brki _ _ => 0xB80C0000#32
  | .beqi _ _ => 0xBC000000#32
  | .bnei _ _ => 0xBC200000#32
  | .blti _ _ => 0xBC400000#32
  | .blei _ _ => 0xBC600000#32
  | .bgti _ _ => 0xBC800000#32
  | .bgei _ _ => 0xBCA00000#32
  | .beqid _ _ => 0xBE000000#32
  | .bneid _ _ => 0xBE200000#32
  | .bltid _ _ => 0xBE400000#32
  | .bleid _ _ => 0xBE600000#32
  | .bgtid _ _ => 0xBE800000#32
  | .bgeid _ _ => 0xBEA00000#32
  | .lbu _ _ _ => 0xC0000000#32
  | .lhu _ _ _ => 0xC4000000#32
  | .lw _ _ _ => 0xC8000000#32
  | .sb _ _ _ => 0xD0000000#32
  | .sh _ _ _ => 0xD4000000#32
  | .sw _ _ _ => 0xD8000000#32
  | .lbui _ _ _ => 0xE0000000#32
  | .lhui _ _ _ => 0xE4000000#32
  | .lwi _ _ _ => 0xE8000000#32
  | .sbi _ _ _ => 0xF0000000#32
  | .shi _ _ _ => 0xF4000000#32
  | .swi _ _ _ => 0xF8000000#32
  | .msrset _ _ => if c.msrGnu then 0x94100000#32 else 0x60100000#32
  | .msrclr _ _ => if c.msrGnu then 0x94110000#32 else 0x60110000#32

end Sys2Proof
end

