-- ==== Sys2Proof/Machine/Assoc.lean ====
section
/-! DEFINITION. Sparse data by key: lists of (key, value) pairs with keys strictly rising. Memory, the cache lines and the
record of stored words are kept in this form. -/

namespace Sys2Proof.Machine

/-- The value listed at a key. -/
def Assoc.find {α : Type} (m : List (Nat × α)) (k : Nat) : Option α :=
  match m with
  | [] => none
  | (j, v) :: t => if k = j then some v else Assoc.find t k

/-- List a value at a key, in place. -/
def Assoc.put {α : Type} (m : List (Nat × α)) (k : Nat) (v : α) : List (Nat × α) :=
  match m with
  | [] => [(k, v)]
  | (j, w) :: t =>
    if k < j then (k, v) :: (j, w) :: t
    else if k = j then (k, v) :: t
    else (j, w) :: Assoc.put t k v

/-- Remove the entry at a key. -/
def Assoc.drop {α : Type} (m : List (Nat × α)) (k : Nat) : List (Nat × α) :=
  match m with
  | [] => []
  | (j, w) :: t => if k = j then t else (j, w) :: Assoc.drop t k

/-- Keys strictly rising, every one of them below a bound and every entry acceptable: the canonical form. -/
def Assoc.wf {α : Type} (bound : Nat) (ok : Nat → α → Bool) (m : List (Nat × α)) : Bool :=
  decide (m.Pairwise (fun x y => x.1 < y.1)) && m.all (fun e => decide (e.1 < bound) && ok e.1 e.2)

/-- Storage by byte address (20_memory R60). -/
abbrev Memory := List Host.Cell

/-- The byte at an address. An address that is not listed reads 0: DESIGN CHOICE, unsafe (log 4); the spec makes initial
contents the platform's (70 R454). -/
def Memory.read (m : Memory) (a : Nat) : Byte := (Assoc.find m a).getD 0#8

/-- Write one byte, keeping the canonical form: a byte that reads like an unlisted one is not listed. -/
def Memory.write (m : Memory) (a : Nat) (b : Byte) : Memory :=
  if b = 0#8 then Assoc.drop m a else Assoc.put m a b

/-- The canonical form: addresses strictly rising and below 2^32, no entry equal to what an unlisted address reads. -/
def Memory.wf (m : Memory) : Bool := Assoc.wf (2 ^ 32) (fun _ (b : Byte) => b != 0#8) m

/-- The word at an address, most significant byte first (20_memory R62, R70). -/
def Memory.readWord (m : Memory) (a : Nat) : Word :=
  wordOfBytes (m.read a) (m.read (a + 1)) (m.read (a + 2)) (m.read (a + 3))

/-- Access sizes (20_memory R60, R73). -/
inductive Size where
  | byte
  | half
  | word
  deriving DecidableEq, Repr

/-- The n of `MemRead` and `MemWrite`. -/
def Size.bytes (n : Size) : Nat :=
  match n with
  | .byte => 1
  | .half => 2
  | .word => 4

/-- `MemRead` of storage (20_memory R70), zero-extended to 32 bits (43 R280). -/
def Memory.readSize (m : Memory) (n : Size) (a : Nat) : Word :=
  match n with
  | .byte => wordOfBytes 0#8 0#8 0#8 (m.read a)
  | .half => wordOfBytes 0#8 0#8 (m.read a) (m.read (a + 1))
  | .word => m.readWord a

/-- `MemWrite` of storage (20_memory R71): the low 8n bits of v, most significant byte at the lowest address. -/
def Memory.writeSize (m : Memory) (n : Size) (a : Nat) (v : Word) : Memory :=
  match n with
  | .byte => m.write a (byteOfWord v 3)
  | .half => (m.write a (byteOfWord v 2)).write (a + 1) (byteOfWord v 3)
  | .word =>
    (((m.write a (byteOfWord v 0)).write (a + 1) (byteOfWord v 1)).write (a + 2) (byteOfWord v 2)).write (a + 3)
      (byteOfWord v 3)

end Sys2Proof.Machine
end

