-- ==== Sys2Proof/Machine/State.lean ====
section
/-! DEFINITION. The state of the machine as plain data (10_state R20), the reasons a step can stop, and the state after
reset (10_state R50, 70_reset_and_hazards R451, R452). -/

namespace Sys2Proof.Machine

/-- The eight stored bits of the machine status register (10_state R28). CC, the copy of C, and the reserved bits are not
stored (R29, R30); the 32-bit view is `Msr.toWord` and `Msr.ofWord` in Machine/Flags.lean (R39, R40). -/
structure Msr where
  /-- `MSR{24}`, data cache enable (R31). -/
  dce : Bool
  /-- `MSR{25}`, division by zero (R32). -/
  dz : Bool
  /-- `MSR{26}`, instruction cache enable (R33). -/
  ice : Bool
  /-- `MSR{27}`, FSL error (R34). -/
  fsl : Bool
  /-- `MSR{28}`, break in progress (R35). -/
  bip : Bool
  /-- `MSR{29}`, carry (R36). -/
  c : Bool
  /-- `MSR{30}`, interrupt enable (R37). -/
  ie : Bool
  /-- `MSR{31}`, buslock enable (R38). -/
  be : Bool
  deriving DecidableEq, Repr

/-- `DS_MSR`, what the end of the delay slot does to MSR (10_state R44). -/
inductive SlotMsr where
  | none
  | setIE
  | clearBIP
  deriving DecidableEq, Repr

/-- The pending delayed transfer: `DS_TARGET` and `DS_MSR` (10_state R44). -/
structure Delayed where
  target : Word
  act : SlotMsr
  deriving DecidableEq, Repr

/-- One line of a cache: tag, valid bit, lock bit and one data word (10_state R46, 20_memory R88). -/
structure CacheLine where
  tag : Nat
  valid : Bool
  lock : Bool
  data : Word
  deriving DecidableEq, Repr

/-- One item of an FSL queue: 32 data bits and the control bit (45_fsl R340). -/
structure FslItem where
  data : Word
  control : Bool
  deriving DecidableEq, Repr

/-- One transfer to a device region (20_memory R76): aligned address, size in bytes, the data of a store, and the level of
the buslock output (10_state R38). -/
structure DeviceAccess where
  addr : Nat
  size : Nat
  stored : Option Word
  busLock : Bool
  deriving DecidableEq, Repr

/-- The complete state. INVENTORY.md lists each field with its width, rule and reset value. -/
structure State where
  /-- Parameters and memory map; no step changes them (the model's own field, log 1). -/
  cfg : Config
  /-- r1 to r31; entry k holds r(k+1) (10_state R21). r0 is not stored. -/
  gpr : Vector Word 31
  /-- The address of the instruction being executed (10_state R24). -/
  pc : Word
  msr : Msr
  /-- `IMM_LOCK` and `IMM_HI` (10_state R43): `some` while the lock is 1. -/
  imm : Option Imm16
  /-- `DS_PENDING`, `DS_TARGET`, `DS_MSR` (10_state R44): `some` while pending. -/
  ds : Option Delayed
  /-- The MSR write window (70 R466): while open, the value MSR had before the write. -/
  window : Option Msr
  /-- `Reset` or `Debug_Rst` asserted (60 R405). -/
  rst : Bool
  /-- `NM`, `BRK`, `EXC`: pending requests (10_state R45). -/
  nm : Bool
  brk : Bool
  exc : Bool
  /-- The level of the `Interrupt` input, and the edge latch (60 R412). -/
  intPin : Bool
  intLatch : Bool
  /-- The core is stopped by the debug host (60 R437). -/
  stopped : Bool
  /-- Storage reached by the data side (20_memory R70, R71): (address, byte) pairs in canonical form. -/
  mem : List Host.Cell
  /-- Storage only the instruction side reaches (20_memory R72, R83), in the same form. -/
  imem : List Host.Cell
  /-- The lines written since configuration, by line index (10_state R46); a line not listed is unwritten. -/
  icache : List (Nat × CacheLine)
  dcache : List (Nat × CacheLine)
  /-- The FSL queues, head first (45_fsl R340). -/
  inQ : Vector (List FslItem) 8
  outQ : Vector (List FslItem) 8
  /-- Transfers to device regions, latest first (the model's own record, log 25). -/
  devLog : List DeviceAccess
  /-- The level of the `DM_busLock` output during the latest transfer on the data bus (10_state R38, 70 R466; log 13). -/
  busLocked : Bool
  /-- Words stored to since reset, by address, with `icount` at the store (20_memory R87, log 28). -/
  stored : List (Nat × Nat)
  /-- Instructions completed since reset, and its value at the last taken transfer (20_memory R87, log 28). -/
  icount : Nat
  lastTaken : Nat
  /-- Free values drawn so far (the model's own field, log 9). -/
  draws : Nat
  deriving DecidableEq, Repr

/-- Faults: none. No item of this hardware has that treatment (93, opening list; 60_exceptions R407): what ends a run is
refused. -/
inductive Fault where
  deriving DecidableEq, Repr

/-- Refusals: the spec gives the run no meaning from here on (93 section 1). -/
inductive Refusal where
  /-- An instruction without a meaning; raised only by a refused arm of `exec`. Safe. -/
  | notModelled (mnemonic : String)
  /-- A word that is no instruction, raised by `step`; or an instruction whose option the instance lacks, raised by its
  meaning (30 R120; 93 U1 to U3). Safe. -/
  | illegalEncoding
  /-- A load, store or fetch to an address the platform's map does not answer, or wider than the unit that answers
  (20_memory R85, R77; 93 U5, U12). Raised by the access operations of Machine/Access.lean. Safe (log 24). -/
  | unmappedAccess
  /-- A transfer to, or a fetch at, an address that is not a multiple of 4 (10 R26; 93 U4). Raised by the branch operations
  and by the fetch. Safe. -/
  | misalignedFetch
  /-- A fetch of a word this core has stored to, without the platform's promise (20 R87; 93 U6). Raised by the fetch. Safe. -/
  | staleFetch
  /-- A branch, return, break or `imm` in a delay slot (42 R221; 93 U7). Raised by their operations. Safe. -/
  | branchInDelaySlot
  /-- An MSR write in the slot of `rtid` or `rtbd` (44 R317, R318; 93 U8). Raised by `mts`, `msrset`, `msrclr`. Safe. -/
  | msrWriteInReturnSlot
  /-- `mts` with selector 0 (44 R312; 93 U9). Safe. -/
  | mtsToPC
  /-- `wic` with ICE = 1 or `wdc` with DCE = 1 (44 R319, R320; 93 U10). Safe. -/
  | cacheWriteWhileEnabled
  /-- A configuration the spec does not allow (20 R88; 93 U11). Raised by `step`. Safe. -/
  | configuration
  deriving DecidableEq, Repr

/-- All eight stored bits clear: MSR after reset (10_state R50; the cells lost in Table 1-5 are 0 by the spec's choice,
log 6). -/
def Msr.reset : Msr :=
  { dce := false, dz := false, ice := false, fsl := false, bip := false, c := false, ie := false, be := false }

/-- The machine right after reset (10_state R50, 70 R451, R452), with the instance and launch premises of log 1 to 5, 16,
21 and 38: registers, PC and MSR 0, no lock, no pending transfer, no request; memory with nothing listed; no cache line
written; queues empty. -/
def State.reset : State :=
  { cfg := Config.full
    gpr := Vector.replicate 31 0#32
    pc := 0#32
    msr := Msr.reset
    imm := none
    ds := none
    window := none
    rst := false
    nm := false
    brk := false
    exc := false
    intPin := false
    intLatch := false
    stopped := false
    mem := []
    imem := []
    icache := []
    dcache := []
    inQ := Vector.replicate 8 []
    outQ := Vector.replicate 8 []
    devLog := []
    busLocked := false
    stored := []
    icount := 0
    lastTaken := 0
    draws := 0 }

end Sys2Proof.Machine
end

