-- ==== Sys2Proof/Machine/Flags.lean ====
section
/-! DEFINITION. The MSR as a 32-bit word (10_state R39, R40), carry computation (40_arithmetic R140), the comparison of
R149 and R150, and the conditional test of 42_branch R230. C is the machine's only condition flag (10_state R42). -/

namespace Sys2Proof.Machine

/-- MSR as read: {0} a copy of C, {1:23} zero, {24:31} the stored bits (10_state R39). -/
def Msr.toWord (m : Msr) : Word :=
  BitVec.ofBool m.c ++ 0#23 ++ BitVec.ofBool m.dce ++ BitVec.ofBool m.dz ++ BitVec.ofBool m.ice ++ BitVec.ofBool m.fsl
    ++ BitVec.ofBool m.bip ++ BitVec.ofBool m.c ++ BitVec.ofBool m.ie ++ BitVec.ofBool m.be

/-- MSR as written: {24:31} of the word; {0} and {1:23} are discarded (10_state R40). -/
def Msr.ofWord (w : Word) : Msr :=
  { dce := w.getLsbD 7
    dz := w.getLsbD 6
    ice := w.getLsbD 5
    fsl := w.getLsbD 4
    bip := w.getLsbD 3
    c := w.getLsbD 2
    ie := w.getLsbD 1
    be := w.getLsbD 0 }

/-- What the end of a delay slot does to MSR (42_branch R221). -/
def SlotMsr.apply (a : SlotMsr) (m : Msr) : Msr :=
  match a with
  | .none => m
  | .setIE => { m with ie := true }
  | .clearBIP => { m with bip := false }

/-- `Add(x, y, cin)`: sum and carry out (40_arithmetic R140). -/
def addCarry (x y : Word) (cin : Bool) : Word × Bool :=
  let total := x.toNat + y.toNat + cin.toNat
  (BitVec.ofNat 32 total, decide (2 ^ 32 ≤ total))

/-- Where an addition takes its carry in from: a constant, or MSR.C (40_arithmetic R140 to R158). -/
inductive CarryIn where
  | zero
  | one
  | msrC
  deriving DecidableEq, Repr

/-- The difference b - a with its top bit replaced by the relation (40_arithmetic R149, R150). -/
def compareWord (a b : Word) (greater : Bool) : Word :=
  BitVec.ofBool greater ++ (addCarry b (~~~a) true).1.extractLsb' 0 31

/-- The conditions of the conditional branches (42_branch R230). -/
inductive Cond where
  | eq
  | ne
  | lt
  | le
  | gt
  | ge
  deriving DecidableEq, Repr

/-- The conditional test: a register against zero as a signed integer (42_branch R230). -/
def Cond.holds (k : Cond) (a : Word) : Bool :=
  match k with
  | .eq => decide (a.toInt = 0)
  | .ne => decide (a.toInt ≠ 0)
  | .lt => decide (a.toInt < 0)
  | .le => decide (a.toInt ≤ 0)
  | .gt => decide (0 < a.toInt)
  | .ge => decide (0 ≤ a.toInt)

end Sys2Proof.Machine
end

