-- ==== Sys2Proof/Machine/Ops.lean ====
section
/-! DEFINITION. The shared operations: registers, free values, MSR reads and writes, the end of an instruction, transfers
with and without delay slot, taking an event and returning from one, and reset. -/

namespace Sys2Proof.Machine

/-- The outcome of an operation that answers a value. -/
abbrev Res (α : Type) := Host.Outcome α Fault Refusal

/-- Do one operation after another; a fault or a refusal ends it. -/
def Res.bind {α β : Type} (r : Res α) (f : α → Res β) : Res β :=
  match r with
  | .next a => f a
  | .fault e => .fault e
  | .refused e => .refused e

/-- An instruction of an option of the instance: refused when the option is absent (30_encoding R120, 93 U2). -/
def needs (present : Bool) (o : Res State) : Res State := if present then o else .refused .illegalEncoding

/-! ### General registers (10_state R21) -/

/-- r[n] of the stored registers; r[0] is 0. -/
def readGpr (g : Vector Word 31) (r : RegNum) : Word :=
  if h : r.toNat = 0 then 0#32 else g[r.toNat - 1]'(by have := r.isLt; omega)

/-- r[n] <- v of the stored registers; a write to r[0] is discarded. -/
def writeGpr (g : Vector Word 31) (r : RegNum) (v : Word) : Vector Word 31 :=
  if h : r.toNat = 0 then g else g.set (r.toNat - 1) v (by have := r.isLt; omega)

/-- Read general register r. -/
def State.reg (s : State) (r : RegNum) : Word := readGpr s.gpr r

/-- Write general register r. -/
def State.setReg (s : State) (r : RegNum) (v : Word) : State := { s with gpr := writeGpr s.gpr r v }

/-! ### Free values (93 section 2) -/

/-- Draw a free 32-bit value (log 9). -/
def State.drawWord (s : State) : Word × State := (Config.freeWord s.draws, { s with draws := s.draws + 1 })

/-- Draw a free bit (log 9). -/
def State.drawBit (s : State) : Bool × State := (Config.freeBit s.draws, { s with draws := s.draws + 1 })

/-! ### MSR (10_state R28 to R41, 70 R466) -/

/-- Read one MSR field: inside the write window either the old or the new value, at each read (70 R466). -/
def State.readFlag (s : State) (f : Msr → Bool) : Bool × State :=
  match s.window with
  | none => (f s.msr, s)
  | some old => (if s.drawBit.1 then f old else f s.msr, s.drawBit.2)

/-- Read all of MSR, each field a read of its own (70 R466). -/
def State.readMsr (s : State) : Msr × State :=
  let r1 := s.readFlag Msr.dce
  let r2 := r1.2.readFlag Msr.dz
  let r3 := r2.2.readFlag Msr.ice
  let r4 := r3.2.readFlag Msr.fsl
  let r5 := r4.2.readFlag Msr.bip
  let r6 := r5.2.readFlag Msr.c
  let r7 := r6.2.readFlag Msr.ie
  let r8 := r7.2.readFlag Msr.be
  ({ dce := r1.1, dz := r2.1, ice := r3.1, fsl := r4.1, bip := r5.1, c := r6.1, ie := r7.1, be := r8.1 }, r8.2)

/-- Write C as part of an instruction: no window (70 R466). -/
def State.setC (s : State) (b : Bool) : State := { s with msr := { s.msr with c := b } }

/-- Set DZ (40_arithmetic R161). -/
def State.setDZ (s : State) : State := { s with msr := { s.msr with dz := true } }

/-- Write the FSL error bit (45_fsl R341). -/
def State.setFslError (s : State) (b : Bool) : State := { s with msr := { s.msr with fsl := b } }

/-- Set BIP (44_special R315). -/
def State.setBIP (s : State) : State := { s with msr := { s.msr with bip := true } }

/-! ### The end of an instruction (42_branch R221) -/

/-- Where execution goes on: the next word, or the pending target after a delay slot. -/
def State.nextPc (s : State) : Word :=
  match s.ds with
  | none => s.pc + 4#32
  | some d => d.target

/-- MSR at the end of the instruction: with the pending change of `rtid` or `rtbd` after their slot. -/
def State.slotMsr (s : State) : Msr :=
  match s.ds with
  | none => s.msr
  | some d => d.act.apply s.msr

/-- An instruction that is no transfer completes: the `imm` lock and the write window end with it (10 R43, 70 R466), and a
delay slot ends in its pending transfer. -/
def State.retire (s : State) : State :=
  { s with
    pc := s.nextPc
    msr := s.slotMsr
    imm := none
    ds := none
    window := none
    icount := s.icount + 1
    lastTaken := if s.ds.isSome then s.icount else s.lastTaken }

/-- An instruction whose only result is a register: write it and complete. -/
def State.writeBack (s : State) (rd : RegNum) (v : Word) : Res State := .next (s.setReg rd v).retire

/-- An explicit MSR write completes (`mts`, `msrset`, `msrclr`): the stored value is new at once and the write window opens
for the next instruction, with the value before the write (70 R466). -/
def State.retireMsr (s : State) (m : Msr) : State := { { s with msr := m }.retire with window := some s.msr }

/-- `imm` completes, the only instruction that leaves the lock set (44_special R310). In a delay slot it is refused
(42_branch R221). -/
def State.lockImm (s : State) (v : Imm16) : Res State :=
  if s.ds.isSome then .refused .branchInDelaySlot
  else .next { s.retire with imm := some v }

/-! ### Transfers (42_branch R220, R221) -/

/-- An instruction address is a multiple of 4 (10_state R26). -/
def aligned (a : Word) : Bool := a.extractLsb' 0 2 == 0#2

/-- A transfer without delay slot. In a delay slot, or to a misaligned target, it is refused. -/
def State.jump (s : State) (target : Word) : Res State :=
  if s.ds.isSome then .refused .branchInDelaySlot
  else if aligned target then .next { s.retire with pc := target, lastTaken := s.icount }
  else .refused .misalignedFetch

/-- A transfer with delay slot: the next word executes first, then the target, with `act` done to MSR between them. -/
def State.jumpDelayed (s : State) (target : Word) (act : SlotMsr) : Res State :=
  if s.ds.isSome then .refused .branchInDelaySlot
  else if aligned target then .next { s.retire with ds := some ⟨target, act⟩ }
  else .refused .misalignedFetch

/-- A branch that is not taken; still refused in a delay slot (42_branch R221, 95 X3). -/
def State.notTaken (s : State) : Res State :=
  if s.ds.isSome then .refused .branchInDelaySlot else .next s.retire

/-- A conditional branch (42_branch R230): relative, with or without delay slot when taken. -/
def State.branchIf (s : State) (taken delayed : Bool) (offset : Word) : Res State :=
  if taken then
    if delayed then s.jumpDelayed (s.pc + offset) .none else s.jump (s.pc + offset)
  else s.notTaken

/-! ### Events and returns (60_exceptions R402, R413, R417, R418, R421; 44_special R317, R318) -/

/-- Entry of an interrupt, break or exception: the address of the instruction that was to be executed goes to the link
register, the PC to the vector, one MSR bit changes (on the stored value, 70 R466) and the window closes; nothing else
changes (60 R402). -/
def State.enter (s : State) (link : RegNum) (vector : Word) (change : Msr → Msr) : State :=
  { s.setReg link s.pc with pc := vector, msr := change s.msr, window := none }

/-- Interrupt entry (60_exceptions R413); in edge mode it clears the latch. -/
def State.takeInterrupt (s : State) : State :=
  { s.enter 14#5 0x10#32 (fun m => { m with ie := false }) with
    intLatch := if s.cfg.interruptIsEdge then false else s.intLatch }

/-- `Ext_BRK` entry (60_exceptions R417). -/
def State.takeBreak (s : State) : State :=
  { s.enter 16#5 0x18#32 (fun m => { m with bip := true }) with brk := false }

/-- `Ext_NM_BRK` entry (60_exceptions R418). -/
def State.takeNmBreak (s : State) : State :=
  { s.enter 16#5 0x18#32 (fun m => { m with bip := true }) with nm := false }

/-- Exception entry (60_exceptions R421). -/
def State.takeException (s : State) : State := { s.enter 17#5 0x08#32 id with exc := false }

/-- A return: `rtsd`, `rtid`, `rtbd` go to register plus immediate after their delay slot and differ only in what its end
does to MSR (60_exceptions R425). -/
def State.returnTo (s : State) (base offset : Word) (act : SlotMsr) : Res State := s.jumpDelayed (base + offset) act

/-! ### Reset (70 R450, R451) -/

/-- r1 to r31 after reset: 0, or free values when `GPR_RESET_KNOWN` is false (10_state R22, log 8). -/
def State.resetGpr (s : State) : Vector Word 31 :=
  if s.cfg.gprResetKnown then Vector.replicate 31 0#32 else Vector.ofFn (fun k => Config.freeWord (s.draws + k.val))

/-- The effect of reset on a machine in any state: the core starts a fresh instruction stream at address 0, the buslock is
off (70 R452), and the cache arrays are unknown again (70 R464, 93 U28); memory, FSL queues and the environment's inputs
stay (70 R451, R454). Whether a reset releases a core that the debug host has stopped is not stated (70 R450,
60_exceptions R437); it stays stopped: DESIGN CHOICE, unsafe (log 48). -/
def State.resetCore (s : State) : State :=
  { s with
    gpr := s.resetGpr
    pc := 0#32
    msr := Msr.reset
    imm := none
    ds := none
    window := none
    rst := false
    nm := false
    brk := false
    exc := false
    intLatch := false
    icache := []
    dcache := []
    busLocked := false
    stored := []
    icount := 0
    lastTaken := 0
    draws := if s.cfg.gprResetKnown then s.draws else s.draws + 31 }

/-! ### Outputs -/

/-- `DM_busLock`, the output that BE drives (10_state R38): inside the write window the old or the new level (70 R466). -/
def State.busLock (s : State) : Bool × State := s.readFlag Msr.be

end Sys2Proof.Machine
end

