-- ==== Sys2Proof/Machine/Operands.lean ====
section
/-! DEFINITION. Operand forms (30_encoding R104 to R106): the 32-bit immediate, effective addresses, shift amounts and
shifts, sign extension, and the mask of `msrset` and `msrclr`. -/

namespace Sys2Proof.Machine

/-- `IMM32` (30_encoding R104): the locked upper half followed by the field, or the field sign-extended. -/
def State.imm32 (s : State) (imm : Imm16) : Word :=
  match s.imm with
  | some hi => hi ++ imm
  | none => imm.signExtend 32

/-- `Align(s, n)` (20_memory R67, R68): the low address bits are forced to 0. -/
def Size.align (n : Size) (a : Word) : Word :=
  match n with
  | .byte => a
  | .half => a &&& 0xFFFFFFFE#32
  | .word => a &&& 0xFFFFFFFC#32

/-- The address of an access from the sum of its operands (43_load_store R280). -/
def effective (n : Size) (base offset : Word) : Nat := (n.align (base + offset)).toNat

/-- The amount of a register barrel shift: `b{27:31}` (41_logical R192). -/
def shiftAmount (b : Word) : Nat := (b.extractLsb' 0 5).toNat

/-- `ShiftL` (41_logical R192). -/
def shiftL (x : Word) (n : Nat) : Word := x <<< n

/-- `ShiftRL` (41_logical R192). -/
def shiftRL (x : Word) (n : Nat) : Word := x >>> n

/-- `ShiftRA` (41_logical R192): copies of the top bit enter. -/
def shiftRA (x : Word) (n : Nat) : Word := x.sshiftRight n

/-- One bit right with the given bit entering at the top (41_logical R189 to R191). -/
def shiftInto (top : Bool) (a : Word) : Word := BitVec.ofBool top ++ a.extractLsb' 1 31

/-- The bit shifted out, `a{31}`. -/
def lowBit (a : Word) : Bool := a.getLsbD 0

/-- `sext_32` of the low byte (41_logical R187). -/
def sext8 (a : Word) : Word := (a.extractLsb' 0 8).signExtend 32

/-- `sext_32` of the low halfword (41_logical R188). -/
def sext16 (a : Word) : Word := (a.extractLsb' 0 16).signExtend 32

/-- The mask of `msrset` and `msrclr`: `IMM32` in the printed encoding, the zero-extended field in the `gnu` one
(44_special R313). -/
def State.msrMask (s : State) (imm : Imm16) : Word :=
  match s.cfg.msrEncoding with
  | .printed => s.imm32 imm
  | .gnu => imm.setWidth 32

end Sys2Proof.Machine
end

