-- ==== Sys2Proof/Machine/Arithmetic.lean ====
section
/-! DEFINITION. The arithmetic instructions (40_arithmetic): add, reverse subtract, compare, multiply, divide. -/

namespace Sys2Proof.Machine

/-- The carry in of an addition: MSR.C is read as an MSR field (70 R466). -/
def State.carryIn (s : State) (k : CarryIn) : Bool × State :=
  match k with
  | .zero => (false, s)
  | .one => (true, s)
  | .msrC => s.readFlag Msr.c

/-- `Add(x, y, cin)` into rD; C takes the carry out unless the instruction keeps it (40_arithmetic R140). -/
def State.addInto (s : State) (rd : RegNum) (x y : Word) (k : CarryIn) (keep : Bool) : Res State :=
  let cin := s.carryIn k
  let sum := addCarry x y cin.1
  let t := cin.2.setReg rd sum.1
  .next (if keep then t else t.setC sum.2).retire

/-- The low word of the product (40_arithmetic R159). -/
def mulLow (x y : Word) : Word := BitVec.ofNat 32 (x.toNat * y.toNat)

/-- The signed quotient b / a, rounded toward zero (40_arithmetic R161; PRESUMED, log 10). -/
def quotient (b a : Word) : Word := BitVec.ofInt 32 (Int.tdiv b.toInt a.toInt)

/-- The unsigned quotient b / a (40_arithmetic R162). -/
def quotientU (b a : Word) : Word := BitVec.ofNat 32 (b.toNat / a.toNat)

/-! ### Add and reverse subtract, register forms -/

/-- R141. -/
def execAdd (rd ra rb : RegNum) (s : State) : Res State := s.addInto rd (s.reg ra) (s.reg rb) .zero false

/-- R142. -/
def execAddc (rd ra rb : RegNum) (s : State) : Res State := s.addInto rd (s.reg ra) (s.reg rb) .msrC false

/-- R143. -/
def execAddk (rd ra rb : RegNum) (s : State) : Res State := s.addInto rd (s.reg ra) (s.reg rb) .zero true

/-- R144. -/
def execAddkc (rd ra rb : RegNum) (s : State) : Res State := s.addInto rd (s.reg ra) (s.reg rb) .msrC true

/-- R145: rB - rA. -/
def execRsub (rd ra rb : RegNum) (s : State) : Res State := s.addInto rd (s.reg rb) (~~~s.reg ra) .one false

/-- R146. -/
def execRsubc (rd ra rb : RegNum) (s : State) : Res State := s.addInto rd (s.reg rb) (~~~s.reg ra) .msrC false

/-- R147. -/
def execRsubk (rd ra rb : RegNum) (s : State) : Res State := s.addInto rd (s.reg rb) (~~~s.reg ra) .one true

/-- R148. -/
def execRsubkc (rd ra rb : RegNum) (s : State) : Res State := s.addInto rd (s.reg rb) (~~~s.reg ra) .msrC true

/-! ### Compare -/

/-- R149: signed. -/
def execCmp (rd ra rb : RegNum) (s : State) : Res State :=
  s.writeBack rd (compareWord (s.reg ra) (s.reg rb) (decide ((s.reg rb).toInt < (s.reg ra).toInt)))

/-- R150: unsigned. -/
def execCmpu (rd ra rb : RegNum) (s : State) : Res State :=
  s.writeBack rd (compareWord (s.reg ra) (s.reg rb) (decide ((s.reg rb).toNat < (s.reg ra).toNat)))

/-! ### Add and reverse subtract, immediate forms -/

/-- R151. -/
def execAddi (rd ra : RegNum) (imm : Imm16) (s : State) : Res State := s.addInto rd (s.reg ra) (s.imm32 imm) .zero false

/-- R152. -/
def execAddic (rd ra : RegNum) (imm : Imm16) (s : State) : Res State := s.addInto rd (s.reg ra) (s.imm32 imm) .msrC false

/-- R153. -/
def execAddik (rd ra : RegNum) (imm : Imm16) (s : State) : Res State := s.addInto rd (s.reg ra) (s.imm32 imm) .zero true

/-- R154. -/
def execAddikc (rd ra : RegNum) (imm : Imm16) (s : State) : Res State := s.addInto rd (s.reg ra) (s.imm32 imm) .msrC true

/-- R155: IMM32 - rA. -/
def execRsubi (rd ra : RegNum) (imm : Imm16) (s : State) : Res State :=
  s.addInto rd (s.imm32 imm) (~~~s.reg ra) .one false

/-- R156. -/
def execRsubic (rd ra : RegNum) (imm : Imm16) (s : State) : Res State :=
  s.addInto rd (s.imm32 imm) (~~~s.reg ra) .msrC false

/-- R157. -/
def execRsubik (rd ra : RegNum) (imm : Imm16) (s : State) : Res State :=
  s.addInto rd (s.imm32 imm) (~~~s.reg ra) .one true

/-- R158. -/
def execRsubikc (rd ra : RegNum) (imm : Imm16) (s : State) : Res State :=
  s.addInto rd (s.imm32 imm) (~~~s.reg ra) .msrC true

/-! ### Multiply (option `HAS_MUL`, log 37) -/

/-- R159. -/
def execMul (rd ra rb : RegNum) (s : State) : Res State :=
  needs s.cfg.hasMul (s.writeBack rd (mulLow (s.reg ra) (s.reg rb)))

/-- R160. -/
def execMuli (rd ra : RegNum) (imm : Imm16) (s : State) : Res State :=
  needs s.cfg.hasMul (s.writeBack rd (mulLow (s.reg ra) (s.imm32 imm)))

/-! ### Divide (option `C_USE_DIV`) -/

/-- A zero divisor: rD is 0 and DZ is set (R161, R162). -/
def State.divideByZero (s : State) (rd : RegNum) : Res State := s.setDZ.writeBack rd 0#32

/-- R161: rA is the divisor; the quotient of -2^31 by -1 is a free value (93 U20, log 11). -/
def execIdiv (rd ra rb : RegNum) (s : State) : Res State :=
  needs s.cfg.useDiv
    (if s.reg ra = 0#32 then s.divideByZero rd
      else if s.reg rb = 0x80000000#32 ∧ s.reg ra = 0xFFFFFFFF#32 then s.drawWord.2.writeBack rd s.drawWord.1
      else s.writeBack rd (quotient (s.reg rb) (s.reg ra)))

/-- R162. -/
def execIdivu (rd ra rb : RegNum) (s : State) : Res State :=
  needs s.cfg.useDiv
    (if s.reg ra = 0#32 then s.divideByZero rd else s.writeBack rd (quotientU (s.reg rb) (s.reg ra)))

end Sys2Proof.Machine
end

