-- ==== Sys2Proof/Machine/Branch.lean ====
section
/-! DEFINITION. The branch instructions and return from subroutine (42_branch). The offset or target is read before the link
is written (R220); the link is the address of the branch itself. -/

namespace Sys2Proof.Machine

/-! ### Unconditional, register forms -/

/-- R222. -/
def execBr (rb : RegNum) (s : State) : Res State := s.jump (s.pc + s.reg rb)

/-- R223. -/
def execBra (rb : RegNum) (s : State) : Res State := s.jump (s.reg rb)

/-- R224. -/
def execBrd (rb : RegNum) (s : State) : Res State := s.jumpDelayed (s.pc + s.reg rb) .none

/-- R225. -/
def execBrad (rb : RegNum) (s : State) : Res State := s.jumpDelayed (s.reg rb) .none

/-- R226. -/
def execBrld (rd rb : RegNum) (s : State) : Res State := (s.setReg rd s.pc).jumpDelayed (s.pc + s.reg rb) .none

/-- R227. -/
def execBrald (rd rb : RegNum) (s : State) : Res State := (s.setReg rd s.pc).jumpDelayed (s.reg rb) .none

/-! ### Unconditional, immediate forms -/

/-- R243. -/
def execBri (imm : Imm16) (s : State) : Res State := s.jump (s.pc + s.imm32 imm)

/-- R244. -/
def execBrai (imm : Imm16) (s : State) : Res State := s.jump (s.imm32 imm)

/-- R245. -/
def execBrid (imm : Imm16) (s : State) : Res State := s.jumpDelayed (s.pc + s.imm32 imm) .none

/-- R246. -/
def execBraid (imm : Imm16) (s : State) : Res State := s.jumpDelayed (s.imm32 imm) .none

/-- R247. -/
def execBrlid (rd : RegNum) (imm : Imm16) (s : State) : Res State :=
  (s.setReg rd s.pc).jumpDelayed (s.pc + s.imm32 imm) .none

/-- R248. -/
def execBralid (rd : RegNum) (imm : Imm16) (s : State) : Res State :=
  (s.setReg rd s.pc).jumpDelayed (s.imm32 imm) .none

/-! ### Conditional, register offset (R230) -/

/-- R231. -/
def execBeq (ra rb : RegNum) (s : State) : Res State := s.branchIf (Cond.eq.holds (s.reg ra)) false (s.reg rb)

/-- R232. -/
def execBne (ra rb : RegNum) (s : State) : Res State := s.branchIf (Cond.ne.holds (s.reg ra)) false (s.reg rb)

/-- R233. -/
def execBlt (ra rb : RegNum) (s : State) : Res State := s.branchIf (Cond.lt.holds (s.reg ra)) false (s.reg rb)

/-- R234. -/
def execBle (ra rb : RegNum) (s : State) : Res State := s.branchIf (Cond.le.holds (s.reg ra)) false (s.reg rb)

/-- R235. -/
def execBgt (ra rb : RegNum) (s : State) : Res State := s.branchIf (Cond.gt.holds (s.reg ra)) false (s.reg rb)

/-- R236. -/
def execBge (ra rb : RegNum) (s : State) : Res State := s.branchIf (Cond.ge.holds (s.reg ra)) false (s.reg rb)

/-- R237. -/
def execBeqd (ra rb : RegNum) (s : State) : Res State := s.branchIf (Cond.eq.holds (s.reg ra)) true (s.reg rb)

/-- R238. -/
def execBned (ra rb : RegNum) (s : State) : Res State := s.branchIf (Cond.ne.holds (s.reg ra)) true (s.reg rb)

/-- R239. -/
def execBltd (ra rb : RegNum) (s : State) : Res State := s.branchIf (Cond.lt.holds (s.reg ra)) true (s.reg rb)

/-- R240. -/
def execBled (ra rb : RegNum) (s : State) : Res State := s.branchIf (Cond.le.holds (s.reg ra)) true (s.reg rb)

/-- R241. -/
def execBgtd (ra rb : RegNum) (s : State) : Res State := s.branchIf (Cond.gt.holds (s.reg ra)) true (s.reg rb)

/-- R242. -/
def execBged (ra rb : RegNum) (s : State) : Res State := s.branchIf (Cond.ge.holds (s.reg ra)) true (s.reg rb)

/-! ### Conditional, immediate offset (R230) -/

/-- R249. -/
def execBeqi (ra : RegNum) (imm : Imm16) (s : State) : Res State :=
  s.branchIf (Cond.eq.holds (s.reg ra)) false (s.imm32 imm)

/-- R250. -/
def execBnei (ra : RegNum) (imm : Imm16) (s : State) : Res State :=
  s.branchIf (Cond.ne.holds (s.reg ra)) false (s.imm32 imm)

/-- R251. -/
def execBlti (ra : RegNum) (imm : Imm16) (s : State) : Res State :=
  s.branchIf (Cond.lt.holds (s.reg ra)) false (s.imm32 imm)

/-- R252. -/
def execBlei (ra : RegNum) (imm : Imm16) (s : State) : Res State :=
  s.branchIf (Cond.le.holds (s.reg ra)) false (s.imm32 imm)

/-- R253. -/
def execBgti (ra : RegNum) (imm : Imm16) (s : State) : Res State :=
  s.branchIf (Cond.gt.holds (s.reg ra)) false (s.imm32 imm)

/-- R254. -/
def execBgei (ra : RegNum) (imm : Imm16) (s : State) : Res State :=
  s.branchIf (Cond.ge.holds (s.reg ra)) false (s.imm32 imm)

/-- R255. -/
def execBeqid (ra : RegNum) (imm : Imm16) (s : State) : Res State :=
  s.branchIf (Cond.eq.holds (s.reg ra)) true (s.imm32 imm)

/-- R256. -/
def execBneid (ra : RegNum) (imm : Imm16) (s : State) : Res State :=
  s.branchIf (Cond.ne.holds (s.reg ra)) true (s.imm32 imm)

/-- R257. -/
def execBltid (ra : RegNum) (imm : Imm16) (s : State) : Res State :=
  s.branchIf (Cond.lt.holds (s.reg ra)) true (s.imm32 imm)

/-- R258. -/
def execBleid (ra : RegNum) (imm : Imm16) (s : State) : Res State :=
  s.branchIf (Cond.le.holds (s.reg ra)) true (s.imm32 imm)

/-- R259. -/
def execBgtid (ra : RegNum) (imm : Imm16) (s : State) : Res State :=
  s.branchIf (Cond.gt.holds (s.reg ra)) true (s.imm32 imm)

/-- R260. -/
def execBgeid (ra : RegNum) (imm : Imm16) (s : State) : Res State :=
  s.branchIf (Cond.ge.holds (s.reg ra)) true (s.imm32 imm)

/-- R261. -/
def execRtsd (ra : RegNum) (imm : Imm16) (s : State) : Res State := s.returnTo (s.reg ra) (s.imm32 imm) .none

end Sys2Proof.Machine
end

