-- ==== Sys2Proof/Machine/Fsl.lean ====
section
/-! DEFINITION. The Fast Simplex Link instructions (45_fsl). `control` is the c bit of the instruction: the control bit a
get expects and a put sends. -/

namespace Sys2Proof.Machine

/-- The channel is implemented (45_fsl R340, 30_encoding R120). -/
def State.hasChannel (s : State) (ch : Channel) : Bool := decide (ch.toNat < s.cfg.fslLinks)

/-- `InQ[k]`. -/
def State.inQueue (s : State) (ch : Channel) : List FslItem := s.inQ[ch.toNat]

/-- `OutQ[k]`. -/
def State.outQueue (s : State) (ch : Channel) : List FslItem := s.outQ[ch.toNat]

/-- `Full(k)`; at or above the depth, which is the same in every state a run reaches (45_fsl R340, log 21). -/
def State.outFull (s : State) (ch : Channel) : Bool := decide (s.cfg.fslDepth ≤ (s.outQueue ch).length)

/-- Pop an item: the data goes to rD, a control bit that is not the expected one sets the error bit and a match clears it
(45_fsl R341 to R344). -/
def State.popInto (s : State) (rd : RegNum) (ch : Channel) (control : Bool) (item : FslItem) (rest : List FslItem) :
    State :=
  ({ s with inQ := s.inQ.set ch.toNat rest }.setReg rd item.data).setFslError (item.control != control)

/-- Append an item to an output queue (45_fsl R345 to R348). -/
def State.push (s : State) (ra : RegNum) (ch : Channel) (control : Bool) : State :=
  { s with outQ := s.outQ.set ch.toNat (s.outQueue ch ++ [⟨s.reg ra, control⟩]) }

/-- Blocking get: on an empty channel the core waits, its state unchanged (45_fsl R350, log 20). -/
def State.getBlocking (s : State) (rd : RegNum) (ch : Channel) (control : Bool) : Res State :=
  needs (s.hasChannel ch)
    (match s.inQueue ch with
    | [] => .next s
    | item :: rest => .next (s.popInto rd ch control item rest).retire)

/-- Non-blocking get: C tells whether nothing was there; then rD and the error bit are free values (93 U21, U22, log 12). -/
def State.getNonBlocking (s : State) (rd : RegNum) (ch : Channel) (control : Bool) : Res State :=
  needs (s.hasChannel ch)
    (match s.inQueue ch with
    | [] =>
      let v := s.drawWord
      let b := v.2.drawBit
      .next (((b.2.setReg rd v.1).setFslError b.1).setC true).retire
    | item :: rest => .next ((s.popInto rd ch control item rest).setC false).retire)

/-- Blocking put: on a full channel the core waits, its state unchanged (45_fsl R350, log 20). -/
def State.putBlocking (s : State) (ra : RegNum) (ch : Channel) (control : Bool) : Res State :=
  needs (s.hasChannel ch) (.next (if s.outFull ch then s else (s.push ra ch control).retire))

/-- Non-blocking put: C tells whether the channel was full (45_fsl R349). -/
def State.putNonBlocking (s : State) (ra : RegNum) (ch : Channel) (control : Bool) : Res State :=
  needs (s.hasChannel ch)
    (.next (if s.outFull ch then (s.setC true).retire else ((s.push ra ch control).setC false).retire))

/-- R341. -/
def execGet (rd : RegNum) (ch : Channel) (s : State) : Res State := s.getBlocking rd ch false

/-- R342. -/
def execNget (rd : RegNum) (ch : Channel) (s : State) : Res State := s.getNonBlocking rd ch false

/-- R343. -/
def execCget (rd : RegNum) (ch : Channel) (s : State) : Res State := s.getBlocking rd ch true

/-- R344. -/
def execNcget (rd : RegNum) (ch : Channel) (s : State) : Res State := s.getNonBlocking rd ch true

/-- R345. -/
def execPut (ra : RegNum) (ch : Channel) (s : State) : Res State := s.putBlocking ra ch false

/-- R346. -/
def execNput (ra : RegNum) (ch : Channel) (s : State) : Res State := s.putNonBlocking ra ch false

/-- R347. -/
def execCput (ra : RegNum) (ch : Channel) (s : State) : Res State := s.putBlocking ra ch true

/-- R348. -/
def execNcput (ra : RegNum) (ch : Channel) (s : State) : Res State := s.putNonBlocking ra ch true

end Sys2Proof.Machine
end

