-- ==== Sys2Proof/Machine/Access.lean ====
section
/-! DEFINITION. Memory accesses (20_memory): the platform's map, device transfers, the caches, loads, stores and the
instruction fetch. -/

namespace Sys2Proof.Machine

/-! ### The platform's map (20_memory R77, R83, R85) -/

/-- The region has the address. -/
def Region.covers (r : Region) (a : Nat) : Bool := decide (r.base ≤ a) && decide (a ≤ r.last)

/-- The first region of a map that has the address. -/
def regionAt (m : List Region) (a : Nat) : Option Region := m.find? (fun r => Region.covers r a)

/-- The region that answers a data access of this size: one of the data side, wide enough (20_memory R77, R85). -/
def Config.dataRegion (c : Config) (n : Size) (a : Nat) : Option Region :=
  (regionAt c.dataMap a).filter (fun r => decide (n.bytes ≤ r.width))

/-- The region that answers an instruction fetch: one of the instruction side, wide enough. -/
def Config.instrRegion (c : Config) (a : Nat) : Option Region :=
  (regionAt c.instrMap a).filter (fun r => decide (4 ≤ r.width))

/-- `SharedID(addr)`: the address names the same storage on both sides (20_memory R83). -/
def Config.sharedID (c : Config) (a : Nat) : Bool := c.shared.any (fun p => decide (p.base ≤ a) && decide (a ≤ p.last))

/-! ### Cache geometry (20_memory R88, R89) -/

/-- L, the number of cache-line bits. -/
def CacheConfig.lineBits (c : CacheConfig) : Nat := Nat.log2 c.byteSize - 2

/-- `line(addr)`. -/
def CacheConfig.lineOf (c : CacheConfig) (a : Nat) : Nat := a / 4 % 2 ^ CacheConfig.lineBits c

/-- `tag(addr)`. -/
def CacheConfig.tagOf (c : CacheConfig) (a : Nat) : Nat := a / 2 ^ (CacheConfig.lineBits c + 2) % 2 ^ c.tagBits

/-- The cache is present and the address in its cacheable window, both ends included (20_memory R89). -/
def CacheConfig.cacheable (c : CacheConfig) (a : Nat) : Bool :=
  c.use && decide (c.base ≤ a) && decide (a ≤ c.high)

/-- The line `wic`, `wdc` and the debug logic write: tag of the address, valid and lock from its two low bits, the data
(20_memory R91, 44_special R319, R320). -/
def writtenLine (c : CacheConfig) (a data : Word) : CacheLine :=
  { tag := CacheConfig.tagOf c a.toNat, valid := a.getLsbD 1, lock := a.getLsbD 0, data := data }

/-- Write the instruction-cache line of an address (20_memory R96). -/
def State.putICache (s : State) (a data : Word) : State :=
  { s with icache := Assoc.put s.icache (CacheConfig.lineOf s.cfg.icache a.toNat) (writtenLine s.cfg.icache a data) }

/-- Write the data-cache line of an address (20_memory R96). -/
def State.putDCache (s : State) (a data : Word) : State :=
  { s with dcache := Assoc.put s.dcache (CacheConfig.lineOf s.cfg.dcache a.toNat) (writtenLine s.cfg.dcache a data) }

/-- The line holds the word of the address (20_memory R90). -/
def CacheLine.hits (l : CacheLine) (tag : Nat) : Bool := l.valid && l.tag == tag

/-- The addressed byte, halfword or word of a word of memory, zero-extended (20_memory R92, R62). -/
def partOf (n : Size) (a : Nat) (w : Word) : Word :=
  match n with
  | .byte => wordOfBytes 0#8 0#8 0#8 (byteOfWord w (a % 4))
  | .half => wordOfBytes 0#8 0#8 (byteOfWord w (a % 4)) (byteOfWord w (a % 4 + 1))
  | .word => w

/-- Byte k of a word after a store of the low bytes of v at offset a mod 4. -/
def mergedByte (n : Size) (a : Nat) (old v : Word) (k : Nat) : Byte :=
  if a % 4 ≤ k ∧ k < a % 4 + n.bytes then byteOfWord v (4 - n.bytes + (k - a % 4)) else byteOfWord old k

/-- The cached word with the stored bytes merged in (20_memory R93). -/
def mergePart (n : Size) (a : Nat) (old v : Word) : Word :=
  wordOfBytes (mergedByte n a old v 0) (mergedByte n a old v 1) (mergedByte n a old v 2) (mergedByte n a old v 3)

/-! ### Configurations the spec allows (20_memory R88, 00_scope R6, 55_bus_interfaces R381) -/

/-- The cacheable window lies in one block of 2^(T+L+2) bytes (20_memory R88), and the parameters are in range. -/
def CacheConfig.valid (c : CacheConfig) : Bool :=
  !c.use ||
    (decide (c.tagBits ≤ 24)
      && [512, 1024, 2048, 4096, 8192, 16384, 32768, 65536].contains c.byteSize
      && decide (c.base < 2 ^ 32) && decide (c.high < 2 ^ 32)
      && c.base / 2 ^ (c.tagBits + CacheConfig.lineBits c + 2) == c.high / 2 ^ (c.tagBits + CacheConfig.lineBits c + 2))

/-- A map entry holds whole words below 2^32 and has a width the buses have (20_memory R77). -/
def Region.valid (r : Region) : Bool :=
  r.base % 4 == 0 && r.last % 4 == 3 && decide (r.last < 2 ^ 32) && [1, 2, 4].contains r.width

/-- A shared range holds whole words below 2^32. -/
def Span.valid (p : Span) : Bool := p.base % 4 == 0 && p.last % 4 == 3 && decide (p.last < 2 ^ 32)

/-- The configuration is one the spec allows (log 39). -/
def Config.valid (c : Config) : Bool :=
  c.dOpb && (c.iOpb || c.iLmb) && decide (c.fslLinks ≤ 8) && decide (0 < c.fslDepth) && decide (0 < c.fetchAhead)
    && CacheConfig.valid c.icache && CacheConfig.valid c.dcache && c.dataMap.all Region.valid
    && c.instrMap.all Region.valid && c.shared.all Span.valid

/-! ### The data bus (20_memory R70, R71, R76) -/

/-- Keep the low 8n bits of a word. -/
def lowPart (n : Size) (w : Word) : Word :=
  match n with
  | .byte => w &&& 0xFF#32
  | .half => w &&& 0xFFFF#32
  | .word => w

/-- A transfer on the data bus drives the buslock output with BE (10_state R38, 20_memory R80; 70 R466 'BE on the bus'). -/
def State.transfer (s : State) : State := { s.busLock.2 with busLocked := s.busLock.1 }

/-- A transfer to a device, recorded with the level of the buslock output (20_memory R76). -/
def State.deviceTransfer (s : State) (n : Size) (a : Nat) (v : Option Word) : State :=
  { s.transfer with devLog := ⟨a, n.bytes, v, s.transfer.busLocked⟩ :: s.devLog }

/-- A read on the data bus: storage, or a device whose answer is a free value (log 25). -/
def State.busRead (s : State) (n : Size) (a : Nat) : Res (Word × State) :=
  match Config.dataRegion s.cfg n a with
  | none => .refused .unmappedAccess
  | some r =>
    if r.kind = .device then
      let d := (s.deviceTransfer n a none).drawWord
      .next (lowPart n d.1, d.2)
    else .next (Memory.readSize s.mem n a, s.transfer)

/-- The word with the address was stored to; only storage the fetch shares counts (20_memory R83, R87). -/
def State.markStored (s : State) (a : Nat) : State :=
  if Config.sharedID s.cfg a then { s with stored := Assoc.put s.stored (a / 4 * 4) s.icount } else s

/-- A write on the data bus. A store that a device answers writes no storage and does not count as a store to the word for
20_memory R87: DESIGN CHOICE (log 28). -/
def State.busWrite (s : State) (n : Size) (a : Nat) (v : Word) : Res State :=
  match Config.dataRegion s.cfg n a with
  | none => .refused .unmappedAccess
  | some r =>
    if r.kind = .device then .next (s.deviceTransfer n a (some (lowPart n v)))
    else .next ({ s.transfer with mem := Memory.writeSize s.mem n a v }.markStored a)

/-! ### Loads and stores with the data cache (20_memory R92, R93, R95) -/

/-- Fill the data-cache line of an address with a word. -/
def State.fillDLine (s : State) (a : Nat) (w : Word) : State :=
  { s with
    dcache := Assoc.put s.dcache (CacheConfig.lineOf s.cfg.dcache a)
      ⟨CacheConfig.tagOf s.cfg.dcache a, true, false, w⟩ }

/-- The word that a load miss fills the line with, where v is what the load answers (20_memory R92): the word of memory, or
from a device v with a free value for the word's other bytes, which the load did not ask for: DESIGN CHOICE (log 27). Memory
of width 1 or 2 gives the whole word too, which no transfer to that unit could read at once (20_memory R77): DESIGN CHOICE
(log 52). -/
def State.refillWord (s : State) (n : Size) (a : Nat) (v : Word) : Word × State :=
  if (Config.dataRegion s.cfg n a).any (fun r => r.kind == .device) then
    (mergePart n a s.drawWord.1 v, s.drawWord.2)
  else (Memory.readWord s.mem (a / 4 * 4), s)

/-- After a load miss that answered v: an unlocked line may or may not be filled (20_memory R92, 93 U25). -/
def State.mayRefill (s : State) (n : Size) (a : Nat) (v : Word) (l : CacheLine) : State :=
  if l.lock then s
  else
    let b := s.drawBit
    if b.1 then
      let w := b.2.refillWord n a v
      w.2.fillDLine a w.1
    else b.2

/-- A load through an enabled data cache: hit, miss, or a free value from an unwritten line (20_memory R92, R95;
43_load_store R280). A hit makes no bus access, so it answers also where the map has nothing, or nothing wide enough, at the
address, which R85 refuses for an access that is made: DESIGN CHOICE (log 51). -/
def State.cachedRead (s : State) (n : Size) (a : Nat) : Res (Word × State) :=
  match Assoc.find s.dcache (CacheConfig.lineOf s.cfg.dcache a) with
  | none => (s.busRead n a).bind fun r => .next (lowPart n r.2.drawWord.1, r.2.drawWord.2)
  | some l =>
    if l.hits (CacheConfig.tagOf s.cfg.dcache a) then .next (partOf n a l.data, s)
    else (s.busRead n a).bind fun r => .next (r.1, r.2.mayRefill n a r.1 l)

/-- `MemRead` (20_memory R70, R92), zero-extended. -/
def State.memRead (s : State) (n : Size) (a : Nat) : Res (Word × State) :=
  if CacheConfig.cacheable s.cfg.dcache a then
    let dce := s.readFlag Msr.dce
    if dce.1 then dce.2.cachedRead n a else dce.2.busRead n a
  else s.busRead n a

/-- What a store does to an enabled data cache (20_memory R93): a hit merges the stored bytes; a word store that misses
an unlocked line may allocate it; an unwritten line stays unwritten (log 26). -/
def State.cacheStore (s : State) (n : Size) (a : Nat) (v : Word) : State :=
  match Assoc.find s.dcache (CacheConfig.lineOf s.cfg.dcache a) with
  | none => s
  | some l =>
    if l.hits (CacheConfig.tagOf s.cfg.dcache a) then
      { s with
        dcache := Assoc.put s.dcache (CacheConfig.lineOf s.cfg.dcache a) { l with data := mergePart n a l.data v } }
    else if n = .word ∧ l.lock = false then
      let b := s.drawBit
      if b.1 then b.2.fillDLine a v else b.2
    else s

/-- `MemWrite` (20_memory R71, R93): memory is always written. -/
def State.memWrite (s : State) (n : Size) (a : Nat) (v : Word) : Res State :=
  (s.busWrite n a v).bind fun t =>
    if CacheConfig.cacheable t.cfg.dcache a then
      let dce := t.readFlag Msr.dce
      .next (if dce.1 then dce.2.cacheStore n a v else dce.2)
    else .next t

/-- A load: the value goes to rD, zero-extended (43_load_store R280). -/
def State.load (s : State) (n : Size) (rd : RegNum) (base offset : Word) : Res State :=
  (s.memRead n (effective n base offset)).bind fun r => .next (r.2.setReg rd r.1).retire

/-- A store of the low 8n bits of rD (43_load_store R280, R281). -/
def State.store (s : State) (n : Size) (rd : RegNum) (base offset : Word) : Res State :=
  (s.memWrite n (effective n base offset) (s.reg rd)).bind fun t => .next t.retire

/-! ### Instruction fetch (20_memory R72, R87, R90) -/

/-- The storage the instruction side reads at an address: `M` where it is shared, else `M_I` (20_memory R83). -/
def State.instrStorage (s : State) (a : Nat) : Memory := if Config.sharedID s.cfg a then s.mem else s.imem

/-- A read on the instruction bus: storage, or a device whose answer is a free value (20_memory R76, log 25). -/
def State.instrRead (s : State) (a : Nat) : Res (Word × State) :=
  match Config.instrRegion s.cfg a with
  | none => .refused .unmappedAccess
  | some r => if r.kind = .device then .next s.drawWord else .next (Memory.readWord (s.instrStorage a) a, s)

/-- The instruction cache may serve the address: present, in the window, and ICE set before or after an open write. -/
def State.icacheMayServe (s : State) (a : Nat) : Bool :=
  CacheConfig.cacheable s.cfg.icache a && (s.msr.ice || s.window.any Msr.ice)

/-- The platform's promise holds for a word stored when `icount` was n: coherent storage, no cache in between, at least
`FETCH_AHEAD` instructions and one taken transfer since (20_memory R87). -/
def State.promised (s : State) (a n : Nat) : Bool :=
  s.cfg.ifetchCoherent && !s.icacheMayServe a && decide (s.cfg.fetchAhead ≤ s.icount - n) && decide (n < s.lastTaken)

/-- The word at the address was stored to since reset and no promise covers the fetch (20_memory R87). -/
def State.stale (s : State) (a : Nat) : Bool :=
  match Assoc.find s.stored (a / 4 * 4) with
  | none => false
  | some n => !s.promised a n

/-- Fill the instruction-cache line of an address with a word. -/
def State.fillILine (s : State) (a : Nat) (w : Word) : State :=
  { s with
    icache := Assoc.put s.icache (CacheConfig.lineOf s.cfg.icache a)
      ⟨CacheConfig.tagOf s.cfg.icache a, true, false, w⟩ }

/-- A fetch through an enabled instruction cache (20_memory R90): hit; miss, which fills an unlocked line; or a free value
from an unwritten line (R95). A hit answers also where the map has nothing at the address (R85): DESIGN CHOICE (log 51). -/
def State.cachedFetch (s : State) (a : Nat) : Res (Word × State) :=
  match Assoc.find s.icache (CacheConfig.lineOf s.cfg.icache a) with
  | none => (s.instrRead a).bind fun r => .next r.2.drawWord
  | some l =>
    if l.hits (CacheConfig.tagOf s.cfg.icache a) then .next (l.data, s)
    else
      (s.instrRead a).bind fun r => .next (r.1, if l.lock then r.2 else r.2.fillILine a r.1)

/-- `FetchWord` (20_memory R72, R90) at the PC. -/
def State.fetchWord (s : State) : Res (Word × State) :=
  if aligned s.pc = false then .refused .misalignedFetch
  else if s.stale s.pc.toNat then .refused .staleFetch
  else if CacheConfig.cacheable s.cfg.icache s.pc.toNat then
    let ice := s.readFlag Msr.ice
    if ice.1 then ice.2.cachedFetch s.pc.toNat
    else ice.2.instrRead s.pc.toNat
  else s.instrRead s.pc.toNat

end Sys2Proof.Machine
end

