-- ==== Sys2Proof/Machine/LoadStore.lean ====
section
/-! DEFINITION. Loads and stores (43_load_store): zero-extending loads, and stores whose data register is rD (R281). -/

namespace Sys2Proof.Machine

/-- R282. -/
def execLbu (rd ra rb : RegNum) (s : State) : Res State := s.load .byte rd (s.reg ra) (s.reg rb)

/-- R283. -/
def execLhu (rd ra rb : RegNum) (s : State) : Res State := s.load .half rd (s.reg ra) (s.reg rb)

/-- R284. -/
def execLw (rd ra rb : RegNum) (s : State) : Res State := s.load .word rd (s.reg ra) (s.reg rb)

/-- R285. -/
def execSb (rd ra rb : RegNum) (s : State) : Res State := s.store .byte rd (s.reg ra) (s.reg rb)

/-- R286. -/
def execSh (rd ra rb : RegNum) (s : State) : Res State := s.store .half rd (s.reg ra) (s.reg rb)

/-- R287. -/
def execSw (rd ra rb : RegNum) (s : State) : Res State := s.store .word rd (s.reg ra) (s.reg rb)

/-- R288. -/
def execLbui (rd ra : RegNum) (imm : Imm16) (s : State) : Res State := s.load .byte rd (s.reg ra) (s.imm32 imm)

/-- R289. -/
def execLhui (rd ra : RegNum) (imm : Imm16) (s : State) : Res State := s.load .half rd (s.reg ra) (s.imm32 imm)

/-- R290. -/
def execLwi (rd ra : RegNum) (imm : Imm16) (s : State) : Res State := s.load .word rd (s.reg ra) (s.imm32 imm)

/-- R291. -/
def execSbi (rd ra : RegNum) (imm : Imm16) (s : State) : Res State := s.store .byte rd (s.reg ra) (s.imm32 imm)

/-- R292. -/
def execShi (rd ra : RegNum) (imm : Imm16) (s : State) : Res State := s.store .half rd (s.reg ra) (s.imm32 imm)

/-- R293. -/
def execSwi (rd ra : RegNum) (imm : Imm16) (s : State) : Res State := s.store .word rd (s.reg ra) (s.imm32 imm)

end Sys2Proof.Machine
end

