-- ==== Sys2Proof/Machine/Logical.lean ====
section
/-! DEFINITION. The logical, sign-extend and shift instructions (41_logical). Only the single-bit shifts touch C (R180). -/

namespace Sys2Proof.Machine

/-- A single-bit right shift: the top bit enters, the low bit goes to C (41_logical R189 to R191). -/
def State.shiftOne (s : State) (rd : RegNum) (top : Bool) (a : Word) : Res State :=
  .next ((s.setReg rd (shiftInto top a)).setC (lowBit a)).retire

/-- R181. -/
def execOr (rd ra rb : RegNum) (s : State) : Res State := s.writeBack rd (s.reg ra ||| s.reg rb)

/-- R182. -/
def execAnd (rd ra rb : RegNum) (s : State) : Res State := s.writeBack rd (s.reg ra &&& s.reg rb)

/-- R183. -/
def execXor (rd ra rb : RegNum) (s : State) : Res State := s.writeBack rd (s.reg ra ^^^ s.reg rb)

/-- R184. -/
def execAndn (rd ra rb : RegNum) (s : State) : Res State := s.writeBack rd (s.reg ra &&& ~~~s.reg rb)

/-- R185. -/
def execOri (rd ra : RegNum) (imm : Imm16) (s : State) : Res State := s.writeBack rd (s.reg ra ||| s.imm32 imm)

/-- R186. -/
def execAndi (rd ra : RegNum) (imm : Imm16) (s : State) : Res State := s.writeBack rd (s.reg ra &&& s.imm32 imm)

/-- R199: the immediate is sign-extended (90_conflicts C4). -/
def execXori (rd ra : RegNum) (imm : Imm16) (s : State) : Res State := s.writeBack rd (s.reg ra ^^^ s.imm32 imm)

/-- R200. -/
def execAndni (rd ra : RegNum) (imm : Imm16) (s : State) : Res State := s.writeBack rd (s.reg ra &&& ~~~s.imm32 imm)

/-- R187. -/
def execSext8 (rd ra : RegNum) (s : State) : Res State := s.writeBack rd (sext8 (s.reg ra))

/-- R188. -/
def execSext16 (rd ra : RegNum) (s : State) : Res State := s.writeBack rd (sext16 (s.reg ra))

/-- R189: the sign bit enters. -/
def execSra (rd ra : RegNum) (s : State) : Res State := s.shiftOne rd (s.reg ra).msb (s.reg ra)

/-- R190: the old carry enters. -/
def execSrc (rd ra : RegNum) (s : State) : Res State :=
  (s.readFlag Msr.c).2.shiftOne rd (s.readFlag Msr.c).1 (s.reg ra)

/-- R191: zero enters. -/
def execSrl (rd ra : RegNum) (s : State) : Res State := s.shiftOne rd false (s.reg ra)

/-! ### Barrel shifts (option `C_USE_BARREL`, R192) -/

/-- R193. -/
def execBsrl (rd ra rb : RegNum) (s : State) : Res State :=
  needs s.cfg.useBarrel (s.writeBack rd (shiftRL (s.reg ra) (shiftAmount (s.reg rb))))

/-- R194. -/
def execBsra (rd ra rb : RegNum) (s : State) : Res State :=
  needs s.cfg.useBarrel (s.writeBack rd (shiftRA (s.reg ra) (shiftAmount (s.reg rb))))

/-- R195. -/
def execBsll (rd ra rb : RegNum) (s : State) : Res State :=
  needs s.cfg.useBarrel (s.writeBack rd (shiftL (s.reg ra) (shiftAmount (s.reg rb))))

/-- R196: the field is the amount; `imm` has no effect on it. -/
def execBsrli (rd ra : RegNum) (amount : BitVec 5) (s : State) : Res State :=
  needs s.cfg.useBarrel (s.writeBack rd (shiftRL (s.reg ra) amount.toNat))

/-- R197. -/
def execBsrai (rd ra : RegNum) (amount : BitVec 5) (s : State) : Res State :=
  needs s.cfg.useBarrel (s.writeBack rd (shiftRA (s.reg ra) amount.toNat))

/-- R198. -/
def execBslli (rd ra : RegNum) (amount : BitVec 5) (s : State) : Res State :=
  needs s.cfg.useBarrel (s.writeBack rd (shiftL (s.reg ra) amount.toNat))

end Sys2Proof.Machine
end

