-- ==== Sys2Proof/Machine/Special.lean ====
section
/-! DEFINITION. The special instructions (44_special): `imm`, special registers, `msrset` and `msrclr`, software breaks,
returns from interrupt and break, cache line writes. -/

namespace Sys2Proof.Machine

/-- R310. -/
def execImm (imm : Imm16) (s : State) : Res State := s.lockImm imm

/-- R311: the address of this `mfs`, or MSR as read. -/
def execMfs (rd : RegNum) (rs : SpecReg) (s : State) : Res State :=
  match rs with
  | .rpc => s.writeBack rd s.pc
  | .rmsr => s.readMsr.2.writeBack rd s.readMsr.1.toWord

/-- The pending transfer, if any, is not the return of `rtid` or `rtbd`, whose slot may not write MSR (R317, R318). -/
def State.msrWritable (s : State) : Bool := s.ds.all (fun d => d.act == .none)

/-- R312: selector `rpc` is refused; `rmsr` writes all eight bits and opens the write window (70 R466). -/
def execMts (ra : RegNum) (rs : SpecReg) (s : State) : Res State :=
  match rs with
  | .rpc => .refused .mtsToPC
  | .rmsr =>
    if s.msrWritable then .next (s.retireMsr (Msr.ofWord (s.reg ra))) else .refused .msrWriteInReturnSlot

/-- Copy MSR as read to rD and change MSR: `msrset` and `msrclr` (R313, R314). Inside the write window of an earlier MSR
write rD gets old and new fields as the read draws them (70 R466 point 2), and the change is made on top of the stored
value, as sequential execution gives it (70 R466 point 3). DEDUCED (log 49). -/
def State.changeMsr (s : State) (rd : RegNum) (change : Word → Word) : Res State :=
  needs s.cfg.useMsrInstr
    (if s.msrWritable then
      .next ((s.readMsr.2.setReg rd s.readMsr.1.toWord).retireMsr (Msr.ofWord (change s.msr.toWord)))
    else .refused .msrWriteInReturnSlot)

/-- R313. -/
def execMsrset (rd : RegNum) (imm : Imm16) (s : State) : Res State := s.changeMsr rd (fun old => old ||| s.msrMask imm)

/-- R314. -/
def execMsrclr (rd : RegNum) (imm : Imm16) (s : State) : Res State := s.changeMsr rd (fun old => old &&& ~~~s.msrMask imm)

/-- R315: link, set BIP, jump; the target is read before rD is written. -/
def execBrk (rd rb : RegNum) (s : State) : Res State := ((s.setReg rd s.pc).setBIP).jump (s.reg rb)

/-- R316. -/
def execBrki (rd : RegNum) (imm : Imm16) (s : State) : Res State := ((s.setReg rd s.pc).setBIP).jump (s.imm32 imm)

/-- R317. -/
def execRtid (ra : RegNum) (imm : Imm16) (s : State) : Res State := s.returnTo (s.reg ra) (s.imm32 imm) .setIE

/-- R318. -/
def execRtbd (ra : RegNum) (imm : Imm16) (s : State) : Res State := s.returnTo (s.reg ra) (s.imm32 imm) .clearBIP

/-- R319: ICE must read 0. -/
def execWic (ra rb : RegNum) (s : State) : Res State :=
  needs (s.cfg.icache.use && s.cfg.icache.allowWrite)
    (let ice := s.readFlag Msr.ice
      if ice.1 then .refused .cacheWriteWhileEnabled
      else .next (ice.2.putICache (s.reg ra) (s.reg rb)).retire)

/-- R320: DCE must read 0. -/
def execWdc (ra rb : RegNum) (s : State) : Res State :=
  needs (s.cfg.dcache.use && s.cfg.dcache.allowWrite)
    (let dce := s.readFlag Msr.dce
      if dce.1 then .refused .cacheWriteWhileEnabled
      else .next (dce.2.putDCache (s.reg ra) (s.reg rb)).retire)

end Sys2Proof.Machine
end

