-- ==== Sys2Proof/Machine/Dispatch.lean ====
section
/-! DEFINITION. Which definition gives each instruction its meaning. -/

namespace Sys2Proof.Machine

/-- Execute one instruction. -/
def exec (i : Instr) (s : State) : Host.Outcome State Fault Refusal :=
  match i with
  | .add rd ra rb => Sys2Proof.Machine.execAdd rd ra rb s
  | .rsub rd ra rb => Sys2Proof.Machine.execRsub rd ra rb s
  | .addc rd ra rb => Sys2Proof.Machine.execAddc rd ra rb s
  | .rsubc rd ra rb => Sys2Proof.Machine.execRsubc rd ra rb s
  | .addk rd ra rb => Sys2Proof.Machine.execAddk rd ra rb s
  | .rsubk rd ra rb => Sys2Proof.Machine.execRsubk rd ra rb s
  | .addkc rd ra rb => Sys2Proof.Machine.execAddkc rd ra rb s
  | .rsubkc rd ra rb => Sys2Proof.Machine.execRsubkc rd ra rb s
  | .cmp rd ra rb => Sys2Proof.Machine.execCmp rd ra rb s
  | .cmpu rd ra rb => Sys2Proof.Machine.execCmpu rd ra rb s
  | .addi rd ra imm => Sys2Proof.Machine.execAddi rd ra imm s
  | .rsubi rd ra imm => Sys2Proof.Machine.execRsubi rd ra imm s
  | .addic rd ra imm => Sys2Proof.Machine.execAddic rd ra imm s
  | .rsubic rd ra imm => Sys2Proof.Machine.execRsubic rd ra imm s
  | .addik rd ra imm => Sys2Proof.Machine.execAddik rd ra imm s
  | .rsubik rd ra imm => Sys2Proof.Machine.execRsubik rd ra imm s
  | .addikc rd ra imm => Sys2Proof.Machine.execAddikc rd ra imm s
  | .rsubikc rd ra imm => Sys2Proof.Machine.execRsubikc rd ra imm s
  | .mul rd ra rb => Sys2Proof.Machine.execMul rd ra rb s
  | .bsrl rd ra rb => Sys2Proof.Machine.execBsrl rd ra rb s
  | .bsra rd ra rb => Sys2Proof.Machine.execBsra rd ra rb s
  | .bsll rd ra rb => Sys2Proof.Machine.execBsll rd ra rb s
  | .muli rd ra imm => Sys2Proof.Machine.execMuli rd ra imm s
  | .bsrli rd ra amount => Sys2Proof.Machine.execBsrli rd ra amount s
  | .bsrai rd ra amount => Sys2Proof.Machine.execBsrai rd ra amount s
  | .bslli rd ra amount => Sys2Proof.Machine.execBslli rd ra amount s
  | .idiv rd ra rb => Sys2Proof.Machine.execIdiv rd ra rb s
  | .idivu rd ra rb => Sys2Proof.Machine.execIdivu rd ra rb s
  | .get rd ch => Sys2Proof.Machine.execGet rd ch s
  | .put ra ch => Sys2Proof.Machine.execPut ra ch s
  | .nget rd ch => Sys2Proof.Machine.execNget rd ch s
  | .nput ra ch => Sys2Proof.Machine.execNput ra ch s
  | .cget rd ch => Sys2Proof.Machine.execCget rd ch s
  | .cput ra ch => Sys2Proof.Machine.execCput ra ch s
  | .ncget rd ch => Sys2Proof.Machine.execNcget rd ch s
  | .ncput ra ch => Sys2Proof.Machine.execNcput ra ch s
  | .or rd ra rb => Sys2Proof.Machine.execOr rd ra rb s
  | .and rd ra rb => Sys2Proof.Machine.execAnd rd ra rb s
  | .xor rd ra rb => Sys2Proof.Machine.execXor rd ra rb s
  | .andn rd ra rb => Sys2Proof.Machine.execAndn rd ra rb s
  | .sra rd ra => Sys2Proof.Machine.execSra rd ra s
  | .src rd ra => Sys2Proof.Machine.execSrc rd ra s
  | .srl rd ra => Sys2Proof.Machine.execSrl rd ra s
  | .sext8 rd ra => Sys2Proof.Machine.execSext8 rd ra s
  | .sext16 rd ra => Sys2Proof.Machine.execSext16 rd ra s
  | .wic ra rb => Sys2Proof.Machine.execWic ra rb s
  | .wdc ra rb => Sys2Proof.Machine.execWdc ra rb s
  | .mts ra rs => Sys2Proof.Machine.execMts ra rs s
  | .mfs rd rs => Sys2Proof.Machine.execMfs rd rs s
  | .br rb => Sys2Proof.Machine.execBr rb s
  | .brd rb => Sys2Proof.Machine.execBrd rb s
  | .brld rd rb => Sys2Proof.Machine.execBrld rd rb s
  | .bra rb => Sys2Proof.Machine.execBra rb s
  | .brad rb => Sys2Proof.Machine.execBrad rb s
  | .brald rd rb => Sys2Proof.Machine.execBrald rd rb s
  | .brk rd rb => Sys2Proof.Machine.execBrk rd rb s
  | .beq ra rb => Sys2Proof.Machine.execBeq ra rb s
  | .bne ra rb => Sys2Proof.Machine.execBne ra rb s
  | .blt ra rb => Sys2Proof.Machine.execBlt ra rb s
  | .ble ra rb => Sys2Proof.Machine.execBle ra rb s
  | .bgt ra rb => Sys2Proof.Machine.execBgt ra rb s
  | .bge ra rb => Sys2Proof.Machine.execBge ra rb s
  | .beqd ra rb => Sys2Proof.Machine.execBeqd ra rb s
  | .bned ra rb => Sys2Proof.Machine.execBned ra rb s
  | .bltd ra rb => Sys2Proof.Machine.execBltd ra rb s
  | .bled ra rb => Sys2Proof.Machine.execBled ra rb s
  | .bgtd ra rb => Sys2Proof.Machine.execBgtd ra rb s
  | .bged ra rb => Sys2Proof.Machine.execBged ra rb s
  | .ori rd ra imm => Sys2Proof.Machine.execOri rd ra imm s
  | .andi rd ra imm => Sys2Proof.Machine.execAndi rd ra imm s
  | .xori rd ra imm => Sys2Proof.Machine.execXori rd ra imm s
  | .andni rd ra imm => Sys2Proof.Machine.execAndni rd ra imm s
  | .imm imm => Sys2Proof.Machine.execImm imm s
  | .rtsd ra imm => Sys2Proof.Machine.execRtsd ra imm s
  | .rtid ra imm => Sys2Proof.Machine.execRtid ra imm s
  | .rtbd ra imm => Sys2Proof.Machine.execRtbd ra imm s
  | .bri imm => Sys2Proof.Machine.execBri imm s
  | .brid imm => Sys2Proof.Machine.execBrid imm s
  | .brlid rd imm => Sys2Proof.Machine.execBrlid rd imm s
  | .brai imm => Sys2Proof.Machine.execBrai imm s
  | .braid imm => Sys2Proof.Machine.execBraid imm s
  | .bralid rd imm => Sys2Proof.Machine.execBralid rd imm s
  | .brki rd imm => Sys2Proof.Machine.execBrki rd imm s
  | .beqi ra imm => Sys2Proof.Machine.execBeqi ra imm s
  | .bnei ra imm => Sys2Proof.Machine.execBnei ra imm s
  | .blti ra imm => Sys2Proof.Machine.execBlti ra imm s
  | .blei ra imm => Sys2Proof.Machine.execBlei ra imm s
  | .bgti ra imm => Sys2Proof.Machine.execBgti ra imm s
  | .bgei ra imm => Sys2Proof.Machine.execBgei ra imm s
  | .beqid ra imm => Sys2Proof.Machine.execBeqid ra imm s
  | .bneid ra imm => Sys2Proof.Machine.execBneid ra imm s
  | .bltid ra imm => Sys2Proof.Machine.execBltid ra imm s
  | .bleid ra imm => Sys2Proof.Machine.execBleid ra imm s
  | .bgtid ra imm => Sys2Proof.Machine.execBgtid ra imm s
  | .bgeid ra imm => Sys2Proof.Machine.execBgeid ra imm s
  | .lbu rd ra rb => Sys2Proof.Machine.execLbu rd ra rb s
  | .lhu rd ra rb => Sys2Proof.Machine.execLhu rd ra rb s
  | .lw rd ra rb => Sys2Proof.Machine.execLw rd ra rb s
  | .sb rd ra rb => Sys2Proof.Machine.execSb rd ra rb s
  | .sh rd ra rb => Sys2Proof.Machine.execSh rd ra rb s
  | .sw rd ra rb => Sys2Proof.Machine.execSw rd ra rb s
  | .lbui rd ra imm => Sys2Proof.Machine.execLbui rd ra imm s
  | .lhui rd ra imm => Sys2Proof.Machine.execLhui rd ra imm s
  | .lwi rd ra imm => Sys2Proof.Machine.execLwi rd ra imm s
  | .sbi rd ra imm => Sys2Proof.Machine.execSbi rd ra imm s
  | .shi rd ra imm => Sys2Proof.Machine.execShi rd ra imm s
  | .swi rd ra imm => Sys2Proof.Machine.execSwi rd ra imm s
  | .msrset rd imm => Sys2Proof.Machine.execMsrset rd imm s
  | .msrclr rd imm => Sys2Proof.Machine.execMsrclr rd imm s

end Sys2Proof.Machine
end

