-- ==== Sys2Proof/Machine/Events.lean ====
section
/-! DEFINITION. The event test at an instruction boundary (60_exceptions R404 to R406, R411): which request, if any, is
taken before the next instruction. An enabled request may be taken at this boundary or a later one (R405): a free bit
decides each time (log 14). -/

namespace Sys2Proof.Machine

/-- The interrupt request `INT`: the level of the input, or the edge latch (60_exceptions R412). -/
def State.interruptRequest (s : State) : Bool := if s.cfg.interruptIsEdge then s.intLatch else s.intPin

/-- No event is taken between `imm` and its successor or before a delay slot (60_exceptions R404). -/
def State.heldOff (s : State) : Bool := s.imm.isSome || s.ds.isSome

/-- An enabled request is taken now or left for later (60_exceptions R405). -/
def State.offered (s : State) (enabled : Bool) : Bool × State := if enabled then s.drawBit else (false, s)

/-- `Ext_NM_BRK` is enabled whatever MSR says (60_exceptions R418). -/
def State.pollNm (s : State) : Bool × State := s.offered s.nm

/-- `Ext_BRK` is enabled while BIP = 0 (60_exceptions R416). -/
def State.pollBreak (s : State) : Bool × State :=
  if s.brk then
    let bip := s.readFlag Msr.bip
    bip.2.offered (!bip.1)
  else (false, s)

/-- An exception request has no mask (60_exceptions R421). -/
def State.pollException (s : State) : Bool × State := s.offered s.exc

/-- An interrupt is enabled while IE = 1 and BIP = 0 (60_exceptions R411). -/
def State.pollInterrupt (s : State) : Bool × State :=
  if s.interruptRequest then
    let ie := s.readFlag Msr.ie
    let bip := ie.2.readFlag Msr.bip
    bip.2.offered (ie.1 && !bip.1)
  else (false, s)

/-- The requests in their order, non-maskable break, break, exception, interrupt (60_exceptions R405, R406): at most one
is taken. Answers whether one was, and the state after its entry, or the state to run the next instruction in. -/
def State.pollEvents (s : State) : Bool × State :=
  if s.heldOff then (false, s)
  else
    let nm := s.pollNm
    if nm.1 then (true, nm.2.takeNmBreak)
    else
      let brk := nm.2.pollBreak
      if brk.1 then (true, brk.2.takeBreak)
      else
        let exc := brk.2.pollException
        if exc.1 then (true, exc.2.takeException)
        else
          let int := exc.2.pollInterrupt
          if int.1 then (true, int.2.takeInterrupt) else (false, int.2)

end Sys2Proof.Machine
end

