-- ==== Sys2Proof/Machine/Cycle.lean ====
section
/-! DEFINITION. One step of the machine (60_exceptions R405), and placing a word where the next step fetches. -/

namespace Sys2Proof.Machine

/-- Fetch, decode and execute the instruction at the PC; a word that is no instruction is refused (30_encoding R120). -/
def State.fetchExec (s : State) : Res State :=
  s.fetchWord.bind fun r =>
    match decodeWord r.2.cfg r.1 with
    | .ok i => exec i r.2
    | .error _ => .refused .illegalEncoding

/-- Reset arrives: whether the instruction in progress still did its memory access is a free bit (70 R450, 93 U30,
log 19). A stopped core has no instruction in progress (60_exceptions R437). -/
def State.abandon (s : State) : State :=
  if s.stopped then s
  else
    let b := s.drawBit
    if b.1 then
      match b.2.fetchExec with
      | .next t => t
      | .fault _ => b.2
      | .refused _ => b.2
    else b.2

/-- One step (60_exceptions R405): reset before everything; a stopped core makes no step (R437); then at most one event;
then one instruction. A configuration the spec does not allow is refused (20_memory R88, log 39). -/
def State.cycle (s : State) : Res State :=
  if Config.valid s.cfg = false then .refused .configuration
  else if s.rst then .next s.abandon.resetCore
  else if s.stopped then .next s
  else if s.pollEvents.1 then .next s.pollEvents.2
  else s.pollEvents.2.fetchExec

/-- Put a word where the fetch at the PC reads it: in the storage of the instruction side, not marked as stored to, and in
the instruction-cache line when that cache may serve the fetch (20_memory R72, R87, R90). -/
def State.placeWord (s : State) (v : Word) : State :=
  let a := s.pc.toNat
  let t := { s with stored := Assoc.drop s.stored (a / 4 * 4) }
  let u :=
    if Config.sharedID s.cfg a then { t with mem := Memory.writeSize t.mem .word a v }
    else { t with imem := Memory.writeSize t.imem .word a v }
  if s.icacheMayServe a then
    { u with
      icache := Assoc.put u.icache (CacheConfig.lineOf s.cfg.icache a) ⟨CacheConfig.tagOf s.cfg.icache a, true, false, v⟩ }
  else u

/-- The core is at the end of a run (70 R470): at a boundary outside an `imm` pair, a delay slot and the write window, with
`bri 0` at the PC. 'The word at E' is taken as the word that the fetch would answer, through the instruction cache where
that serves it, and a run whose fetch is refused has not ended: DESIGN CHOICE (log 50). -/
def State.atEnd (s : State) : Bool :=
  s.imm.isNone && s.ds.isNone && s.window.isNone &&
    match s.fetchWord with
    | .next r => r.1 == 0xB8000000#32
    | .fault _ => false
    | .refused _ => false

end Sys2Proof.Machine
end

