-- ==== Sys2Proof/Machine/Step.lean ====
section
/-! DEFINITION. The step function and the placement of one instruction for it. -/

namespace Sys2Proof.Machine

/-- One step (60_exceptions R405). -/
def step (s : State) : Host.Outcome State Fault Refusal := s.cycle

/-- The state with the instruction whose bits are `w` where the next step fetches (log 5). -/
def State.withFetchWord (s : State) (nbits w : Nat) : State := s.placeWord (BitVec.ofNat 32 (w % 2 ^ nbits))

end Sys2Proof.Machine
end

