-- ==== Sys2Proof/Machine/Environment.lean ====
section
/-! DEFINITION. What agents other than the program may do between two steps: one constructor for each action of the host
table of 60_exceptions R437 (log 38). -/

namespace Sys2Proof.Machine

/-- The event requests posted on pins or by the platform. -/
inductive Request where
  | extNmBrk
  | extBrk
  | exception
  deriving DecidableEq, Repr

/-- One action of the environment or of the debug host. -/
inductive HostAction where
  /-- Assert `Reset` or `Debug_Rst` (R405). -/
  | assertReset
  /-- Drive the `Interrupt` input (R412). -/
  | setInterrupt (level : Bool)
  /-- Post a request (R416, R421). -/
  | post (r : Request)
  /-- Withdraw an untaken request: R416 gives it for the two breaks; for the exception, where R421 and R437 are silent, it
  is a DESIGN CHOICE (log 18). -/
  | withdraw (r : Request)
  /-- The FSL peer appends an item to an input queue (45_fsl R340). -/
  | pushFsl (ch : Channel) (item : FslItem)
  /-- The FSL peer removes the head of an output queue (45_fsl R340). -/
  | popFsl (ch : Channel)
  /-- Another bus master writes a byte of data-side storage (20_memory R81), between any two steps, also while BE holds
  the bus locked, since R80 leaves the arbitration to another document: DESIGN CHOICE (log 53). -/
  | writeData (addr : Word) (b : Byte)
  /-- Another bus master writes a byte of instruction-side storage (20_memory R81, R83). -/
  | writeInstr (addr : Word) (b : Byte)
  /-- Stop or resume the core (R436): it makes no step while stopped. Single-stepping is resume, one step, stop; a
  hardware breakpoint or watchpoint is a stop at that boundary. -/
  | stop
  | resume
  /-- Debug writes of a register, the PC (a word address, so that it stays aligned), MSR (R436). A write of MSR leaves an open
  write window open, with the value before the `mts`: DESIGN CHOICE (log 38). -/
  | debugReg (r : RegNum) (v : Word)
  | debugPc (wordAddr : BitVec 30)
  | debugMsr (v : Word)
  /-- Debug writes of a cache line: the address, its two low bits valid and lock as `wic` has them (R436, 20 R91). -/
  | debugICache (a data : Word)
  | debugDCache (a data : Word)
  deriving DecidableEq, Repr

/-- Set or clear a request, the exception like the breaks (R416; for R421 a DESIGN CHOICE, log 18). -/
def State.setRequest (s : State) (r : Request) (b : Bool) : State :=
  match r with
  | .extNmBrk => { s with nm := b }
  | .extBrk => { s with brk := b }
  | .exception => { s with exc := b }

/-- A new level of the `Interrupt` input; in edge mode the chosen edge sets the latch (60_exceptions R412, log 16). -/
def State.driveInterrupt (s : State) (level : Bool) : State :=
  let edge := if s.cfg.edgeIsPositive then !s.intPin && level else s.intPin && !level
  { s with intPin := level, intLatch := s.intLatch || (s.cfg.interruptIsEdge && edge) }

/-- An action of the debug logic, which exists only when `C_DEBUG_ENABLED` = 1 (60_exceptions R436). -/
def State.debugged (s t : State) : State := if s.cfg.debugEnabled then t else s

/-- The state after an action of the environment (60_exceptions R437). No action depends on BE or `busLocked`: DESIGN CHOICE
(log 53). -/
def State.host (s : State) (a : HostAction) : State :=
  match a with
  | .assertReset => { s with rst := true }
  | .setInterrupt level => s.driveInterrupt level
  | .post r => s.setRequest r true
  | .withdraw r => s.setRequest r false
  | .pushFsl ch item => { s with inQ := s.inQ.set ch.toNat (s.inQ[ch.toNat] ++ [item]) }
  | .popFsl ch => { s with outQ := s.outQ.set ch.toNat s.outQ[ch.toNat].tail }
  | .writeData a b => { s with mem := Memory.write s.mem a.toNat b }
  | .writeInstr a b => { s with imem := Memory.write s.imem a.toNat b }
  | .stop => s.debugged { s with stopped := true }
  | .resume => s.debugged { s with stopped := false }
  | .debugReg r v => s.debugged (s.setReg r v)
  | .debugPc p => s.debugged { s with pc := p ++ 0#2 }
  | .debugMsr v => s.debugged { s with msr := Msr.ofWord v }
  | .debugICache a d => s.debugged (s.putICache a d)
  | .debugDCache a d => s.debugged (s.putDCache a d)

end Sys2Proof.Machine
end

