-- ==== Sys2Proof/Safety.lean ====
section
/-! DEFINITION. What claims speak of: the invariant of the state, runs with and without the environment, runs that end or
stop, and the vocabulary of the statements about one instruction (what it reads, writes and leaves alone). -/

namespace Sys2Proof.Machine

/-! ### The invariant -/

/-- Every line of a cache: index below the number of lines, tag within the tag bits (20_memory R88). -/
def linesWf (c : CacheConfig) (m : List (Nat × CacheLine)) : Bool :=
  Assoc.wf (2 ^ CacheConfig.lineBits c) (fun _ l => decide (l.tag < 2 ^ c.tagBits)) m

/-- What every step keeps. -/
structure State.Inv (s : State) : Prop where
  /-- The PC is a multiple of 4 (10_state R26). -/
  pc : aligned s.pc = true
  /-- So is a pending delayed target. -/
  target : s.ds.all (fun d => aligned d.target) = true
  /-- An `imm` lock and a pending transfer never stand together (42_branch R221). -/
  exclusive : (s.imm.isSome && s.ds.isSome) = false
  /-- Both storages are in canonical form. -/
  mem : Memory.wf s.mem = true
  imem : Memory.wf s.imem = true
  /-- The caches hold lines they have room for. -/
  icache : linesWf s.cfg.icache s.icache = true
  dcache : linesWf s.cfg.dcache s.dcache = true
  /-- No output queue is longer than the FIFO is deep (45_fsl R340). -/
  outQ : ∀ k : Channel, (s.outQueue k).length ≤ s.cfg.fslDepth

/-! ### Runs -/

/-- A run: steps of the machine alone. -/
inductive State.Reaches (s : State) : State → Prop where
  | refl : State.Reaches s s
  | step {t u : State} : State.Reaches s t → step t = .next u → State.Reaches s u

/-- A run in an environment: steps of the machine and actions of other agents, in any order (60_exceptions R437). -/
inductive State.ReachesWith (s : State) : State → Prop where
  | refl : State.ReachesWith s s
  | step {t u : State} : State.ReachesWith s t → step t = .next u → State.ReachesWith s u
  | host {t : State} (a : HostAction) : State.ReachesWith s t → State.ReachesWith s (t.host a)

/-- No run from the state meets a fault or a refusal: the spec gives every run a meaning (93 section 1). -/
def State.Safe (s : State) : Prop := ∀ t : State, s.Reaches t → ∃ u : State, step t = .next u

/-- The same in every environment. -/
def State.SafeWith (s : State) : Prop := ∀ t : State, s.ReachesWith t → ∃ u : State, step t = .next u

/-- Some run from the state ends (70_reset_and_hazards R470). -/
def State.Ends (s : State) : Prop := ∃ t : State, s.Reaches t ∧ t.atEnd = true

/-! ### Reading MSR -/

/-- What a read of an MSR field may answer: the stored value, or the value before an open write (70 R466). -/
def State.MayRead (s : State) (f : Msr → Bool) (b : Bool) : Prop := b = f s.msr ∨ ∃ old, s.window = some old ∧ b = f old

/-- What a read of all of MSR may answer, field by field (70 R466). -/
structure State.MayReadMsr (s : State) (m : Msr) : Prop where
  dce : s.MayRead Msr.dce m.dce
  dz : s.MayRead Msr.dz m.dz
  ice : s.MayRead Msr.ice m.ice
  fsl : s.MayRead Msr.fsl m.fsl
  bip : s.MayRead Msr.bip m.bip
  c : s.MayRead Msr.c m.c
  ie : s.MayRead Msr.ie m.ie
  be : s.MayRead Msr.be m.be

/-! ### What an instruction leaves alone -/

/-- Parameters, requests, pins and the stop of the debug host. -/
structure State.SameInputs (s t : State) : Prop where
  cfg : t.cfg = s.cfg
  rst : t.rst = s.rst
  nm : t.nm = s.nm
  brk : t.brk = s.brk
  exc : t.exc = s.exc
  intPin : t.intPin = s.intPin
  intLatch : t.intLatch = s.intLatch
  stopped : t.stopped = s.stopped

/-- Every byte of both storages and the record of stores. -/
structure State.SameMemory (s t : State) : Prop where
  mem : ∀ a, Memory.read t.mem a = Memory.read s.mem a
  imem : ∀ a, Memory.read t.imem a = Memory.read s.imem a
  stored : t.stored = s.stored

/-- Every byte of both storages, the record of stores, and nothing on the data bus. -/
structure State.SameStorage (s t : State) : Prop where
  mem : ∀ a, Memory.read t.mem a = Memory.read s.mem a
  imem : ∀ a, Memory.read t.imem a = Memory.read s.imem a
  stored : t.stored = s.stored
  devLog : t.devLog = s.devLog
  busLocked : t.busLocked = s.busLocked

/-- Both caches. -/
structure State.SameCaches (s t : State) : Prop where
  icache : t.icache = s.icache
  dcache : t.dcache = s.dcache

/-- The FSL queues. -/
structure State.SameQueues (s t : State) : Prop where
  inQ : t.inQ = s.inQ
  outQ : t.outQ = s.outQ

/-- Everything outside registers, PC, MSR and the state between two instructions. -/
structure State.SameOutside (s t : State) : Prop where
  inputs : s.SameInputs t
  storage : s.SameStorage t
  caches : s.SameCaches t
  queues : s.SameQueues t

/-- No general register changes. -/
def State.SameRegs (s t : State) : Prop := ∀ r, t.reg r = s.reg r

/-- One general register takes a value, r0 discarding it (10_state R21), and no other changes. -/
structure State.OneReg (s t : State) (rd : RegNum) (v : Word) : Prop where
  written : t.reg rd = if rd = 0#5 then 0#32 else v
  others : ∀ r, r ≠ rd → t.reg r = s.reg r

/-! ### How an instruction ends (42_branch R221) -/

/-- The next instruction after one that is no transfer. -/
def State.following (s : State) : Word :=
  match s.ds with
  | none => s.pc + 4#32
  | some d => d.target

/-- MSR after an instruction that leaves `m`, when the instruction stands in a delay slot that changes IE or BIP. -/
def State.afterSlot (s : State) (m : Msr) : Msr :=
  match s.ds with
  | none => m
  | some d =>
    match d.act with
    | .none => m
    | .setIE => { m with ie := true }
    | .clearBIP => { m with bip := false }

/-- PC, pending transfer and MSR after an instruction that leaves neither an `imm` lock nor a write window. -/
structure State.Moved (s t : State) (pc : Word) (pending : Option Delayed) (m : Msr) : Prop where
  pc : t.pc = pc
  ds : t.ds = pending
  msr : t.msr = m
  imm : t.imm = none
  window : t.window = none
  count : t.icount = s.icount + 1

/-- The instruction writes rD, leaves `m` in MSR and goes on; nothing else changes. -/
structure State.Wrote (s t : State) (rd : RegNum) (v : Word) (m : Msr) : Prop where
  regs : s.OneReg t rd v
  moved : s.Moved t s.following none (s.afterSlot m)
  outside : s.SameOutside t

/-- The instruction writes no register. -/
structure State.Went (s t : State) (pc : Word) (pending : Option Delayed) (m : Msr) : Prop where
  regs : s.SameRegs t
  moved : s.Moved t pc pending m
  outside : s.SameOutside t

/-- The instruction writes its own address to rD. -/
structure State.Linked (s t : State) (rd : RegNum) (pc : Word) (pending : Option Delayed) (m : Msr) : Prop where
  regs : s.OneReg t rd s.pc
  moved : s.Moved t pc pending m
  outside : s.SameOutside t

/-- What a transfer without delay slot does outside a delay slot: it goes to an aligned target and is refused at another. -/
def State.Jumps (s : State) (i : Instr) (target : Word) : Prop :=
  (target.toNat % 4 = 0 → ∃ t, exec i s = .next t ∧ s.Went t target none s.msr) ∧
    (target.toNat % 4 ≠ 0 → exec i s = .refused .misalignedFetch)

/-- What a transfer with delay slot does outside a delay slot: the next word comes first, the target stays pending. -/
def State.JumpsDelayed (s : State) (i : Instr) (target : Word) (act : SlotMsr) : Prop :=
  (target.toNat % 4 = 0 → ∃ t, exec i s = .next t ∧ s.Went t (s.pc + 4#32) (some ⟨target, act⟩) s.msr) ∧
    (target.toNat % 4 ≠ 0 → exec i s = .refused .misalignedFetch)

/-- The same with the link in rD. -/
def State.JumpsLinked (s : State) (i : Instr) (rd : RegNum) (target : Word) : Prop :=
  (target.toNat % 4 = 0 → ∃ t, exec i s = .next t ∧ s.Linked t rd (s.pc + 4#32) (some ⟨target, .none⟩) s.msr) ∧
    (target.toNat % 4 ≠ 0 → exec i s = .refused .misalignedFetch)

/-- What a conditional branch does outside a delay slot. -/
def State.Branches (s : State) (i : Instr) (taken : Prop) (offset : Word) : Prop :=
  (taken → s.Jumps i (s.pc + offset)) ∧ (¬taken → ∃ t, exec i s = .next t ∧ s.Went t (s.pc + 4#32) none s.msr)

/-- The same with a delay slot when taken. -/
def State.BranchesDelayed (s : State) (i : Instr) (taken : Prop) (offset : Word) : Prop :=
  (taken → s.JumpsDelayed i (s.pc + offset) .none) ∧
    (¬taken → ∃ t, exec i s = .next t ∧ s.Went t (s.pc + 4#32) none s.msr)

/-! ### Loads and stores -/

/-- The load of each size, register and immediate form. -/
def loadReg (n : Size) (rd ra rb : RegNum) : Instr :=
  match n with
  | .byte => .lbu rd ra rb
  | .half => .lhu rd ra rb
  | .word => .lw rd ra rb

def loadImm (n : Size) (rd ra : RegNum) (imm : Imm16) : Instr :=
  match n with
  | .byte => .lbui rd ra imm
  | .half => .lhui rd ra imm
  | .word => .lwi rd ra imm

/-- The store of each size. -/
def storeReg (n : Size) (rd ra rb : RegNum) : Instr :=
  match n with
  | .byte => .sb rd ra rb
  | .half => .sh rd ra rb
  | .word => .sw rd ra rb

def storeImm (n : Size) (rd ra : RegNum) (imm : Imm16) : Instr :=
  match n with
  | .byte => .sbi rd ra imm
  | .half => .shi rd ra imm
  | .word => .swi rd ra imm

/-- `i` is the load of rD at base plus offset. -/
inductive IsLoad (s : State) (n : Size) (rd : RegNum) : Instr → Word → Word → Prop where
  | reg (ra rb : RegNum) : IsLoad s n rd (loadReg n rd ra rb) (s.reg ra) (s.reg rb)
  | imm (ra : RegNum) (v : Imm16) : IsLoad s n rd (loadImm n rd ra v) (s.reg ra) (s.imm32 v)

/-- `i` is the store of rD at base plus offset. -/
inductive IsStore (s : State) (n : Size) (rd : RegNum) : Instr → Word → Word → Prop where
  | reg (ra rb : RegNum) : IsStore s n rd (storeReg n rd ra rb) (s.reg ra) (s.reg rb)
  | imm (ra : RegNum) (v : Imm16) : IsStore s n rd (storeImm n rd ra v) (s.reg ra) (s.imm32 v)

/-- Storage, not a device, answers a data access at the address. -/
def State.answers (s : State) (n : Size) (a : Nat) : Prop :=
  ∃ r, Config.dataRegion s.cfg n a = some r ∧ r.kind ≠ .device

/-- The data cache takes no part in an access at the address. -/
def State.bypassesD (s : State) (a : Nat) : Prop :=
  CacheConfig.cacheable s.cfg.dcache a = false ∨ (s.window = none ∧ s.msr.dce = false)

/-- The data cache takes part in an access at the address. -/
def State.cachesD (s : State) (a : Nat) : Prop :=
  CacheConfig.cacheable s.cfg.dcache a = true ∧ s.window = none ∧ s.msr.dce = true

/-- Every valid data-cache line holds the word of memory it stands for (20_memory R93). -/
def State.Coherent (s : State) : Prop :=
  ∀ (a : Nat) (l : CacheLine), a % 4 = 0 → CacheConfig.cacheable s.cfg.dcache a = true →
    Assoc.find s.dcache (CacheConfig.lineOf s.cfg.dcache a) = some l →
    l.hits (CacheConfig.tagOf s.cfg.dcache a) = true → l.data = Memory.readWord s.mem a

/-- No event can be taken at this boundary: it is held off (60_exceptions R404), or no request is present that MSR enables
(R411, R416, R418, R421). -/
def State.undisturbed (s : State) : Prop :=
  s.imm.isSome = true ∨ s.ds.isSome = true ∨
    (s.nm = false ∧ s.exc = false ∧ (s.brk = false ∨ (s.window = none ∧ s.msr.bip = true)) ∧
      (s.interruptRequest = false ∨ (s.window = none ∧ (s.msr.ie = false ∨ s.msr.bip = true))))

/-- The core runs: neither reset nor stopped, and no event comes first. -/
def State.quiet (s : State) : Prop := s.rst = false ∧ s.stopped = false ∧ s.undisturbed

/-- Storage, not a device, answers a fetch at the address. -/
def State.fetches (s : State) (a : Nat) : Prop := ∃ r, Config.instrRegion s.cfg a = some r ∧ r.kind ≠ .device

/-- The word of the address is recorded as stored to (20_memory R87). -/
def State.recorded (s : State) (a : Nat) : Prop := (Assoc.find s.stored (a / 4 * 4)).isSome = true

/-- The fetch at the address goes past the instruction cache. -/
def State.bypassesI (s : State) (a : Nat) : Prop :=
  CacheConfig.cacheable s.cfg.icache a = false ∨ (s.window = none ∧ s.msr.ice = false)

/-! ### Classes of instructions -/

/-- The general register an instruction's rD field names as a destination. -/
def Instr.dest (i : Instr) : Option RegNum :=
  match i with
  | .add rd _ _ => some rd
  | .rsub rd _ _ => some rd
  | .addc rd _ _ => some rd
  | .rsubc rd _ _ => some rd
  | .addk rd _ _ => some rd
  | .rsubk rd _ _ => some rd
  | .addkc rd _ _ => some rd
  | .rsubkc rd _ _ => some rd
  | .cmp rd _ _ => some rd
  | .cmpu rd _ _ => some rd
  | .addi rd _ _ => some rd
  | .rsubi rd _ _ => some rd
  | .addic rd _ _ => some rd
  | .rsubic rd _ _ => some rd
  | .addik rd _ _ => some rd
  | .rsubik rd _ _ => some rd
  | .addikc rd _ _ => some rd
  | .rsubikc rd _ _ => some rd
  | .mul rd _ _ => some rd
  | .bsrl rd _ _ => some rd
  | .bsra rd _ _ => some rd
  | .bsll rd _ _ => some rd
  | .muli rd _ _ => some rd
  | .bsrli rd _ _ => some rd
  | .bsrai rd _ _ => some rd
  | .bslli rd _ _ => some rd
  | .idiv rd _ _ => some rd
  | .idivu rd _ _ => some rd
  | .get rd _ => some rd
  | .put _ _ => none
  | .nget rd _ => some rd
  | .nput _ _ => none
  | .cget rd _ => some rd
  | .cput _ _ => none
  | .ncget rd _ => some rd
  | .ncput _ _ => none
  | .or rd _ _ => some rd
  | .and rd _ _ => some rd
  | .xor rd _ _ => some rd
  | .andn rd _ _ => some rd
  | .sra rd _ => some rd
  | .src rd _ => some rd
  | .srl rd _ => some rd
  | .sext8 rd _ => some rd
  | .sext16 rd _ => some rd
  | .wic _ _ => none
  | .wdc _ _ => none
  | .mts _ _ => none
  | .mfs rd _ => some rd
  | .br _ => none
  | .brd _ => none
  | .brld rd _ => some rd
  | .bra _ => none
  | .brad _ => none
  | .brald rd _ => some rd
  | .brk rd _ => some rd
  | .beq _ _ => none
  | .bne _ _ => none
  | .blt _ _ => none
  | .ble _ _ => none
  | .bgt _ _ => none
  | .bge _ _ => none
  | .beqd _ _ => none
  | .bned _ _ => none
  | .bltd _ _ => none
  | .bled _ _ => none
  | .bgtd _ _ => none
  | .bged _ _ => none
  | .ori rd _ _ => some rd
  | .andi rd _ _ => some rd
  | .xori rd _ _ => some rd
  | .andni rd _ _ => some rd
  | .imm _ => none
  | .rtsd _ _ => none
  | .rtid _ _ => none
  | .rtbd _ _ => none
  | .bri _ => none
  | .brid _ => none
  | .brlid rd _ => some rd
  | .brai _ => none
  | .braid _ => none
  | .bralid rd _ => some rd
  | .brki rd _ => some rd
  | .beqi _ _ => none
  | .bnei _ _ => none
  | .blti _ _ => none
  | .blei _ _ => none
  | .bgti _ _ => none
  | .bgei _ _ => none
  | .beqid _ _ => none
  | .bneid _ _ => none
  | .bltid _ _ => none
  | .bleid _ _ => none
  | .bgtid _ _ => none
  | .bgeid _ _ => none
  | .lbu rd _ _ => some rd
  | .lhu rd _ _ => some rd
  | .lw rd _ _ => some rd
  | .sb _ _ _ => none
  | .sh _ _ _ => none
  | .sw _ _ _ => none
  | .lbui rd _ _ => some rd
  | .lhui rd _ _ => some rd
  | .lwi rd _ _ => some rd
  | .sbi _ _ _ => none
  | .shi _ _ _ => none
  | .swi _ _ _ => none
  | .msrset rd _ => some rd
  | .msrclr rd _ => some rd

/-- The stores (20_memory R73). -/
def Instr.isStore (i : Instr) : Bool :=
  match i with
  | .sb _ _ _ => true
  | .sh _ _ _ => true
  | .sw _ _ _ => true
  | .sbi _ _ _ => true
  | .shi _ _ _ => true
  | .swi _ _ _ => true
  | _ => false

/-- The instructions that may not stand in a delay slot (42_branch R221). -/
def Instr.isTransfer (i : Instr) : Bool :=
  match i with
  | .br _ => true
  | .brd _ => true
  | .brld _ _ => true
  | .bra _ => true
  | .brad _ => true
  | .brald _ _ => true
  | .brk _ _ => true
  | .beq _ _ => true
  | .bne _ _ => true
  | .blt _ _ => true
  | .ble _ _ => true
  | .bgt _ _ => true
  | .bge _ _ => true
  | .beqd _ _ => true
  | .bned _ _ => true
  | .bltd _ _ => true
  | .bled _ _ => true
  | .bgtd _ _ => true
  | .bged _ _ => true
  | .bri _ => true
  | .brid _ => true
  | .brlid _ _ => true
  | .brai _ => true
  | .braid _ => true
  | .bralid _ _ => true
  | .brki _ _ => true
  | .beqi _ _ => true
  | .bnei _ _ => true
  | .blti _ _ => true
  | .blei _ _ => true
  | .bgti _ _ => true
  | .bgei _ _ => true
  | .beqid _ _ => true
  | .bneid _ _ => true
  | .bltid _ _ => true
  | .bleid _ _ => true
  | .bgtid _ _ => true
  | .bgeid _ _ => true
  | .rtsd _ _ => true
  | .rtid _ _ => true
  | .rtbd _ _ => true
  | .imm _ => true
  | _ => false

/-- The explicit MSR writes (70 R466): `mts`, `msrset`, `msrclr`. -/
def Instr.writesMsr (i : Instr) : Bool :=
  match i with
  | .mts _ _ => true
  | .msrset _ _ => true
  | .msrclr _ _ => true
  | _ => false

/-- The other writers of C (10_state R41). -/
def Instr.writesC (i : Instr) : Bool :=
  match i with
  | .add _ _ _ => true
  | .addc _ _ _ => true
  | .rsub _ _ _ => true
  | .rsubc _ _ _ => true
  | .addi _ _ _ => true
  | .addic _ _ _ => true
  | .rsubi _ _ _ => true
  | .rsubic _ _ _ => true
  | .sra _ _ => true
  | .src _ _ => true
  | .srl _ _ => true
  | .nget _ _ => true
  | .ncget _ _ => true
  | .nput _ _ => true
  | .ncput _ _ => true
  | _ => false

/-- The other writers of the FSL error bit (10_state R41). -/
def Instr.writesFsl (i : Instr) : Bool :=
  match i with
  | .get _ _ => true
  | .nget _ _ => true
  | .cget _ _ => true
  | .ncget _ _ => true
  | _ => false

/-- The other writers of DZ (10_state R41). -/
def Instr.divides (i : Instr) : Bool :=
  match i with
  | .idiv _ _ _ => true
  | .idivu _ _ _ => true
  | _ => false

/-- The instructions that set BIP themselves (10_state R41). -/
def Instr.breaks (i : Instr) : Bool :=
  match i with
  | .brk _ _ => true
  | .brki _ _ => true
  | _ => false

/-- The FSL puts (45_fsl R345 to R348). -/
def Instr.puts (i : Instr) : Bool :=
  match i with
  | .put _ _ => true
  | .nput _ _ => true
  | .cput _ _ => true
  | .ncput _ _ => true
  | _ => false

end Sys2Proof.Machine
end

