-- ==== Sys2Proof/Certificates/Slice0/Obligations.lean ====
section
/-! DEFINITION. The statements for the provers, one Prop each; the vocabulary is that of Sys2Proof/Safety.lean. -/

open Sys2Proof Sys2Proof.Machine

/-- add, addc, addk, addkc complete with the sum of rA, rB and the carry they use (R140 to R144, with R466 for the
carry read). -/
def Obligations.AddRegisterForms : Prop :=
  ∀ (s : State) (rd ra rb : RegNum),
    (∃ t, exec (.add rd ra rb) s = .next t ∧
      s.Wrote t rd (s.reg ra + s.reg rb) { s.msr with c := decide (2 ^ 32 ≤ (s.reg ra).toNat + (s.reg rb).toNat) }) ∧
    (∃ t, exec (.addk rd ra rb) s = .next t ∧ s.Wrote t rd (s.reg ra + s.reg rb) s.msr) ∧
    (∃ t c, s.MayRead Msr.c c ∧ exec (.addc rd ra rb) s = .next t ∧
      s.Wrote t rd (s.reg ra + s.reg rb + BitVec.ofNat 32 c.toNat)
        { s.msr with c := decide (2 ^ 32 ≤ (s.reg ra).toNat + (s.reg rb).toNat + c.toNat) }) ∧
    (∃ t c, s.MayRead Msr.c c ∧ exec (.addkc rd ra rb) s = .next t ∧
      s.Wrote t rd (s.reg ra + s.reg rb + BitVec.ofNat 32 c.toNat) s.msr)

/-- rsub, rsubc, rsubk, rsubkc complete with rB - rA, less the borrow they use (R140, R145 to R148: C = 1 means no
borrow). -/
def Obligations.ReverseSubtractRegisterForms : Prop :=
  ∀ (s : State) (rd ra rb : RegNum),
    (∃ t, exec (.rsub rd ra rb) s = .next t ∧
      s.Wrote t rd (s.reg rb - s.reg ra) { s.msr with c := decide ((s.reg ra).toNat ≤ (s.reg rb).toNat) }) ∧
    (∃ t, exec (.rsubk rd ra rb) s = .next t ∧ s.Wrote t rd (s.reg rb - s.reg ra) s.msr) ∧
    (∃ t c, s.MayRead Msr.c c ∧ exec (.rsubc rd ra rb) s = .next t ∧
      s.Wrote t rd (s.reg rb - s.reg ra - 1#32 + BitVec.ofNat 32 c.toNat)
        { s.msr with c := decide ((s.reg ra).toNat < (s.reg rb).toNat + c.toNat) }) ∧
    (∃ t c, s.MayRead Msr.c c ∧ exec (.rsubkc rd ra rb) s = .next t ∧
      s.Wrote t rd (s.reg rb - s.reg ra - 1#32 + BitVec.ofNat 32 c.toNat) s.msr)

/-- cmp and cmpu complete with rB - rA whose top bit is the true relation (R149, R150, without the converse of 'rD = 0
iff a = b' (log 47)). -/
def Obligations.CompareForms : Prop :=
  ∀ (s : State) (rd ra rb : RegNum),
    (∃ t v, exec (.cmp rd ra rb) s = .next t ∧ s.Wrote t rd v s.msr ∧
      v.setWidth 31 = (s.reg rb - s.reg ra).setWidth 31 ∧ (v.toInt < 0 ↔ (s.reg rb).toInt < (s.reg ra).toInt) ∧
      (s.reg ra = s.reg rb → v = 0#32)) ∧
    (∃ t v, exec (.cmpu rd ra rb) s = .next t ∧ s.Wrote t rd v s.msr ∧
      v.setWidth 31 = (s.reg rb - s.reg ra).setWidth 31 ∧ (v.toInt < 0 ↔ (s.reg rb).toNat < (s.reg ra).toNat) ∧
      (s.reg ra = s.reg rb → v = 0#32))

/-- addi, addic, addik, addikc complete with rA plus the 32-bit immediate (R151 to R154 with the operand of R104). -/
def Obligations.AddImmediateForms : Prop :=
  ∀ (s : State) (rd ra : RegNum) (imm : Imm16),
    (∃ t, exec (.addi rd ra imm) s = .next t ∧
      s.Wrote t rd (s.reg ra + s.imm32 imm) { s.msr with c := decide (2 ^ 32 ≤ (s.reg ra).toNat + (s.imm32 imm).toNat) }) ∧
    (∃ t, exec (.addik rd ra imm) s = .next t ∧ s.Wrote t rd (s.reg ra + s.imm32 imm) s.msr) ∧
    (∃ t c, s.MayRead Msr.c c ∧ exec (.addic rd ra imm) s = .next t ∧
      s.Wrote t rd (s.reg ra + s.imm32 imm + BitVec.ofNat 32 c.toNat)
        { s.msr with c := decide (2 ^ 32 ≤ (s.reg ra).toNat + (s.imm32 imm).toNat + c.toNat) }) ∧
    (∃ t c, s.MayRead Msr.c c ∧ exec (.addikc rd ra imm) s = .next t ∧
      s.Wrote t rd (s.reg ra + s.imm32 imm + BitVec.ofNat 32 c.toNat) s.msr)

/-- rsubi, rsubic, rsubik, rsubikc complete with the 32-bit immediate minus rA (R155 to R158 with the operand of
R104). -/
def Obligations.ReverseSubtractImmediateForms : Prop :=
  ∀ (s : State) (rd ra : RegNum) (imm : Imm16),
    (∃ t, exec (.rsubi rd ra imm) s = .next t ∧
      s.Wrote t rd (s.imm32 imm - s.reg ra) { s.msr with c := decide ((s.reg ra).toNat ≤ (s.imm32 imm).toNat) }) ∧
    (∃ t, exec (.rsubik rd ra imm) s = .next t ∧ s.Wrote t rd (s.imm32 imm - s.reg ra) s.msr) ∧
    (∃ t c, s.MayRead Msr.c c ∧ exec (.rsubic rd ra imm) s = .next t ∧
      s.Wrote t rd (s.imm32 imm - s.reg ra - 1#32 + BitVec.ofNat 32 c.toNat)
        { s.msr with c := decide ((s.reg ra).toNat < (s.imm32 imm).toNat + c.toNat) }) ∧
    (∃ t c, s.MayRead Msr.c c ∧ exec (.rsubikc rd ra imm) s = .next t ∧
      s.Wrote t rd (s.imm32 imm - s.reg ra - 1#32 + BitVec.ofNat 32 c.toNat) s.msr)

/-- IMM32 is IMM_HI ++ IMM under the lock and the sign-extended field without it (R104). -/
def Obligations.ImmediateOperand : Prop :=
  ∀ (s : State) (imm : Imm16),
    (∀ hi, s.imm = some hi → (s.imm32 imm).toNat = hi.toNat * 65536 + imm.toNat) ∧
    (s.imm = none → (s.imm32 imm).toInt = imm.toInt)

/-- mul and muli complete with the low word of the product when the multiplier exists (R159, R160). -/
def Obligations.MultiplyForms : Prop :=
  ∀ (s : State) (rd ra rb : RegNum) (imm : Imm16), s.cfg.hasMul = true →
    (∃ t v, exec (.mul rd ra rb) s = .next t ∧ s.Wrote t rd v s.msr ∧
      v.toNat = (s.reg ra).toNat * (s.reg rb).toNat % 2 ^ 32) ∧
    (∃ t v, exec (.muli rd ra imm) s = .next t ∧ s.Wrote t rd v s.msr ∧
      v.toNat = (s.reg ra).toNat * (s.imm32 imm).toNat % 2 ^ 32)

/-- idiv and idivu complete: quotient, 0 and DZ on a zero divisor, some value on -2^31 / -1 (R161, R162; the rounding
of `idiv` is the spec's choice (92 D11, log 10) and its overflow quotient is free (log 11)). -/
def Obligations.DivideForms : Prop :=
  ∀ (s : State) (rd ra rb : RegNum), s.cfg.useDiv = true →
    (s.reg ra = 0#32 →
      (∃ t, exec (.idiv rd ra rb) s = .next t ∧ s.Wrote t rd 0#32 { s.msr with dz := true }) ∧
      (∃ t, exec (.idivu rd ra rb) s = .next t ∧ s.Wrote t rd 0#32 { s.msr with dz := true })) ∧
    (s.reg ra ≠ 0#32 →
      (∃ t v, exec (.idivu rd ra rb) s = .next t ∧ s.Wrote t rd v s.msr ∧
        v.toNat = (s.reg rb).toNat / (s.reg ra).toNat) ∧
      (∃ t v, exec (.idiv rd ra rb) s = .next t ∧ s.Wrote t rd v s.msr ∧
        (¬((s.reg rb).toInt = -2 ^ 31 ∧ (s.reg ra).toInt = -1) →
          v.toInt = Int.tdiv (s.reg rb).toInt (s.reg ra).toInt)))

/-- or, and, xor, andn and their immediate forms complete bit by bit and keep MSR (R180 to R186, R199, R200). -/
def Obligations.LogicalForms : Prop :=
  ∀ (s : State) (rd ra rb : RegNum) (imm : Imm16),
    (∃ t v, exec (.or rd ra rb) s = .next t ∧ s.Wrote t rd v s.msr ∧
      ∀ i, v.getLsbD i = ((s.reg ra).getLsbD i || (s.reg rb).getLsbD i)) ∧
    (∃ t v, exec (.and rd ra rb) s = .next t ∧ s.Wrote t rd v s.msr ∧
      ∀ i, v.getLsbD i = ((s.reg ra).getLsbD i && (s.reg rb).getLsbD i)) ∧
    (∃ t v, exec (.xor rd ra rb) s = .next t ∧ s.Wrote t rd v s.msr ∧
      ∀ i, v.getLsbD i = ((s.reg ra).getLsbD i != (s.reg rb).getLsbD i)) ∧
    (∃ t v, exec (.andn rd ra rb) s = .next t ∧ s.Wrote t rd v s.msr ∧
      ∀ i, v.getLsbD i = ((s.reg ra).getLsbD i && !(s.reg rb).getLsbD i)) ∧
    (∃ t v, exec (.ori rd ra imm) s = .next t ∧ s.Wrote t rd v s.msr ∧
      ∀ i, v.getLsbD i = ((s.reg ra).getLsbD i || (s.imm32 imm).getLsbD i)) ∧
    (∃ t v, exec (.andi rd ra imm) s = .next t ∧ s.Wrote t rd v s.msr ∧
      ∀ i, v.getLsbD i = ((s.reg ra).getLsbD i && (s.imm32 imm).getLsbD i)) ∧
    (∃ t v, exec (.xori rd ra imm) s = .next t ∧ s.Wrote t rd v s.msr ∧
      ∀ i, v.getLsbD i = ((s.reg ra).getLsbD i != (s.imm32 imm).getLsbD i)) ∧
    (∃ t v, exec (.andni rd ra imm) s = .next t ∧ s.Wrote t rd v s.msr ∧
      ∀ i, v.getLsbD i = ((s.reg ra).getLsbD i && !(s.imm32 imm).getLsbD i))

/-- sext8, sext16, sra, src, srl complete; the shifts put the bit shifted out in C (R187 to R191, with R466 for the
carry read). -/
def Obligations.SignExtensionsAndSingleBitShifts : Prop :=
  ∀ (s : State) (rd ra : RegNum),
    (∃ t v, exec (.sext8 rd ra) s = .next t ∧ s.Wrote t rd v s.msr ∧ v.toInt = ((s.reg ra).setWidth 8).toInt) ∧
    (∃ t v, exec (.sext16 rd ra) s = .next t ∧ s.Wrote t rd v s.msr ∧ v.toInt = ((s.reg ra).setWidth 16).toInt) ∧
    (∃ t v, exec (.sra rd ra) s = .next t ∧
      s.Wrote t rd v { s.msr with c := decide ((s.reg ra).toNat % 2 = 1) } ∧ v.toInt = (s.reg ra).toInt / 2) ∧
    (∃ t v, exec (.srl rd ra) s = .next t ∧
      s.Wrote t rd v { s.msr with c := decide ((s.reg ra).toNat % 2 = 1) } ∧ v.toNat = (s.reg ra).toNat / 2) ∧
    (∃ t v c, s.MayRead Msr.c c ∧ exec (.src rd ra) s = .next t ∧
      s.Wrote t rd v { s.msr with c := decide ((s.reg ra).toNat % 2 = 1) } ∧
      v.toNat = c.toNat * 2 ^ 31 + (s.reg ra).toNat / 2)

/-- bsrl, bsra, bsll and bsrli, bsrai, bslli complete with the shift by n when the barrel shifter exists (R192 to
R198). -/
def Obligations.BarrelShifts : Prop :=
  ∀ (s : State) (rd ra rb : RegNum) (amount : BitVec 5), s.cfg.useBarrel = true →
    (∃ t v, exec (.bsrl rd ra rb) s = .next t ∧ s.Wrote t rd v s.msr ∧
      v.toNat = (s.reg ra).toNat / 2 ^ ((s.reg rb).toNat % 32)) ∧
    (∃ t v, exec (.bsra rd ra rb) s = .next t ∧ s.Wrote t rd v s.msr ∧
      v.toInt = (s.reg ra).toInt / 2 ^ ((s.reg rb).toNat % 32)) ∧
    (∃ t v, exec (.bsll rd ra rb) s = .next t ∧ s.Wrote t rd v s.msr ∧
      v.toNat = (s.reg ra).toNat * 2 ^ ((s.reg rb).toNat % 32) % 2 ^ 32) ∧
    (∃ t v, exec (.bsrli rd ra amount) s = .next t ∧ s.Wrote t rd v s.msr ∧
      v.toNat = (s.reg ra).toNat / 2 ^ amount.toNat) ∧
    (∃ t v, exec (.bsrai rd ra amount) s = .next t ∧ s.Wrote t rd v s.msr ∧
      v.toInt = (s.reg ra).toInt / 2 ^ amount.toNat) ∧
    (∃ t v, exec (.bslli rd ra amount) s = .next t ∧ s.Wrote t rd v s.msr ∧
      v.toNat = (s.reg ra).toNat * 2 ^ amount.toNat % 2 ^ 32)

/-- br, bra, bri, brai complete by going to their target at once; brd, brad, brid, braid with it pending (R220 to
R225, R243 to R246; the refusal of a misaligned target is a spec decision (92 D8, log 23)). -/
def Obligations.UnconditionalJumps : Prop :=
  ∀ (s : State) (rb : RegNum) (imm : Imm16), s.ds = none →
    s.Jumps (.br rb) (s.pc + s.reg rb) ∧ s.Jumps (.bra rb) (s.reg rb) ∧
    s.Jumps (.bri imm) (s.pc + s.imm32 imm) ∧ s.Jumps (.brai imm) (s.imm32 imm) ∧
    s.JumpsDelayed (.brd rb) (s.pc + s.reg rb) .none ∧ s.JumpsDelayed (.brad rb) (s.reg rb) .none ∧
    s.JumpsDelayed (.brid imm) (s.pc + s.imm32 imm) .none ∧ s.JumpsDelayed (.braid imm) (s.imm32 imm) .none

/-- brld, brald, brlid, bralid complete with their own address in rD and the target pending (R220, R221, R226, R227,
R247, R248; the order of operand read and link write is log 35). -/
def Obligations.LinkedJumps : Prop :=
  ∀ (s : State) (rd rb : RegNum) (imm : Imm16), s.ds = none →
    s.JumpsLinked (.brld rd rb) rd (s.pc + s.reg rb) ∧ s.JumpsLinked (.brald rd rb) rd (s.reg rb) ∧
    s.JumpsLinked (.brlid rd imm) rd (s.pc + s.imm32 imm) ∧ s.JumpsLinked (.bralid rd imm) rd (s.imm32 imm)

/-- beq, bne, blt, ble, bgt, bge and their i forms complete: to PC + offset when the test of rA holds, else to the
next word (R230 to R236, R249 to R254). -/
def Obligations.ConditionalBranchesPlain : Prop :=
  ∀ (s : State) (ra rb : RegNum) (imm : Imm16), s.ds = none →
    s.Branches (.beq ra rb) ((s.reg ra).toInt = 0) (s.reg rb) ∧
    s.Branches (.bne ra rb) ((s.reg ra).toInt ≠ 0) (s.reg rb) ∧
    s.Branches (.blt ra rb) ((s.reg ra).toInt < 0) (s.reg rb) ∧
    s.Branches (.ble ra rb) ((s.reg ra).toInt ≤ 0) (s.reg rb) ∧
    s.Branches (.bgt ra rb) ((s.reg ra).toInt > 0) (s.reg rb) ∧
    s.Branches (.bge ra rb) ((s.reg ra).toInt ≥ 0) (s.reg rb) ∧
    s.Branches (.beqi ra imm) ((s.reg ra).toInt = 0) (s.imm32 imm) ∧
    s.Branches (.bnei ra imm) ((s.reg ra).toInt ≠ 0) (s.imm32 imm) ∧
    s.Branches (.blti ra imm) ((s.reg ra).toInt < 0) (s.imm32 imm) ∧
    s.Branches (.blei ra imm) ((s.reg ra).toInt ≤ 0) (s.imm32 imm) ∧
    s.Branches (.bgti ra imm) ((s.reg ra).toInt > 0) (s.imm32 imm) ∧
    s.Branches (.bgei ra imm) ((s.reg ra).toInt ≥ 0) (s.imm32 imm)

/-- beqd, bned, bltd, bled, bgtd, bged and their id forms complete: as the plain forms, with a delay slot when taken
(R230, R221, R237 to R242, R255 to R260). -/
def Obligations.ConditionalBranchesDelayed : Prop :=
  ∀ (s : State) (ra rb : RegNum) (imm : Imm16), s.ds = none →
    s.BranchesDelayed (.beqd ra rb) ((s.reg ra).toInt = 0) (s.reg rb) ∧
    s.BranchesDelayed (.bned ra rb) ((s.reg ra).toInt ≠ 0) (s.reg rb) ∧
    s.BranchesDelayed (.bltd ra rb) ((s.reg ra).toInt < 0) (s.reg rb) ∧
    s.BranchesDelayed (.bled ra rb) ((s.reg ra).toInt ≤ 0) (s.reg rb) ∧
    s.BranchesDelayed (.bgtd ra rb) ((s.reg ra).toInt > 0) (s.reg rb) ∧
    s.BranchesDelayed (.bged ra rb) ((s.reg ra).toInt ≥ 0) (s.reg rb) ∧
    s.BranchesDelayed (.beqid ra imm) ((s.reg ra).toInt = 0) (s.imm32 imm) ∧
    s.BranchesDelayed (.bneid ra imm) ((s.reg ra).toInt ≠ 0) (s.imm32 imm) ∧
    s.BranchesDelayed (.bltid ra imm) ((s.reg ra).toInt < 0) (s.imm32 imm) ∧
    s.BranchesDelayed (.bleid ra imm) ((s.reg ra).toInt ≤ 0) (s.imm32 imm) ∧
    s.BranchesDelayed (.bgtid ra imm) ((s.reg ra).toInt > 0) (s.imm32 imm) ∧
    s.BranchesDelayed (.bgeid ra imm) ((s.reg ra).toInt ≥ 0) (s.imm32 imm)

/-- rtsd, rtid, rtbd complete with rA + IMM32 pending and their MSR change for the end of the slot (R261, R317, R318).
-/
def Obligations.Returns : Prop :=
  ∀ (s : State) (ra : RegNum) (imm : Imm16), s.ds = none →
    s.JumpsDelayed (.rtsd ra imm) (s.reg ra + s.imm32 imm) .none ∧
    s.JumpsDelayed (.rtid ra imm) (s.reg ra + s.imm32 imm) .setIE ∧
    s.JumpsDelayed (.rtbd ra imm) (s.reg ra + s.imm32 imm) .clearBIP

/-- An instruction in a delay slot ends at the pending target with the pending MSR change (R221: the slot instruction
executes once, then control is at the target). -/
def Obligations.DelaySlotEnds : Prop :=
  ∀ (i : Instr) (s t : State) (d : Delayed), s.ds = some d → exec i s = .next t → t ≠ s →
    t.pc = d.target ∧ t.ds = none ∧ (d.act = .setIE → t.msr.ie = true) ∧ (d.act = .clearBIP → t.msr.bip = false)

/-- Every branch, return, brk, brki and imm in a delay slot is refused, whatever its operands (R221's refusal (92 D13,
log 22)). -/
def Obligations.TransferInDelaySlotRefused : Prop :=
  ∀ (i : Instr) (s : State), Instr.isTransfer i = true → s.ds.isSome = true → exec i s = .refused .branchInDelaySlot

/-- The address of an access is the sum rounded down to the access size (R67, R68, R280; that the sum wraps is the
spec's decision (R11, 92 D30; log 36)). -/
def Obligations.EffectiveAddress : Prop :=
  ∀ (n : Size) (base offset : Word),
    effective n base offset = (base + offset).toNat / n.bytes * n.bytes ∧
    effective n base offset + n.bytes ≤ 2 ^ 32

/-- lbu, lhu, lw, lbui, lhui, lwi complete wherever storage answers, with a zero-extended value and no other effect
(R280, R282 to R284, R288 to R290 with R70; R38 for the buslock output (log 13)). -/
def Obligations.LoadsComplete : Prop :=
  ∀ (s : State) (n : Size) (rd : RegNum) (i : Instr) (base offset : Word), IsLoad s n rd i base offset →
    s.answers n (effective n base offset) →
    ∃ t v, exec i s = .next t ∧ s.OneReg t rd v ∧ v.toNat < 2 ^ (8 * n.bytes) ∧
      s.Moved t s.following none (s.afterSlot s.msr) ∧ s.SameInputs t ∧ s.SameMemory t ∧ s.SameQueues t ∧
      t.devLog = s.devLog ∧ t.icache = s.icache ∧ (t.busLocked = s.busLocked ∨ s.MayRead Msr.be t.busLocked) ∧
      (s.bypassesD (effective n base offset) → s.MayRead Msr.be t.busLocked ∧
        t.dcache = s.dcache ∧ v = Memory.readSize s.mem n (effective n base offset))

/-- Loads through the data cache: a hit answers the line's word, a miss memory's, and only an unlocked line is
refilled (R92, R94, R95; that an unwritten line stays unwritten after the load (log 26), and that a narrow load of
memory of width 1 or 2 may refill the whole word (log 52), are the model's choices). -/
def Obligations.LoadThroughDataCache : Prop :=
  ∀ (s : State) (n : Size) (rd : RegNum) (i : Instr) (base offset : Word), IsLoad s n rd i base offset →
    s.answers n (effective n base offset) → s.cachesD (effective n base offset) →
    ∃ t, exec i s = .next t ∧
      match Assoc.find s.dcache (CacheConfig.lineOf s.cfg.dcache (effective n base offset)) with
      | none => t.dcache = s.dcache
      | some l =>
        if l.hits (CacheConfig.tagOf s.cfg.dcache (effective n base offset)) then
          (∃ v, s.OneReg t rd v ∧ v.toNat =
            l.data.toNat / 2 ^ (8 * (4 - n.bytes - effective n base offset % 4)) % 2 ^ (8 * n.bytes)) ∧
          t.dcache = s.dcache ∧ t.busLocked = s.busLocked
        else
          s.OneReg t rd (Memory.readSize s.mem n (effective n base offset)) ∧ s.MayRead Msr.be t.busLocked ∧
          (t.dcache = s.dcache ∨
            l.lock = false ∧ ∀ k, Assoc.find t.dcache k =
              if k = CacheConfig.lineOf s.cfg.dcache (effective n base offset) then
                some ⟨CacheConfig.tagOf s.cfg.dcache (effective n base offset), true, false,
                  Memory.readWord s.mem (effective n base offset / 4 * 4)⟩
              else Assoc.find s.dcache k)

/-- sb, sh, sw, sbi, shi, swi complete wherever storage answers: the low bytes of rD at the address, every other byte
as before (R280, R281, R285 to R287, R291 to R293 with R71). -/
def Obligations.StoresComplete : Prop :=
  ∀ (s : State) (n : Size) (rd : RegNum) (i : Instr) (base offset : Word), IsStore s n rd i base offset →
    Memory.wf s.mem = true → s.answers n (effective n base offset) →
    ∃ t, exec i s = .next t ∧ s.SameRegs t ∧ s.Moved t s.following none (s.afterSlot s.msr) ∧ s.SameInputs t ∧
      s.SameQueues t ∧ t.icache = s.icache ∧ t.devLog = s.devLog ∧ t.imem = s.imem ∧
      s.MayRead Msr.be t.busLocked ∧
      (∀ x, Memory.read t.mem x =
        if effective n base offset ≤ x ∧ x < effective n base offset + n.bytes then
          byteOfWord (s.reg rd) (4 - n.bytes + (x - effective n base offset))
        else Memory.read s.mem x) ∧
      (s.bypassesD (effective n base offset) → t.dcache = s.dcache)

/-- Stores update a hit line, may allocate an unlocked line on a word miss, and otherwise leave the data cache alone
(R93 (92 D21, log 27); that an unwritten line stays unwritten after a store is the model's choice, R95 leaving it open
(log 26)). -/
def Obligations.StoreThroughDataCache : Prop :=
  ∀ (s : State) (n : Size) (rd : RegNum) (i : Instr) (base offset : Word), IsStore s n rd i base offset →
    s.answers n (effective n base offset) → s.cachesD (effective n base offset) →
    ∃ t, exec i s = .next t ∧
      match Assoc.find s.dcache (CacheConfig.lineOf s.cfg.dcache (effective n base offset)) with
      | none => t.dcache = s.dcache
      | some l =>
        if l.hits (CacheConfig.tagOf s.cfg.dcache (effective n base offset)) then
          ∃ d, (∀ k, k < 4 → byteOfWord d k =
              if effective n base offset % 4 ≤ k ∧ k < effective n base offset % 4 + n.bytes then
                byteOfWord (s.reg rd) (4 - n.bytes + (k - effective n base offset % 4))
              else byteOfWord l.data k) ∧
            ∀ k, Assoc.find t.dcache k =
              if k = CacheConfig.lineOf s.cfg.dcache (effective n base offset) then some { l with data := d }
              else Assoc.find s.dcache k
        else
          t.dcache = s.dcache ∨
            n = .word ∧ l.lock = false ∧ ∀ k, Assoc.find t.dcache k =
              if k = CacheConfig.lineOf s.cfg.dcache (effective n base offset) then
                some ⟨CacheConfig.tagOf s.cfg.dcache (effective n base offset), true, false, s.reg rd⟩
              else Assoc.find s.dcache k

/-- With DCE = 1 every instruction and every step keeps each valid data-cache line equal to memory (R93's invariant 'a
valid line equals memory'; an instruction that leaves MSR alone keeps every premise; a refill in memory of width 1 or
2 is the model's choice (log 52)). -/
def Obligations.WriteThroughKeepsCacheCoherent : Prop :=
  (∀ (i : Instr) (s t : State), Config.valid s.cfg = true → Memory.wf s.mem = true →
      s.cfg.dcache.base % 4 = 0 → s.cfg.dcache.high % 4 = 3 → s.window = none → s.msr.dce = true →
      (∀ n rd base offset r, IsLoad s n rd i base offset ∨ IsStore s n rd i base offset →
        CacheConfig.cacheable s.cfg.dcache (effective n base offset) = true →
        Config.dataRegion s.cfg n (effective n base offset) = some r → r.kind ≠ .device) →
      s.Coherent → exec i s = .next t →
      t.Coherent ∧ Memory.wf t.mem = true ∧ t.cfg = s.cfg ∧
        (Instr.writesMsr i = false → t.window = none ∧ t.msr.dce = true)) ∧
    (∀ (s t : State), Memory.wf s.mem = true → s.cfg.dcache.base % 4 = 0 → s.cfg.dcache.high % 4 = 3 →
      s.window = none → s.msr.dce = true →
      (∀ n a r, CacheConfig.cacheable s.cfg.dcache a = true → Config.dataRegion s.cfg n a = some r → r.kind ≠ .device) →
      s.Coherent → step s = .next t → t.Coherent ∧ Memory.wf t.mem = true ∧ t.cfg = s.cfg)

/-- A load or store that reaches a device is one recorded transfer of its size and address (R76, R92; the data a
device answers is free (log 25), and what a refill from it holds besides is the model's choice (log 27)). -/
def Obligations.DeviceTransfers : Prop :=
  ∀ (s : State) (n : Size) (rd : RegNum) (i : Instr) (base offset : Word) (r : Region),
    Config.dataRegion s.cfg n (effective n base offset) = some r → r.kind = .device →
    (s.bypassesD (effective n base offset) → IsLoad s n rd i base offset →
      ∃ t v be, s.MayRead Msr.be be ∧ exec i s = .next t ∧ s.OneReg t rd v ∧ v.toNat < 2 ^ (8 * n.bytes) ∧
        s.Moved t s.following none (s.afterSlot s.msr) ∧ s.SameInputs t ∧ s.SameMemory t ∧ s.SameCaches t ∧
        s.SameQueues t ∧ t.busLocked = be ∧ t.devLog = ⟨effective n base offset, n.bytes, none, be⟩ :: s.devLog) ∧
    (s.bypassesD (effective n base offset) → IsStore s n rd i base offset →
      ∃ t be, s.MayRead Msr.be be ∧ exec i s = .next t ∧ s.SameRegs t ∧
        s.Moved t s.following none (s.afterSlot s.msr) ∧ s.SameInputs t ∧ s.SameMemory t ∧ s.SameCaches t ∧
        s.SameQueues t ∧ t.busLocked = be ∧
        t.devLog = ⟨effective n base offset, n.bytes, some (BitVec.ofNat 32 ((s.reg rd).toNat % 2 ^ (8 * n.bytes))), be⟩
          :: s.devLog) ∧
    (s.cachesD (effective n base offset) → IsLoad s n rd i base offset →
      ∀ l, Assoc.find s.dcache (CacheConfig.lineOf s.cfg.dcache (effective n base offset)) = some l →
      l.hits (CacheConfig.tagOf s.cfg.dcache (effective n base offset)) = false →
      ∃ t v be, s.MayRead Msr.be be ∧ exec i s = .next t ∧ s.OneReg t rd v ∧ v.toNat < 2 ^ (8 * n.bytes) ∧
        s.Moved t s.following none (s.afterSlot s.msr) ∧ s.SameInputs t ∧ s.SameMemory t ∧ s.SameQueues t ∧
        t.icache = s.icache ∧ t.busLocked = be ∧
        t.devLog = ⟨effective n base offset, n.bytes, none, be⟩ :: s.devLog ∧
        (t.dcache = s.dcache ∨
          l.lock = false ∧ ∃ d : Word,
            d.toNat / 2 ^ (8 * (4 - n.bytes - effective n base offset % 4)) % 2 ^ (8 * n.bytes) = v.toNat ∧
            ∀ k, Assoc.find t.dcache k =
              if k = CacheConfig.lineOf s.cfg.dcache (effective n base offset) then
                some ⟨CacheConfig.tagOf s.cfg.dcache (effective n base offset), true, false, d⟩
              else Assoc.find s.dcache k))

/-- A load, store or fetch that nothing answers, or wider than what answers, is refused as unmappedAccess (R85, R77
(92 D25, D32; log 24)). -/
def Obligations.UnansweredAccessRefused : Prop :=
  ∀ (s : State) (n : Size) (rd : RegNum) (i : Instr) (base offset : Word),
    (IsLoad s n rd i base offset ∨ IsStore s n rd i base offset →
      Config.dataRegion s.cfg n (effective n base offset) = none → s.bypassesD (effective n base offset) →
      exec i s = .refused .unmappedAccess) ∧
      (aligned s.pc = true → s.stale s.pc.toNat = false → s.bypassesI s.pc.toNat →
        Config.instrRegion s.cfg s.pc.toNat = none → s.fetchWord = .refused .unmappedAccess)

/-- Words, halfwords and bytes lie in memory most significant byte first, and read back so (R62, as its table lays the
three types out, and the mixed widths that follow from it). -/
def Obligations.StoredBytesReadBack : Prop :=
  (∀ (m : Memory) (n : Size) (a : Nat) (v : Word), Memory.wf m = true → a % n.bytes = 0 → a + n.bytes ≤ 2 ^ 32 →
      ∀ k, k < n.bytes →
        (Memory.read (Memory.writeSize m n a v) (a + k)).toNat = v.toNat / 2 ^ (8 * (n.bytes - 1 - k)) % 2 ^ 8) ∧
    (∀ (m : Memory) (a : Nat),
      (Memory.readSize m .byte a).toNat = (Memory.read m a).toNat ∧
      (Memory.readSize m .half a).toNat = (Memory.read m a).toNat * 2 ^ 8 + (Memory.read m (a + 1)).toNat ∧
      (Memory.readSize m .word a).toNat = (Memory.read m a).toNat * 2 ^ 24 + (Memory.read m (a + 1)).toNat * 2 ^ 16
        + (Memory.read m (a + 2)).toNat * 2 ^ 8 + (Memory.read m (a + 3)).toNat) ∧
    ∀ (m : Memory) (a : Nat) (v w : Word), Memory.wf m = true → a % 4 = 0 → a + 4 ≤ 2 ^ 32 →
      Memory.readWord (Memory.writeSize m .word a v) a = v ∧
      (Memory.readSize (Memory.writeSize m .word a v) .half a).toNat = v.toNat / 2 ^ 16 ∧
      (Memory.readSize (Memory.writeSize m .word a v) .half (a + 2)).toNat = v.toNat % 2 ^ 16 ∧
      (∀ k, k < 4 → (Memory.readSize (Memory.writeSize m .word a v) .byte (a + k)).toNat
        = v.toNat / 2 ^ (24 - 8 * k) % 2 ^ 8) ∧
      (Memory.readWord (Memory.writeSize (Memory.writeSize m .word a v) .half a w) a).toNat
        = w.toNat % 2 ^ 16 * 2 ^ 16 + v.toNat % 2 ^ 16 ∧
      (Memory.readWord (Memory.writeSize (Memory.writeSize m .word a v) .byte (a + 3) w) a).toNat
        = v.toNat / 2 ^ 8 * 2 ^ 8 + w.toNat % 2 ^ 8

/-- imm completes by locking its value; nothing else changes but the PC (R310, R43). -/
def Obligations.ImmPrefixLocks : Prop :=
  ∀ (s : State) (v : Imm16), s.ds = none →
    ∃ t, exec (.imm v) s = .next t ∧ t.imm = some v ∧ t.pc = s.pc + 4#32 ∧ t.ds = none ∧ t.window = none ∧
      t.msr = s.msr ∧ s.SameRegs t ∧ s.SameOutside t

/-- No instruction but imm leaves the imm lock set when it completes (R43: every other instruction clears IMM_LOCK).
-/
def Obligations.OnlyImmLeavesTheLock : Prop :=
  ∀ (i : Instr) (s t : State) (v : Imm16), exec i s = .next t → t ≠ s → t.imm = some v → i = .imm v

/-- mfs completes: rpc gives its own address, rmsr gives MSR as read (R311, R466). -/
def Obligations.ReadSpecialRegister : Prop :=
  ∀ (s : State) (rd : RegNum),
    (∃ t, exec (.mfs rd .rpc) s = .next t ∧ s.Wrote t rd s.pc s.msr) ∧
    (∃ t m, s.MayReadMsr m ∧ exec (.mfs rd .rmsr) s = .next t ∧ s.Wrote t rd m.toWord s.msr)

/-- MSR as a word: each bit at its place on reading, exactly the low eight kept on writing, the carry copied to the
top (R28, R29, R39, R40; the zeros of the reserved bits are the spec's choice (92 D4, log 32)). -/
def Obligations.MsrWordLayout : Prop :=
  (∀ (m : Msr), m.toWord.toNat = 2 ^ 31 * m.c.toNat + 128 * m.dce.toNat + 64 * m.dz.toNat + 32 * m.ice.toNat
      + 16 * m.fsl.toNat + 8 * m.bip.toNat + 4 * m.c.toNat + 2 * m.ie.toNat + m.be.toNat) ∧
    ∀ (w : Word), (Msr.ofWord w).toWord.toNat = w.toNat % 256 + (if w.toNat / 4 % 2 = 1 then 2 ^ 31 else 0)

/-- mts rmsr completes: MSR takes rA's low bits, and the write window opens with the old value (R312, R40, R466; the
two refusals are spec decisions (log 42)). -/
def Obligations.MtsCompletes : Prop :=
  ∀ (s : State) (ra : RegNum),
    ((∀ d, s.ds = some d → d.act = .none) →
      ∃ t, exec (.mts ra .rmsr) s = .next t ∧ t.msr = Msr.ofWord (s.reg ra) ∧ t.window = some s.msr ∧
        t.pc = s.following ∧ t.ds = none ∧ t.imm = none ∧ s.SameRegs t ∧ s.SameOutside t) ∧
    (∀ d, s.ds = some d → d.act ≠ .none → exec (.mts ra .rmsr) s = .refused .msrWriteInReturnSlot) ∧
    exec (.mts ra .rpc) s = .refused .mtsToPC

/-- msrset and msrclr complete: rD gets MSR as read, MSR its bits set or cleared (R313, R314, R466 (log 13, 31, 42);
inside an open window MSR changes on top of the stored value, R466 point 3 (log 49)). -/
def Obligations.MsrSetAndClear : Prop :=
  ∀ (s : State) (rd : RegNum) (imm : Imm16) (mask : Word), s.cfg.useMsrInstr = true →
    mask = (if s.cfg.msrEncoding = .printed then s.imm32 imm else imm.setWidth 32) →
    ((∀ d, s.ds = some d → d.act = .none) →
      (∃ t m, s.MayReadMsr m ∧ exec (.msrset rd imm) s = .next t ∧ s.OneReg t rd m.toWord ∧
        t.msr = Msr.ofWord (s.msr.toWord ||| mask) ∧ t.window = some s.msr ∧ t.pc = s.following ∧ t.ds = none ∧
        t.imm = none ∧ s.SameOutside t) ∧
      (∃ t m, s.MayReadMsr m ∧ exec (.msrclr rd imm) s = .next t ∧ s.OneReg t rd m.toWord ∧
        t.msr = Msr.ofWord (s.msr.toWord &&& ~~~mask) ∧ t.window = some s.msr ∧ t.pc = s.following ∧
        t.ds = none ∧ t.imm = none ∧ s.SameOutside t)) ∧
    (∀ d, s.ds = some d → d.act ≠ .none →
      exec (.msrset rd imm) s = .refused .msrWriteInReturnSlot ∧
      exec (.msrclr rd imm) s = .refused .msrWriteInReturnSlot)

/-- brk and brki complete: own address in rD, BIP set, on to the absolute target (R315, R316). -/
def Obligations.SoftwareBreaks : Prop :=
  ∀ (s : State) (rd rb : RegNum) (imm : Imm16), s.ds = none →
    ((s.reg rb).toNat % 4 = 0 →
      ∃ t, exec (.brk rd rb) s = .next t ∧ s.Linked t rd (s.reg rb) none { s.msr with bip := true }) ∧
    ((s.reg rb).toNat % 4 ≠ 0 → exec (.brk rd rb) s = .refused .misalignedFetch) ∧
    ((s.imm32 imm).toNat % 4 = 0 →
      ∃ t, exec (.brki rd imm) s = .next t ∧ s.Linked t rd (s.imm32 imm) none { s.msr with bip := true }) ∧
    ((s.imm32 imm).toNat % 4 ≠ 0 → exec (.brki rd imm) s = .refused .misalignedFetch)

/-- wic and wdc complete with the cache off: one line gets tag, valid, lock and data; with it on they are refused
(R319, R320 with the geometry of R88). -/
def Obligations.CacheLineWrites : Prop :=
  ∀ (s : State) (ra rb : RegNum),
    (s.cfg.icache.use = true → s.cfg.icache.allowWrite = true →
      ((∀ b, s.MayRead Msr.ice b → b = false) →
        ∃ t, exec (.wic ra rb) s = .next t ∧ s.SameRegs t ∧ s.Moved t s.following none (s.afterSlot s.msr) ∧
          s.SameInputs t ∧ s.SameStorage t ∧ s.SameQueues t ∧ t.dcache = s.dcache ∧
          ∀ k, Assoc.find t.icache k =
            if k = CacheConfig.lineOf s.cfg.icache (s.reg ra).toNat then
              some ⟨CacheConfig.tagOf s.cfg.icache (s.reg ra).toNat, (s.reg ra).getLsbD 1, (s.reg ra).getLsbD 0, s.reg rb⟩
            else Assoc.find s.icache k) ∧
      ((∀ b, s.MayRead Msr.ice b → b = true) → exec (.wic ra rb) s = .refused .cacheWriteWhileEnabled)) ∧
    (s.cfg.dcache.use = true → s.cfg.dcache.allowWrite = true →
      ((∀ b, s.MayRead Msr.dce b → b = false) →
        ∃ t, exec (.wdc ra rb) s = .next t ∧ s.SameRegs t ∧ s.Moved t s.following none (s.afterSlot s.msr) ∧
          s.SameInputs t ∧ s.SameStorage t ∧ s.SameQueues t ∧ t.icache = s.icache ∧
          ∀ k, Assoc.find t.dcache k =
            if k = CacheConfig.lineOf s.cfg.dcache (s.reg ra).toNat then
              some ⟨CacheConfig.tagOf s.cfg.dcache (s.reg ra).toNat, (s.reg ra).getLsbD 1, (s.reg ra).getLsbD 0, s.reg rb⟩
            else Assoc.find s.dcache k) ∧
      ((∀ b, s.MayRead Msr.dce b → b = true) → exec (.wdc ra rb) s = .refused .cacheWriteWhileEnabled))

/-- get, cget, nget, ncget complete on a channel with an item: rD, the error bit, C = 0 for the non-blocking (R341 to
R344, R349). -/
def Obligations.GetTakesTheHead : Prop :=
  ∀ (s : State) (rd : RegNum) (ch : Channel) (x : FslItem) (q : List FslItem), ch.toNat < s.cfg.fslLinks →
    s.inQueue ch = x :: q →
    ∀ (i : Instr) (m : Msr),
      (i = .get rd ch ∧ m = { s.msr with fsl := x.control }) ∨
      (i = .cget rd ch ∧ m = { s.msr with fsl := !x.control }) ∨
      (i = .nget rd ch ∧ m = { s.msr with fsl := x.control, c := false }) ∨
      (i = .ncget rd ch ∧ m = { s.msr with fsl := !x.control, c := false }) →
      ∃ t, exec i s = .next t ∧ s.OneReg t rd x.data ∧ s.Moved t s.following none (s.afterSlot m) ∧
        s.SameInputs t ∧ s.SameStorage t ∧ s.SameCaches t ∧ t.outQ = s.outQ ∧
        t.inQueue ch = q ∧ ∀ k, k ≠ ch → t.inQueue k = s.inQueue k

/-- put, cput, nput, ncput complete on a channel with room: the item is appended, C = 0 for the non-blocking (R345 to
R349). -/
def Obligations.PutAppendsAnItem : Prop :=
  ∀ (s : State) (ra : RegNum) (ch : Channel), ch.toNat < s.cfg.fslLinks → (s.outQueue ch).length < s.cfg.fslDepth →
    ∀ (i : Instr) (ctl : Bool) (m : Msr),
      (i = .put ra ch ∧ ctl = false ∧ m = s.msr) ∨ (i = .cput ra ch ∧ ctl = true ∧ m = s.msr) ∨
      (i = .nput ra ch ∧ ctl = false ∧ m = { s.msr with c := false }) ∨
      (i = .ncput ra ch ∧ ctl = true ∧ m = { s.msr with c := false }) →
      ∃ t, exec i s = .next t ∧ s.SameRegs t ∧ s.Moved t s.following none (s.afterSlot m) ∧
        s.SameInputs t ∧ s.SameStorage t ∧ s.SameCaches t ∧ t.inQ = s.inQ ∧
        t.outQueue ch = s.outQueue ch ++ [⟨s.reg ra, ctl⟩] ∧ ∀ k, k ≠ ch → t.outQueue k = s.outQueue k

/-- nget, ncget on an empty channel and nput, ncput on a full one complete with C = 1 and nothing transferred (R342,
R344, R346, R348; rD and the error bit after an empty get are free (92 D22, log 12)). -/
def Obligations.NonBlockingFslFailure : Prop :=
  ∀ (s : State) (r : RegNum) (ch : Channel), ch.toNat < s.cfg.fslLinks →
    (s.inQueue ch = [] →
      (∃ t v b, exec (.nget r ch) s = .next t ∧ s.Wrote t r v { s.msr with fsl := b, c := true }) ∧
      (∃ t v b, exec (.ncget r ch) s = .next t ∧ s.Wrote t r v { s.msr with fsl := b, c := true })) ∧
    ((s.outQueue ch).length = s.cfg.fslDepth →
      (∃ t, exec (.nput r ch) s = .next t ∧ s.Went t s.following none (s.afterSlot { s.msr with c := true })) ∧
      (∃ t, exec (.ncput r ch) s = .next t ∧ s.Went t s.following none (s.afterSlot { s.msr with c := true })))

/-- A blocking get on an empty channel and a blocking put on a full one wait, and nothing of them happens (R350). -/
def Obligations.BlockingFslWaits : Prop :=
  ∀ (s : State) (r : RegNum) (ch : Channel), ch.toNat < s.cfg.fslLinks →
    (s.inQueue ch = [] → exec (.get r ch) s = .next s ∧ exec (.cget r ch) s = .next s) ∧
    ((s.outQueue ch).length = s.cfg.fslDepth → exec (.put r ch) s = .next s ∧ exec (.cput r ch) s = .next s)

/-- An instruction of an absent option is refused as an illegal encoding, whatever its operands (R120's refusals (92
D7, log 29)). -/
def Obligations.AbsentOptionsRefused : Prop :=
  ∀ (s : State) (rd ra rb : RegNum) (imm : Imm16) (n : BitVec 5) (ch : Channel) (i : Instr),
    (s.cfg.hasMul = false ∧ (i = .mul rd ra rb ∨ i = .muli rd ra imm)) ∨
    (s.cfg.useDiv = false ∧ (i = .idiv rd ra rb ∨ i = .idivu rd ra rb)) ∨
    (s.cfg.useBarrel = false ∧ (i = .bsrl rd ra rb ∨ i = .bsra rd ra rb ∨ i = .bsll rd ra rb ∨
      i = .bsrli rd ra n ∨ i = .bsrai rd ra n ∨ i = .bslli rd ra n)) ∨
    (s.cfg.fslLinks ≤ ch.toNat ∧ (i = .get rd ch ∨ i = .nget rd ch ∨ i = .cget rd ch ∨ i = .ncget rd ch ∨
      i = .put ra ch ∨ i = .nput ra ch ∨ i = .cput ra ch ∨ i = .ncput ra ch)) ∨
    ((s.cfg.icache.use = false ∨ s.cfg.icache.allowWrite = false) ∧ i = .wic ra rb) ∨
    ((s.cfg.dcache.use = false ∨ s.cfg.dcache.allowWrite = false) ∧ i = .wdc ra rb) ∨
    (s.cfg.useMsrInstr = false ∧ (i = .msrset rd imm ∨ i = .msrclr rd imm)) →
    exec i s = .refused .illegalEncoding

/-- No instruction but the six stores changes a byte of memory (R73). -/
def Obligations.OnlyStoresChangeMemory : Prop :=
  ∀ (i : Instr) (s t : State), exec i s = .next t →
    (Instr.isStore i = false → ∀ a, Memory.read t.mem a = Memory.read s.mem a) ∧
    ∀ a, Memory.read t.imem a = Memory.read s.imem a

/-- No instruction changes a register other than the one its rD field names as destination (R21, R281: no instruction
has a second destination). -/
def Obligations.OnlyTheDestinationRegisterChanges : Prop :=
  ∀ (i : Instr) (s t : State), exec i s = .next t → ∀ r, Instr.dest i ≠ some r → t.reg r = s.reg r

/-- Each MSR field changes only by the instructions listed for it (R41's table, for instructions). -/
def Obligations.MsrWriters : Prop :=
  ∀ (i : Instr) (s t : State), exec i s = .next t → Instr.writesMsr i = false →
    t.msr.dce = s.msr.dce ∧ t.msr.ice = s.msr.ice ∧ t.msr.be = s.msr.be ∧
    (t.msr.c = s.msr.c ∨ Instr.writesC i = true) ∧
    (t.msr.dz = s.msr.dz ∨ (Instr.divides i = true ∧ t.msr.dz = true)) ∧
    (t.msr.fsl = s.msr.fsl ∨ Instr.writesFsl i = true) ∧
    (t.msr.bip = s.msr.bip ∨ (Instr.breaks i = true ∧ t.msr.bip = true) ∨
      ((∃ d, s.ds = some d ∧ d.act = .clearBIP) ∧ t.msr.bip = false)) ∧
    (t.msr.ie = s.msr.ie ∨ ((∃ d, s.ds = some d ∧ d.act = .setIE) ∧ t.msr.ie = true))

/-- The core only removes heads of input queues and only appends to output queues (R340: word order is preserved per
channel). -/
def Obligations.FslOrderPreserved : Prop :=
  ∀ (i : Instr) (s t : State), exec i s = .next t → ∀ ch : Channel,
    (t.inQueue ch = s.inQueue ch ∨ (Instr.writesFsl i = true ∧ ∃ x, s.inQueue ch = x :: t.inQueue ch)) ∧
    (t.outQueue ch = s.outQueue ch ∨ (Instr.puts i = true ∧ ∃ x, t.outQueue ch = s.outQueue ch ++ [x]))

/-- With no event and no cache between, a step runs the instruction whose bytes stand at the PC (R405's last line with
R72 and R63). -/
def Obligations.StepRunsDecodedInstruction : Prop :=
  ∀ (s : State), Config.valid s.cfg = true → s.quiet → aligned s.pc = true → s.stale s.pc.toNat = false →
    s.bypassesI s.pc.toNat → s.fetches s.pc.toNat →
    (∀ i, decodeWord s.cfg (Memory.readWord (s.instrStorage s.pc.toNat) s.pc.toNat) = .ok i → step s = exec i s) ∧
    (∀ e, decodeWord s.cfg (Memory.readWord (s.instrStorage s.pc.toNat) s.pc.toNat) = .error e →
      step s = .refused .illegalEncoding)

/-- Without reset and stop a step takes the event the boundary selects, or runs the fetched instruction (R405). -/
def Obligations.StepIsEventOrInstruction : Prop :=
  ∀ (s : State), Config.valid s.cfg = true → s.rst = false →
    (s.stopped = true → step s = .next s) ∧
    (s.stopped = false →
      (s.pollEvents.1 = true ∧ step s = .next s.pollEvents.2) ∨
      (s.pollEvents.1 = false ∧ ∀ w u, s.pollEvents.2.fetchWord = .next (w, u) →
        (∀ i, decodeWord u.cfg w = .ok i → step s = exec i u) ∧
        (∀ e, decodeWord u.cfg w = .error e → step s = .refused .illegalEncoding)))

/-- A fetch through the instruction cache: a hit answers the line, a miss memory and fills an unlocked line (R90, R94,
R95; that an unwritten line stays unwritten after the fetch is the model's choice (log 26)). -/
def Obligations.FetchThroughInstructionCache : Prop :=
  ∀ (s : State), aligned s.pc = true → s.stale s.pc.toNat = false → s.window = none → s.fetches s.pc.toNat →
    (CacheConfig.cacheable s.cfg.icache s.pc.toNat = false ∨ s.msr.ice = false →
      s.fetchWord = .next (Memory.readWord (s.instrStorage s.pc.toNat) s.pc.toNat, s)) ∧
    (CacheConfig.cacheable s.cfg.icache s.pc.toNat = true → s.msr.ice = true →
      match Assoc.find s.icache (CacheConfig.lineOf s.cfg.icache s.pc.toNat) with
      | none => ∃ w u, s.fetchWord = .next (w, u) ∧ u.icache = s.icache
      | some l =>
        if l.hits (CacheConfig.tagOf s.cfg.icache s.pc.toNat) then s.fetchWord = .next (l.data, s)
        else
          ∃ u, s.fetchWord = .next (Memory.readWord (s.instrStorage s.pc.toNat) s.pc.toNat, u) ∧ s.SameRegs u ∧ u.mem = s.mem ∧
            ∀ k, Assoc.find u.icache k =
              if k = CacheConfig.lineOf s.cfg.icache s.pc.toNat ∧ l.lock = false then
                some ⟨CacheConfig.tagOf s.cfg.icache s.pc.toNat, true, false,
                  Memory.readWord (s.instrStorage s.pc.toNat) s.pc.toNat⟩
              else Assoc.find s.icache k)

/-- Without the platform's promise a word stored to is never fetched until reset: staleFetch (R87 (92 D20, log 28)).
-/
def Obligations.FetchOfStoredWordRefused : Prop :=
  (∀ (s t : State) (n : Size) (rd : RegNum) (i : Instr) (base offset : Word), IsStore s n rd i base offset →
      s.answers n (effective n base offset) → Config.sharedID s.cfg (effective n base offset) = true →
      exec i s = .next t → t.recorded (effective n base offset)) ∧
    (∀ (s t : State) (a : Nat), s.recorded a → s.rst = false → step s = .next t → t.recorded a) ∧
    (∀ (s : State) (h : HostAction) (a : Nat), s.recorded a → (s.host h).recorded a) ∧
    (∀ (s : State), s.recorded s.pc.toNat → s.cfg.ifetchCoherent = false → aligned s.pc = true →
      s.fetchWord = .refused .staleFetch)

/-- Interrupt entry: r14 <- PC, PC <- 0x10, IE <- 0, in edge mode the latch cleared, nothing else (R413; the edge
latch and its clearing are the spec's decision (92 D17, log 16)). -/
def Obligations.InterruptEntry : Prop :=
  ∀ (s : State), s.takeInterrupt.pc = 0x10#32 ∧ s.OneReg s.takeInterrupt 14#5 s.pc ∧ s.takeInterrupt.msr = { s.msr with ie := false } ∧
    s.takeInterrupt.imm = s.imm ∧ s.takeInterrupt.ds = s.ds ∧
    s.SameStorage s.takeInterrupt ∧ s.SameCaches s.takeInterrupt ∧ s.SameQueues s.takeInterrupt ∧
    s.takeInterrupt.nm = s.nm ∧ s.takeInterrupt.brk = s.brk ∧ s.takeInterrupt.exc = s.exc ∧
    s.takeInterrupt.intPin = s.intPin ∧
    s.takeInterrupt.intLatch = if s.cfg.interruptIsEdge then false else s.intLatch

/-- Ext_BRK entry: r16 <- PC, PC <- 0x18, BIP <- 1, the request cleared, nothing else (R417; the posted request and
its clearing are the spec's decision (92 D17, log 17)). -/
def Obligations.BreakEntry : Prop :=
  ∀ (s : State), s.takeBreak.pc = 0x18#32 ∧ s.OneReg s.takeBreak 16#5 s.pc ∧ s.takeBreak.msr = { s.msr with bip := true } ∧
    s.takeBreak.imm = s.imm ∧ s.takeBreak.ds = s.ds ∧
    s.SameStorage s.takeBreak ∧ s.SameCaches s.takeBreak ∧ s.SameQueues s.takeBreak ∧
    s.takeBreak.brk = false ∧ s.takeBreak.nm = s.nm ∧ s.takeBreak.exc = s.exc ∧ s.takeBreak.intPin = s.intPin ∧
    s.takeBreak.intLatch = s.intLatch

/-- Ext_NM_BRK entry is that of Ext_BRK; exception entry: r17 <- PC, PC <- 0x08; every entry closes the write window
(R418, R421 (92 D17, D18; log 17, 18); the window's closing is R466 point 3 (log 13)). -/
def Obligations.NonMaskableBreakAndExceptionEntry : Prop :=
  ∀ (s : State), (s.takeNmBreak.pc = 0x18#32 ∧ s.OneReg s.takeNmBreak 16#5 s.pc ∧ s.takeNmBreak.msr = { s.msr with bip := true } ∧
    s.takeNmBreak.imm = s.imm ∧ s.takeNmBreak.ds = s.ds ∧
    s.SameStorage s.takeNmBreak ∧ s.SameCaches s.takeNmBreak ∧ s.SameQueues s.takeNmBreak ∧
    s.takeNmBreak.nm = false ∧ s.takeNmBreak.brk = s.brk ∧ s.takeNmBreak.exc = s.exc ∧
    s.takeNmBreak.intPin = s.intPin ∧ s.takeNmBreak.intLatch = s.intLatch) ∧
    (s.takeException.pc = 0x08#32 ∧ s.OneReg s.takeException 17#5 s.pc ∧ s.takeException.msr = s.msr ∧
    s.takeException.imm = s.imm ∧ s.takeException.ds = s.ds ∧
    s.SameStorage s.takeException ∧ s.SameCaches s.takeException ∧ s.SameQueues s.takeException ∧
    s.takeException.exc = false ∧ s.takeException.nm = s.nm ∧ s.takeException.brk = s.brk ∧
    s.takeException.intPin = s.intPin ∧ s.takeException.intLatch = s.intLatch) ∧
    s.takeInterrupt.window = none ∧ s.takeBreak.window = none ∧ s.takeNmBreak.window = none ∧
    s.takeException.window = none

/-- A boundary takes at most one event, only an enabled one, and may leave it for a later boundary (R404, R405, R411,
R416, R418, R421; the free bit is the model's reading of R405's bounded delay (log 14)). -/
def Obligations.EventsAtABoundary : Prop :=
  ∀ (s : State),
    (∃ n, s.pollEvents = (false, { s with draws := n }) ∨
      (s.imm = none ∧ s.ds = none ∧
        ((s.nm = true ∧ s.pollEvents = (true, { s with draws := n }.takeNmBreak)) ∨
        (s.brk = true ∧ s.MayRead Msr.bip false ∧ s.pollEvents = (true, { s with draws := n }.takeBreak)) ∨
        (s.exc = true ∧ s.pollEvents = (true, { s with draws := n }.takeException)) ∨
        (s.interruptRequest = true ∧ s.MayRead Msr.ie true ∧ s.MayRead Msr.bip false ∧
          s.pollEvents = (true, { s with draws := n }.takeInterrupt))))) ∧
    (s.undisturbed → s.pollEvents = (false, s)) ∧
    (s.imm = none → s.ds = none → s.window = none →
      (s.nm = true → s.brk = false → s.exc = false → s.interruptRequest = false →
        s.pollEvents = if Config.freeBit s.draws then (true, { s with draws := s.draws + 1 }.takeNmBreak)
          else (false, { s with draws := s.draws + 1 })) ∧
      (s.brk = true → s.msr.bip = false → s.nm = false → s.exc = false → s.interruptRequest = false →
        s.pollEvents = if Config.freeBit s.draws then (true, { s with draws := s.draws + 1 }.takeBreak)
          else (false, { s with draws := s.draws + 1 })) ∧
      (s.exc = true → s.nm = false → s.brk = false → s.interruptRequest = false →
        s.pollEvents = if Config.freeBit s.draws then (true, { s with draws := s.draws + 1 }.takeException)
          else (false, { s with draws := s.draws + 1 })) ∧
      (s.interruptRequest = true → s.msr.ie = true → s.msr.bip = false → s.nm = false → s.brk = false → s.exc = false →
        s.pollEvents = if Config.freeBit s.draws then (true, { s with draws := s.draws + 1 }.takeInterrupt)
          else (false, { s with draws := s.draws + 1 })))

/-- A step with reset asserted answers the reset state of the core, in whatever state it arrives (R450 to R452, R464;
the hidden state and five MSR cells are spec decisions (log 6, 7), and that a stopped core stays stopped is the
model's choice (log 48)). -/
def Obligations.ResetTaken : Prop :=
  ∀ (s : State), Config.valid s.cfg = true → s.rst = true →
    ∃ t, step s = .next t ∧ t.pc = 0#32 ∧ t.msr.toWord = 0#32 ∧ (s.cfg.gprResetKnown = true → ∀ r, t.reg r = 0#32) ∧
      t.imm = none ∧ t.ds = none ∧ t.window = none ∧ t.rst = false ∧ t.nm = false ∧ t.brk = false ∧ t.exc = false ∧
      t.intLatch = false ∧ t.busLocked = false ∧ t.icache = [] ∧ t.dcache = [] ∧ t.cfg = s.cfg ∧ t.intPin = s.intPin ∧
      t.stopped = s.stopped

/-- The state after reset has the invariant, and reads PC, MSR and every register as 0 (R50, R452 (log 1 to 8 for what
the model chose)). -/
def Obligations.ResetSatisfiesInvariant : Prop :=
  State.reset.Inv ∧ State.reset.pc = 0#32 ∧ State.reset.msr.toWord = 0#32 ∧ ∀ r, State.reset.reg r = 0#32

/-- Every step keeps the invariant: aligned PC and target, canonical memories, caches in range, queues within depth
(R26's invariant PC[1:0] = 00 and the canonical forms of the model's data). -/
def Obligations.StepKeepsInvariant : Prop :=
  ∀ (s t : State), s.Inv → step s = .next t → t.Inv

/-- Every run in every environment keeps the configuration and the invariant (R437 (log 38); 00_scope R6: parameters
are fixed for an instance). -/
def Obligations.EnvironmentRunsKeepInvariant : Prop :=
  ∀ (s t : State), s.ReachesWith t → t.cfg = s.cfg ∧ (s.Inv → t.Inv)

/-- Decoding the word of a well-formed instruction gives the instruction, in every configuration (R108 to R119). -/
def Obligations.DecodeInvertsEncode : Prop :=
  ∀ (c : Config) (i : Instr), WellFormed c i = true → decodeWord c (encode c i) = .ok i

/-- A decoded word is the encoding of its instruction and matches its row's mask and match values (R108's match and
mask columns, R120). -/
def Obligations.DecodedWordMatchesItsRow : Prop :=
  ∀ (c : Config) (w : Word) (i : Instr), decodeWord c w = .ok i →
    WellFormed c i = true ∧ encode c i = w ∧ w &&& rowMask c i = rowMatch c i

/-- Words written out from the spec's encodings decode to the instructions they stand for (The examples of R141, R151,
R198, R226, R250, R291, R310, R312, R313, R344). -/
def Obligations.WrittenOutWordsDecode : Prop :=
  decodeWord Config.full 0x00611000#32 = .ok (.add 3#5 1#5 2#5) ∧
    decodeWord Config.full 0x2061FFFF#32 = .ok (.addi 3#5 1#5 0xFFFF#16) ∧
    decodeWord Config.full 0x64610404#32 = .ok (.bslli 3#5 1#5 4#5) ∧
    decodeWord Config.full 0x99F41000#32 = .ok (.brld 15#5 2#5) ∧
    decodeWord Config.full 0xBC21FFF8#32 = .ok (.bnei 1#5 0xFFF8#16) ∧
    decodeWord Config.full 0xF0610003#32 = .ok (.sbi 3#5 1#5 0x0003#16) ∧
    decodeWord Config.full 0xB0001234#32 = .ok (.imm 0x1234#16) ∧
    decodeWord Config.full 0x9401C001#32 = .ok (.mts 1#5 .rmsr) ∧
    decodeWord Config.full 0x60700002#32 = .ok (.msrset 3#5 0x0002#16) ∧
    decodeWord Config.full 0x6C606007#32 = .ok (.ncget 3#5 7#3)

/-- A well-formed instruction placed where reset fetches is the first one to run (R405, R63, R72). -/
def Obligations.PlacedInstructionRunsFirst : Prop :=
  ∀ (i : Instr), WellFormed Config.full i = true →
    step (State.reset.withFetchWord 32 (encode Config.full i).toNat)
      = exec i (State.reset.withFetchWord 32 (encode Config.full i).toNat)
end

