-- ==== Sys2Proof/Laws/Memory.lean ====
section
/-! SUPPORT. Sparse data and memory: reads after writes, and the canonical form kept by every memory operation. -/

namespace Sys2Proof.Machine

variable {α : Type}

/-! ### Lists of pairs with rising keys -/

/-- Keys strictly rising. -/
def Assoc.sorted (m : List (Nat × α)) : Prop := m.Pairwise (fun x y => x.1 < y.1)

theorem assoc_wf_iff {bound : Nat} {ok : Nat → α → Bool} {m : List (Nat × α)} :
    Assoc.wf bound ok m = true ↔ Assoc.sorted m ∧ ∀ e ∈ m, e.1 < bound ∧ ok e.1 e.2 = true := by
  simp [Assoc.wf, Assoc.sorted, List.all_eq_true]

/-- What is found is listed. -/
theorem find_mem {m : List (Nat × α)} {k : Nat} {v : α} (h : Assoc.find m k = some v) : (k, v) ∈ m := by
  induction m with
  | nil => cases h
  | cons e m ih =>
    unfold Assoc.find at h
    split at h
    · rename_i hk; cases h; simp_all
    · exact List.mem_cons_of_mem _ (ih h)

/-- `put` reads back at its key and leaves the other keys alone. -/
theorem find_put (m : List (Nat × α)) (k j : Nat) (v : α) :
    Assoc.find (Assoc.put m k v) j = if j = k then some v else Assoc.find m j := by
  induction m with
  | nil => simp [Assoc.put, Assoc.find]
  | cons e t ih =>
    obtain ⟨x, w⟩ := e
    unfold Assoc.put
    split
    · simp [Assoc.find]
    · split
      · subst_vars
        by_cases hj : j = x <;> simp [Assoc.find, hj]
      · by_cases hj : j = x
        · subst hj
          have : j ≠ k := by omega
          simp [Assoc.find, this]
        · simp [Assoc.find, hj, ih]

/-- Listing a value takes no key off the list. -/
theorem find_put_isSome {m : List (Nat × α)} {j : Nat} (h : (Assoc.find m j).isSome = true) (k : Nat) (v : α) :
    (Assoc.find (Assoc.put m k v) j).isSome = true := by
  rw [find_put]
  split <;> simp_all

theorem mem_put {m : List (Nat × α)} {k : Nat} {v : α} {e : Nat × α} (h : e ∈ Assoc.put m k v) :
    e = (k, v) ∨ e ∈ m := by
  induction m with
  | nil => simpa [Assoc.put] using h
  | cons x t ih =>
    obtain ⟨a, w⟩ := x
    unfold Assoc.put at h
    split at h
    · simpa using h
    · split at h
      · rcases List.mem_cons.1 h with h | h
        · exact .inl h
        · exact .inr (List.mem_cons_of_mem _ h)
      · rcases List.mem_cons.1 h with h | h
        · exact .inr (by rw [h]; exact List.mem_cons_self)
        · exact (ih h).imp id (List.mem_cons_of_mem _)

theorem sorted_put {m : List (Nat × α)} (k : Nat) (v : α) (h : Assoc.sorted m) : Assoc.sorted (Assoc.put m k v) := by
  induction m with
  | nil => simp [Assoc.put, Assoc.sorted]
  | cons x t ih =>
    obtain ⟨a, w⟩ := x
    obtain ⟨h1, h2⟩ := List.pairwise_cons.1 h
    unfold Assoc.put
    split
    · rename_i hlt
      refine List.pairwise_cons.2 ⟨fun e he => ?_, h⟩
      rcases List.mem_cons.1 he with rfl | he
      · exact hlt
      · exact Nat.lt_trans hlt (h1 e he)
    · split
      · rename_i heq
        subst heq
        exact List.pairwise_cons.2 ⟨h1, h2⟩
      · refine List.pairwise_cons.2 ⟨fun e he => ?_, ih h2⟩
        rcases mem_put he with rfl | he
        · simp only; omega
        · exact h1 e he

theorem mem_drop {m : List (Nat × α)} {k : Nat} {e : Nat × α} (h : e ∈ Assoc.drop m k) : e ∈ m := by
  induction m with
  | nil => simp [Assoc.drop] at h
  | cons x t ih =>
    obtain ⟨a, w⟩ := x
    unfold Assoc.drop at h
    split at h
    · exact List.mem_cons_of_mem _ h
    · rcases List.mem_cons.1 h with h | h
      · rw [h]; exact List.mem_cons_self
      · exact List.mem_cons_of_mem _ (ih h)

theorem sorted_drop {m : List (Nat × α)} (k : Nat) (h : Assoc.sorted m) : Assoc.sorted (Assoc.drop m k) := by
  induction m with
  | nil => exact h
  | cons x t ih =>
    obtain ⟨a, w⟩ := x
    obtain ⟨h1, h2⟩ := List.pairwise_cons.1 h
    unfold Assoc.drop
    split
    · exact h2
    · exact List.pairwise_cons.2 ⟨fun e he => h1 e (mem_drop he), ih h2⟩

theorem find_lt {m : List (Nat × α)} {k : Nat} (h : ∀ e ∈ m, k < e.1) : Assoc.find m k = none := by
  induction m with
  | nil => rfl
  | cons x t ih =>
    obtain ⟨a, w⟩ := x
    have ha : k < a := h (a, w) List.mem_cons_self
    simp [Assoc.find, Nat.ne_of_lt ha, ih fun e he => h e (List.mem_cons_of_mem _ he)]

/-- `drop` removes its key and leaves the others alone. -/
theorem find_drop {m : List (Nat × α)} (k j : Nat) (h : Assoc.sorted m) :
    Assoc.find (Assoc.drop m k) j = if j = k then none else Assoc.find m j := by
  induction m with
  | nil => simp [Assoc.drop, Assoc.find]
  | cons x t ih =>
    obtain ⟨a, w⟩ := x
    obtain ⟨h1, h2⟩ := List.pairwise_cons.1 h
    unfold Assoc.drop
    split
    · rename_i hk
      subst hk
      by_cases hj : j = k
      · subst hj; simp [find_lt h1]
      · simp [Assoc.find, hj]
    · rename_i hk
      by_cases hj : j = a
      · subst hj
        have : j ≠ k := fun h => hk h.symm
        simp [Assoc.find, this]
      · simp [Assoc.find, hj, ih h2]

/-- `put` of an acceptable entry keeps the canonical form. -/
theorem put_wf {bound : Nat} {ok : Nat → α → Bool} {m : List (Nat × α)} {k : Nat} {v : α}
    (h : Assoc.wf bound ok m = true) (hk : k < bound) (hv : ok k v = true) : Assoc.wf bound ok (Assoc.put m k v) = true := by
  rw [assoc_wf_iff] at h ⊢
  refine ⟨sorted_put k v h.1, fun e he => ?_⟩
  rcases mem_put he with rfl | he
  · exact ⟨hk, hv⟩
  · exact h.2 e he

/-- `drop` keeps the canonical form. -/
theorem drop_wf {bound : Nat} {ok : Nat → α → Bool} {m : List (Nat × α)} (k : Nat)
    (h : Assoc.wf bound ok m = true) : Assoc.wf bound ok (Assoc.drop m k) = true := by
  rw [assoc_wf_iff] at h ⊢
  exact ⟨sorted_drop k h.1, fun e he => h.2 e (mem_drop he)⟩

/-! ### Memory -/

theorem memory_sorted {m : Memory} (h : Memory.wf m = true) : Assoc.sorted m := (assoc_wf_iff.1 h).1

/-- A byte written keeps the canonical form. -/
theorem write_wf {m : Memory} {a : Nat} (b : Byte) (h : Memory.wf m = true) (ha : a < 2 ^ 32) :
    Memory.wf (Memory.write m a b) = true := by
  unfold Memory.write
  split
  · exact drop_wf a h
  · rename_i hb
    exact put_wf h ha (by simpa using hb)

/-- A byte written reads back, and every other byte reads as before. -/
theorem read_write {m : Memory} (h : Memory.wf m = true) (a x : Nat) (b : Byte) :
    Memory.read (Memory.write m a b) x = if x = a then b else Memory.read m x := by
  unfold Memory.read Memory.write
  split
  · rename_i hb
    rw [find_drop a x (memory_sorted h)]
    split <;> simp [hb]
  · rw [find_put]
    split <;> simp

/-- The last byte of an access stays in the address space. -/
def Size.fits (n : Size) (a : Nat) : Prop := a + n.bytes ≤ 2 ^ 32

theorem writeSize_wf {m : Memory} {a : Nat} (n : Size) (v : Word) (h : Memory.wf m = true) (ha : n.fits a) :
    Memory.wf (Memory.writeSize m n a v) = true := by
  unfold Size.fits at ha
  cases n <;> simp only [Size.bytes] at ha <;> simp only [Memory.writeSize]
  · exact write_wf _ h (by omega)
  · exact write_wf _ (write_wf _ h (by omega)) (by omega)
  · exact write_wf _ (write_wf _ (write_wf _ (write_wf _ h (by omega)) (by omega)) (by omega)) (by omega)

/-- Every byte after a store: the stored bytes, most significant first, and every other byte as before (20_memory R71). -/
theorem read_writeSize {m : Memory} {a : Nat} (n : Size) (v : Word) (h : Memory.wf m = true) (ha : n.fits a) (x : Nat) :
    Memory.read (Memory.writeSize m n a v) x =
      if a ≤ x ∧ x < a + n.bytes then byteOfWord v (4 - n.bytes + (x - a)) else Memory.read m x := by
  unfold Size.fits at ha
  cases n <;> simp only [Size.bytes] at ha <;> simp only [Memory.writeSize]
  · rw [read_write h]
    by_cases h0 : x = a
    · subst h0; simp [Size.bytes]
    · rw [if_neg h0, if_neg (by simp only [Size.bytes]; omega)]
  · have w1 := write_wf (byteOfWord v 2) h (a := a) (by omega)
    rw [read_write w1, read_write h]
    by_cases h1 : x = a + 1
    · subst h1; simp [Size.bytes]
    · by_cases h0 : x = a
      · subst h0; simp [Size.bytes]
      · rw [if_neg h1, if_neg h0, if_neg (by simp only [Size.bytes]; omega)]
  · have w1 := write_wf (byteOfWord v 0) h (a := a) (by omega)
    have w2 := write_wf (byteOfWord v 1) w1 (a := a + 1) (by omega)
    have w3 := write_wf (byteOfWord v 2) w2 (a := a + 2) (by omega)
    rw [read_write w3, read_write w2, read_write w1, read_write h]
    by_cases h3 : x = a + 3
    · subst h3; simp [Size.bytes]
    · by_cases h2 : x = a + 2
      · subst h2; simp [Size.bytes]
      · by_cases h1 : x = a + 1
        · subst h1; simp [Size.bytes]
        · by_cases h0 : x = a
          · subst h0; simp [Size.bytes]
          · rw [if_neg h3, if_neg h2, if_neg h1, if_neg h0, if_neg (by simp only [Size.bytes]; omega)]

/-! ### Addresses (20_memory R67, R68) -/

/-- Clearing the k low bits by a mask that keeps the others. -/
theorem and_mask_toNat (a mask : Word) (k : Nat)
    (hm : ∀ i : Fin 32, mask.getLsbD i = decide (k ≤ i.val)) : (a &&& mask).toNat = a.toNat / 2 ^ k * 2 ^ k := by
  have h : a &&& mask = (a >>> k) <<< k := by
    ext i hi
    have hi' : mask[i] = decide (k ≤ i) := by
      have := hm ⟨i, hi⟩
      simpa [BitVec.getLsbD_eq_getElem hi] using this
    simp only [BitVec.getElem_and, BitVec.getElem_shiftLeft, BitVec.getElem_ushiftRight, hi']
    by_cases hk : i < k
    · simp [hk, Nat.not_le.2 hk]
    · have : k + (i - k) = i := by omega
      simp [hk, Nat.not_lt.1 hk, this, BitVec.getLsbD_eq_getElem hi]
  have hb := a.isLt
  have hle : a.toNat / 2 ^ k * 2 ^ k ≤ a.toNat := Nat.div_mul_le_self _ _
  rw [h, BitVec.toNat_shiftLeft, BitVec.toNat_ushiftRight, Nat.shiftLeft_eq, Nat.shiftRight_eq_div_pow,
    Nat.mod_eq_of_lt (by omega)]

theorem align_toNat (n : Size) (a : Word) : (n.align a).toNat = a.toNat / n.bytes * n.bytes := by
  cases n
  · simp [Size.align, Size.bytes]
  · exact and_mask_toNat a _ 1 (by decide)
  · exact and_mask_toNat a _ 2 (by decide)

/-- The address of an access: the sum, rounded down to the access size. -/
theorem effective_eq (n : Size) (base offset : Word) :
    effective n base offset = (base + offset).toNat / n.bytes * n.bytes := align_toNat n _

theorem effective_fits (n : Size) (base offset : Word) : n.fits (effective n base offset) := by
  have h := (base + offset).isLt
  rw [effective_eq]
  unfold Size.fits
  cases n <;> simp only [Size.bytes] <;> omega

end Sys2Proof.Machine
end

