-- ==== Sys2Proof/Laws/State.lean ====
section
/-! SUPPORT. One lemma for each field of State under each update of the machine, and what each update does to a register
read. -/

namespace Sys2Proof.Machine

variable (s : State)

/-! ### setReg -/

@[simp] theorem State.setReg_cfg (r : RegNum) (v : Word) : (s.setReg r v).cfg = s.cfg := rfl
@[simp] theorem State.setReg_gpr (r : RegNum) (v : Word) : (s.setReg r v).gpr = writeGpr s.gpr r v := rfl
@[simp] theorem State.setReg_pc (r : RegNum) (v : Word) : (s.setReg r v).pc = s.pc := rfl
@[simp] theorem State.setReg_msr (r : RegNum) (v : Word) : (s.setReg r v).msr = s.msr := rfl
@[simp] theorem State.setReg_imm (r : RegNum) (v : Word) : (s.setReg r v).imm = s.imm := rfl
@[simp] theorem State.setReg_ds (r : RegNum) (v : Word) : (s.setReg r v).ds = s.ds := rfl
@[simp] theorem State.setReg_window (r : RegNum) (v : Word) : (s.setReg r v).window = s.window := rfl
@[simp] theorem State.setReg_rst (r : RegNum) (v : Word) : (s.setReg r v).rst = s.rst := rfl
@[simp] theorem State.setReg_nm (r : RegNum) (v : Word) : (s.setReg r v).nm = s.nm := rfl
@[simp] theorem State.setReg_brk (r : RegNum) (v : Word) : (s.setReg r v).brk = s.brk := rfl
@[simp] theorem State.setReg_exc (r : RegNum) (v : Word) : (s.setReg r v).exc = s.exc := rfl
@[simp] theorem State.setReg_intPin (r : RegNum) (v : Word) : (s.setReg r v).intPin = s.intPin := rfl
@[simp] theorem State.setReg_intLatch (r : RegNum) (v : Word) : (s.setReg r v).intLatch = s.intLatch := rfl
@[simp] theorem State.setReg_stopped (r : RegNum) (v : Word) : (s.setReg r v).stopped = s.stopped := rfl
@[simp] theorem State.setReg_mem (r : RegNum) (v : Word) : (s.setReg r v).mem = s.mem := rfl
@[simp] theorem State.setReg_imem (r : RegNum) (v : Word) : (s.setReg r v).imem = s.imem := rfl
@[simp] theorem State.setReg_icache (r : RegNum) (v : Word) : (s.setReg r v).icache = s.icache := rfl
@[simp] theorem State.setReg_dcache (r : RegNum) (v : Word) : (s.setReg r v).dcache = s.dcache := rfl
@[simp] theorem State.setReg_inQ (r : RegNum) (v : Word) : (s.setReg r v).inQ = s.inQ := rfl
@[simp] theorem State.setReg_outQ (r : RegNum) (v : Word) : (s.setReg r v).outQ = s.outQ := rfl
@[simp] theorem State.setReg_devLog (r : RegNum) (v : Word) : (s.setReg r v).devLog = s.devLog := rfl
@[simp] theorem State.setReg_busLocked (r : RegNum) (v : Word) : (s.setReg r v).busLocked = s.busLocked := rfl
@[simp] theorem State.setReg_stored (r : RegNum) (v : Word) : (s.setReg r v).stored = s.stored := rfl
@[simp] theorem State.setReg_icount (r : RegNum) (v : Word) : (s.setReg r v).icount = s.icount := rfl
@[simp] theorem State.setReg_lastTaken (r : RegNum) (v : Word) : (s.setReg r v).lastTaken = s.lastTaken := rfl
@[simp] theorem State.setReg_draws (r : RegNum) (v : Word) : (s.setReg r v).draws = s.draws := rfl

/-! ### setC -/

@[simp] theorem State.setC_cfg (b : Bool) : (s.setC b).cfg = s.cfg := rfl
@[simp] theorem State.setC_gpr (b : Bool) : (s.setC b).gpr = s.gpr := rfl
@[simp] theorem State.setC_pc (b : Bool) : (s.setC b).pc = s.pc := rfl
@[simp] theorem State.setC_msr (b : Bool) : (s.setC b).msr = { s.msr with c := b } := rfl
@[simp] theorem State.setC_imm (b : Bool) : (s.setC b).imm = s.imm := rfl
@[simp] theorem State.setC_ds (b : Bool) : (s.setC b).ds = s.ds := rfl
@[simp] theorem State.setC_window (b : Bool) : (s.setC b).window = s.window := rfl
@[simp] theorem State.setC_rst (b : Bool) : (s.setC b).rst = s.rst := rfl
@[simp] theorem State.setC_nm (b : Bool) : (s.setC b).nm = s.nm := rfl
@[simp] theorem State.setC_brk (b : Bool) : (s.setC b).brk = s.brk := rfl
@[simp] theorem State.setC_exc (b : Bool) : (s.setC b).exc = s.exc := rfl
@[simp] theorem State.setC_intPin (b : Bool) : (s.setC b).intPin = s.intPin := rfl
@[simp] theorem State.setC_intLatch (b : Bool) : (s.setC b).intLatch = s.intLatch := rfl
@[simp] theorem State.setC_stopped (b : Bool) : (s.setC b).stopped = s.stopped := rfl
@[simp] theorem State.setC_mem (b : Bool) : (s.setC b).mem = s.mem := rfl
@[simp] theorem State.setC_imem (b : Bool) : (s.setC b).imem = s.imem := rfl
@[simp] theorem State.setC_icache (b : Bool) : (s.setC b).icache = s.icache := rfl
@[simp] theorem State.setC_dcache (b : Bool) : (s.setC b).dcache = s.dcache := rfl
@[simp] theorem State.setC_inQ (b : Bool) : (s.setC b).inQ = s.inQ := rfl
@[simp] theorem State.setC_outQ (b : Bool) : (s.setC b).outQ = s.outQ := rfl
@[simp] theorem State.setC_devLog (b : Bool) : (s.setC b).devLog = s.devLog := rfl
@[simp] theorem State.setC_busLocked (b : Bool) : (s.setC b).busLocked = s.busLocked := rfl
@[simp] theorem State.setC_stored (b : Bool) : (s.setC b).stored = s.stored := rfl
@[simp] theorem State.setC_icount (b : Bool) : (s.setC b).icount = s.icount := rfl
@[simp] theorem State.setC_lastTaken (b : Bool) : (s.setC b).lastTaken = s.lastTaken := rfl
@[simp] theorem State.setC_draws (b : Bool) : (s.setC b).draws = s.draws := rfl
@[simp] theorem State.setC_reg (b : Bool) (k : RegNum) : (s.setC b).reg k = s.reg k := by simp [State.reg]

/-! ### setDZ -/

@[simp] theorem State.setDZ_cfg : s.setDZ.cfg = s.cfg := rfl
@[simp] theorem State.setDZ_gpr : s.setDZ.gpr = s.gpr := rfl
@[simp] theorem State.setDZ_pc : s.setDZ.pc = s.pc := rfl
@[simp] theorem State.setDZ_msr : s.setDZ.msr = { s.msr with dz := true } := rfl
@[simp] theorem State.setDZ_imm : s.setDZ.imm = s.imm := rfl
@[simp] theorem State.setDZ_ds : s.setDZ.ds = s.ds := rfl
@[simp] theorem State.setDZ_window : s.setDZ.window = s.window := rfl
@[simp] theorem State.setDZ_rst : s.setDZ.rst = s.rst := rfl
@[simp] theorem State.setDZ_nm : s.setDZ.nm = s.nm := rfl
@[simp] theorem State.setDZ_brk : s.setDZ.brk = s.brk := rfl
@[simp] theorem State.setDZ_exc : s.setDZ.exc = s.exc := rfl
@[simp] theorem State.setDZ_intPin : s.setDZ.intPin = s.intPin := rfl
@[simp] theorem State.setDZ_intLatch : s.setDZ.intLatch = s.intLatch := rfl
@[simp] theorem State.setDZ_stopped : s.setDZ.stopped = s.stopped := rfl
@[simp] theorem State.setDZ_mem : s.setDZ.mem = s.mem := rfl
@[simp] theorem State.setDZ_imem : s.setDZ.imem = s.imem := rfl
@[simp] theorem State.setDZ_icache : s.setDZ.icache = s.icache := rfl
@[simp] theorem State.setDZ_dcache : s.setDZ.dcache = s.dcache := rfl
@[simp] theorem State.setDZ_inQ : s.setDZ.inQ = s.inQ := rfl
@[simp] theorem State.setDZ_outQ : s.setDZ.outQ = s.outQ := rfl
@[simp] theorem State.setDZ_devLog : s.setDZ.devLog = s.devLog := rfl
@[simp] theorem State.setDZ_busLocked : s.setDZ.busLocked = s.busLocked := rfl
@[simp] theorem State.setDZ_stored : s.setDZ.stored = s.stored := rfl
@[simp] theorem State.setDZ_icount : s.setDZ.icount = s.icount := rfl
@[simp] theorem State.setDZ_lastTaken : s.setDZ.lastTaken = s.lastTaken := rfl
@[simp] theorem State.setDZ_draws : s.setDZ.draws = s.draws := rfl
@[simp] theorem State.setDZ_reg (k : RegNum) : s.setDZ.reg k = s.reg k := by simp [State.reg]

/-! ### setFslError -/

@[simp] theorem State.setFslError_cfg (b : Bool) : (s.setFslError b).cfg = s.cfg := rfl
@[simp] theorem State.setFslError_gpr (b : Bool) : (s.setFslError b).gpr = s.gpr := rfl
@[simp] theorem State.setFslError_pc (b : Bool) : (s.setFslError b).pc = s.pc := rfl
@[simp] theorem State.setFslError_msr (b : Bool) : (s.setFslError b).msr = { s.msr with fsl := b } := rfl
@[simp] theorem State.setFslError_imm (b : Bool) : (s.setFslError b).imm = s.imm := rfl
@[simp] theorem State.setFslError_ds (b : Bool) : (s.setFslError b).ds = s.ds := rfl
@[simp] theorem State.setFslError_window (b : Bool) : (s.setFslError b).window = s.window := rfl
@[simp] theorem State.setFslError_rst (b : Bool) : (s.setFslError b).rst = s.rst := rfl
@[simp] theorem State.setFslError_nm (b : Bool) : (s.setFslError b).nm = s.nm := rfl
@[simp] theorem State.setFslError_brk (b : Bool) : (s.setFslError b).brk = s.brk := rfl
@[simp] theorem State.setFslError_exc (b : Bool) : (s.setFslError b).exc = s.exc := rfl
@[simp] theorem State.setFslError_intPin (b : Bool) : (s.setFslError b).intPin = s.intPin := rfl
@[simp] theorem State.setFslError_intLatch (b : Bool) : (s.setFslError b).intLatch = s.intLatch := rfl
@[simp] theorem State.setFslError_stopped (b : Bool) : (s.setFslError b).stopped = s.stopped := rfl
@[simp] theorem State.setFslError_mem (b : Bool) : (s.setFslError b).mem = s.mem := rfl
@[simp] theorem State.setFslError_imem (b : Bool) : (s.setFslError b).imem = s.imem := rfl
@[simp] theorem State.setFslError_icache (b : Bool) : (s.setFslError b).icache = s.icache := rfl
@[simp] theorem State.setFslError_dcache (b : Bool) : (s.setFslError b).dcache = s.dcache := rfl
@[simp] theorem State.setFslError_inQ (b : Bool) : (s.setFslError b).inQ = s.inQ := rfl
@[simp] theorem State.setFslError_outQ (b : Bool) : (s.setFslError b).outQ = s.outQ := rfl
@[simp] theorem State.setFslError_devLog (b : Bool) : (s.setFslError b).devLog = s.devLog := rfl
@[simp] theorem State.setFslError_busLocked (b : Bool) : (s.setFslError b).busLocked = s.busLocked := rfl
@[simp] theorem State.setFslError_stored (b : Bool) : (s.setFslError b).stored = s.stored := rfl
@[simp] theorem State.setFslError_icount (b : Bool) : (s.setFslError b).icount = s.icount := rfl
@[simp] theorem State.setFslError_lastTaken (b : Bool) : (s.setFslError b).lastTaken = s.lastTaken := rfl
@[simp] theorem State.setFslError_draws (b : Bool) : (s.setFslError b).draws = s.draws := rfl
@[simp] theorem State.setFslError_reg (b : Bool) (k : RegNum) : (s.setFslError b).reg k = s.reg k := by simp [State.reg]

/-! ### setBIP -/

@[simp] theorem State.setBIP_cfg : s.setBIP.cfg = s.cfg := rfl
@[simp] theorem State.setBIP_gpr : s.setBIP.gpr = s.gpr := rfl
@[simp] theorem State.setBIP_pc : s.setBIP.pc = s.pc := rfl
@[simp] theorem State.setBIP_msr : s.setBIP.msr = { s.msr with bip := true } := rfl
@[simp] theorem State.setBIP_imm : s.setBIP.imm = s.imm := rfl
@[simp] theorem State.setBIP_ds : s.setBIP.ds = s.ds := rfl
@[simp] theorem State.setBIP_window : s.setBIP.window = s.window := rfl
@[simp] theorem State.setBIP_rst : s.setBIP.rst = s.rst := rfl
@[simp] theorem State.setBIP_nm : s.setBIP.nm = s.nm := rfl
@[simp] theorem State.setBIP_brk : s.setBIP.brk = s.brk := rfl
@[simp] theorem State.setBIP_exc : s.setBIP.exc = s.exc := rfl
@[simp] theorem State.setBIP_intPin : s.setBIP.intPin = s.intPin := rfl
@[simp] theorem State.setBIP_intLatch : s.setBIP.intLatch = s.intLatch := rfl
@[simp] theorem State.setBIP_stopped : s.setBIP.stopped = s.stopped := rfl
@[simp] theorem State.setBIP_mem : s.setBIP.mem = s.mem := rfl
@[simp] theorem State.setBIP_imem : s.setBIP.imem = s.imem := rfl
@[simp] theorem State.setBIP_icache : s.setBIP.icache = s.icache := rfl
@[simp] theorem State.setBIP_dcache : s.setBIP.dcache = s.dcache := rfl
@[simp] theorem State.setBIP_inQ : s.setBIP.inQ = s.inQ := rfl
@[simp] theorem State.setBIP_outQ : s.setBIP.outQ = s.outQ := rfl
@[simp] theorem State.setBIP_devLog : s.setBIP.devLog = s.devLog := rfl
@[simp] theorem State.setBIP_busLocked : s.setBIP.busLocked = s.busLocked := rfl
@[simp] theorem State.setBIP_stored : s.setBIP.stored = s.stored := rfl
@[simp] theorem State.setBIP_icount : s.setBIP.icount = s.icount := rfl
@[simp] theorem State.setBIP_lastTaken : s.setBIP.lastTaken = s.lastTaken := rfl
@[simp] theorem State.setBIP_draws : s.setBIP.draws = s.draws := rfl
@[simp] theorem State.setBIP_reg (k : RegNum) : s.setBIP.reg k = s.reg k := by simp [State.reg]

/-! ### drawWord -/

@[simp] theorem State.drawWord_cfg : s.drawWord.2.cfg = s.cfg := rfl
@[simp] theorem State.drawWord_gpr : s.drawWord.2.gpr = s.gpr := rfl
@[simp] theorem State.drawWord_pc : s.drawWord.2.pc = s.pc := rfl
@[simp] theorem State.drawWord_msr : s.drawWord.2.msr = s.msr := rfl
@[simp] theorem State.drawWord_imm : s.drawWord.2.imm = s.imm := rfl
@[simp] theorem State.drawWord_ds : s.drawWord.2.ds = s.ds := rfl
@[simp] theorem State.drawWord_window : s.drawWord.2.window = s.window := rfl
@[simp] theorem State.drawWord_rst : s.drawWord.2.rst = s.rst := rfl
@[simp] theorem State.drawWord_nm : s.drawWord.2.nm = s.nm := rfl
@[simp] theorem State.drawWord_brk : s.drawWord.2.brk = s.brk := rfl
@[simp] theorem State.drawWord_exc : s.drawWord.2.exc = s.exc := rfl
@[simp] theorem State.drawWord_intPin : s.drawWord.2.intPin = s.intPin := rfl
@[simp] theorem State.drawWord_intLatch : s.drawWord.2.intLatch = s.intLatch := rfl
@[simp] theorem State.drawWord_stopped : s.drawWord.2.stopped = s.stopped := rfl
@[simp] theorem State.drawWord_mem : s.drawWord.2.mem = s.mem := rfl
@[simp] theorem State.drawWord_imem : s.drawWord.2.imem = s.imem := rfl
@[simp] theorem State.drawWord_icache : s.drawWord.2.icache = s.icache := rfl
@[simp] theorem State.drawWord_dcache : s.drawWord.2.dcache = s.dcache := rfl
@[simp] theorem State.drawWord_inQ : s.drawWord.2.inQ = s.inQ := rfl
@[simp] theorem State.drawWord_outQ : s.drawWord.2.outQ = s.outQ := rfl
@[simp] theorem State.drawWord_devLog : s.drawWord.2.devLog = s.devLog := rfl
@[simp] theorem State.drawWord_busLocked : s.drawWord.2.busLocked = s.busLocked := rfl
@[simp] theorem State.drawWord_stored : s.drawWord.2.stored = s.stored := rfl
@[simp] theorem State.drawWord_icount : s.drawWord.2.icount = s.icount := rfl
@[simp] theorem State.drawWord_lastTaken : s.drawWord.2.lastTaken = s.lastTaken := rfl
@[simp] theorem State.drawWord_draws : s.drawWord.2.draws = s.draws + 1 := rfl
@[simp] theorem State.drawWord_reg (k : RegNum) : s.drawWord.2.reg k = s.reg k := by simp [State.reg]

/-! ### drawBit -/

@[simp] theorem State.drawBit_cfg : s.drawBit.2.cfg = s.cfg := rfl
@[simp] theorem State.drawBit_gpr : s.drawBit.2.gpr = s.gpr := rfl
@[simp] theorem State.drawBit_pc : s.drawBit.2.pc = s.pc := rfl
@[simp] theorem State.drawBit_msr : s.drawBit.2.msr = s.msr := rfl
@[simp] theorem State.drawBit_imm : s.drawBit.2.imm = s.imm := rfl
@[simp] theorem State.drawBit_ds : s.drawBit.2.ds = s.ds := rfl
@[simp] theorem State.drawBit_window : s.drawBit.2.window = s.window := rfl
@[simp] theorem State.drawBit_rst : s.drawBit.2.rst = s.rst := rfl
@[simp] theorem State.drawBit_nm : s.drawBit.2.nm = s.nm := rfl
@[simp] theorem State.drawBit_brk : s.drawBit.2.brk = s.brk := rfl
@[simp] theorem State.drawBit_exc : s.drawBit.2.exc = s.exc := rfl
@[simp] theorem State.drawBit_intPin : s.drawBit.2.intPin = s.intPin := rfl
@[simp] theorem State.drawBit_intLatch : s.drawBit.2.intLatch = s.intLatch := rfl
@[simp] theorem State.drawBit_stopped : s.drawBit.2.stopped = s.stopped := rfl
@[simp] theorem State.drawBit_mem : s.drawBit.2.mem = s.mem := rfl
@[simp] theorem State.drawBit_imem : s.drawBit.2.imem = s.imem := rfl
@[simp] theorem State.drawBit_icache : s.drawBit.2.icache = s.icache := rfl
@[simp] theorem State.drawBit_dcache : s.drawBit.2.dcache = s.dcache := rfl
@[simp] theorem State.drawBit_inQ : s.drawBit.2.inQ = s.inQ := rfl
@[simp] theorem State.drawBit_outQ : s.drawBit.2.outQ = s.outQ := rfl
@[simp] theorem State.drawBit_devLog : s.drawBit.2.devLog = s.devLog := rfl
@[simp] theorem State.drawBit_busLocked : s.drawBit.2.busLocked = s.busLocked := rfl
@[simp] theorem State.drawBit_stored : s.drawBit.2.stored = s.stored := rfl
@[simp] theorem State.drawBit_icount : s.drawBit.2.icount = s.icount := rfl
@[simp] theorem State.drawBit_lastTaken : s.drawBit.2.lastTaken = s.lastTaken := rfl
@[simp] theorem State.drawBit_draws : s.drawBit.2.draws = s.draws + 1 := rfl
@[simp] theorem State.drawBit_reg (k : RegNum) : s.drawBit.2.reg k = s.reg k := by simp [State.reg]

/-! ### readFlag -/

@[simp] theorem State.readFlag_cfg (f : Msr → Bool) : (s.readFlag f).2.cfg = s.cfg := by unfold State.readFlag; split <;> rfl
@[simp] theorem State.readFlag_gpr (f : Msr → Bool) : (s.readFlag f).2.gpr = s.gpr := by unfold State.readFlag; split <;> rfl
@[simp] theorem State.readFlag_pc (f : Msr → Bool) : (s.readFlag f).2.pc = s.pc := by unfold State.readFlag; split <;> rfl
@[simp] theorem State.readFlag_msr (f : Msr → Bool) : (s.readFlag f).2.msr = s.msr := by unfold State.readFlag; split <;> rfl
@[simp] theorem State.readFlag_imm (f : Msr → Bool) : (s.readFlag f).2.imm = s.imm := by unfold State.readFlag; split <;> rfl
@[simp] theorem State.readFlag_ds (f : Msr → Bool) : (s.readFlag f).2.ds = s.ds := by unfold State.readFlag; split <;> rfl
@[simp] theorem State.readFlag_window (f : Msr → Bool) : (s.readFlag f).2.window = s.window := by unfold State.readFlag; split <;> rfl
@[simp] theorem State.readFlag_rst (f : Msr → Bool) : (s.readFlag f).2.rst = s.rst := by unfold State.readFlag; split <;> rfl
@[simp] theorem State.readFlag_nm (f : Msr → Bool) : (s.readFlag f).2.nm = s.nm := by unfold State.readFlag; split <;> rfl
@[simp] theorem State.readFlag_brk (f : Msr → Bool) : (s.readFlag f).2.brk = s.brk := by unfold State.readFlag; split <;> rfl
@[simp] theorem State.readFlag_exc (f : Msr → Bool) : (s.readFlag f).2.exc = s.exc := by unfold State.readFlag; split <;> rfl
@[simp] theorem State.readFlag_intPin (f : Msr → Bool) : (s.readFlag f).2.intPin = s.intPin := by unfold State.readFlag; split <;> rfl
@[simp] theorem State.readFlag_intLatch (f : Msr → Bool) : (s.readFlag f).2.intLatch = s.intLatch := by unfold State.readFlag; split <;> rfl
@[simp] theorem State.readFlag_stopped (f : Msr → Bool) : (s.readFlag f).2.stopped = s.stopped := by unfold State.readFlag; split <;> rfl
@[simp] theorem State.readFlag_mem (f : Msr → Bool) : (s.readFlag f).2.mem = s.mem := by unfold State.readFlag; split <;> rfl
@[simp] theorem State.readFlag_imem (f : Msr → Bool) : (s.readFlag f).2.imem = s.imem := by unfold State.readFlag; split <;> rfl
@[simp] theorem State.readFlag_icache (f : Msr → Bool) : (s.readFlag f).2.icache = s.icache := by unfold State.readFlag; split <;> rfl
@[simp] theorem State.readFlag_dcache (f : Msr → Bool) : (s.readFlag f).2.dcache = s.dcache := by unfold State.readFlag; split <;> rfl
@[simp] theorem State.readFlag_inQ (f : Msr → Bool) : (s.readFlag f).2.inQ = s.inQ := by unfold State.readFlag; split <;> rfl
@[simp] theorem State.readFlag_outQ (f : Msr → Bool) : (s.readFlag f).2.outQ = s.outQ := by unfold State.readFlag; split <;> rfl
@[simp] theorem State.readFlag_devLog (f : Msr → Bool) : (s.readFlag f).2.devLog = s.devLog := by unfold State.readFlag; split <;> rfl
@[simp] theorem State.readFlag_busLocked (f : Msr → Bool) : (s.readFlag f).2.busLocked = s.busLocked := by unfold State.readFlag; split <;> rfl
@[simp] theorem State.readFlag_stored (f : Msr → Bool) : (s.readFlag f).2.stored = s.stored := by unfold State.readFlag; split <;> rfl
@[simp] theorem State.readFlag_icount (f : Msr → Bool) : (s.readFlag f).2.icount = s.icount := by unfold State.readFlag; split <;> rfl
@[simp] theorem State.readFlag_lastTaken (f : Msr → Bool) : (s.readFlag f).2.lastTaken = s.lastTaken := by unfold State.readFlag; split <;> rfl
@[simp] theorem State.readFlag_reg (f : Msr → Bool) (k : RegNum) : (s.readFlag f).2.reg k = s.reg k := by simp [State.reg]

/-! ### readMsr -/

@[simp] theorem State.readMsr_cfg : s.readMsr.2.cfg = s.cfg := by simp only [State.readMsr, State.readFlag_cfg]
@[simp] theorem State.readMsr_gpr : s.readMsr.2.gpr = s.gpr := by simp only [State.readMsr, State.readFlag_gpr]
@[simp] theorem State.readMsr_pc : s.readMsr.2.pc = s.pc := by simp only [State.readMsr, State.readFlag_pc]
@[simp] theorem State.readMsr_msr : s.readMsr.2.msr = s.msr := by simp only [State.readMsr, State.readFlag_msr]
@[simp] theorem State.readMsr_imm : s.readMsr.2.imm = s.imm := by simp only [State.readMsr, State.readFlag_imm]
@[simp] theorem State.readMsr_ds : s.readMsr.2.ds = s.ds := by simp only [State.readMsr, State.readFlag_ds]
@[simp] theorem State.readMsr_window : s.readMsr.2.window = s.window := by simp only [State.readMsr, State.readFlag_window]
@[simp] theorem State.readMsr_rst : s.readMsr.2.rst = s.rst := by simp only [State.readMsr, State.readFlag_rst]
@[simp] theorem State.readMsr_nm : s.readMsr.2.nm = s.nm := by simp only [State.readMsr, State.readFlag_nm]
@[simp] theorem State.readMsr_brk : s.readMsr.2.brk = s.brk := by simp only [State.readMsr, State.readFlag_brk]
@[simp] theorem State.readMsr_exc : s.readMsr.2.exc = s.exc := by simp only [State.readMsr, State.readFlag_exc]
@[simp] theorem State.readMsr_intPin : s.readMsr.2.intPin = s.intPin := by simp only [State.readMsr, State.readFlag_intPin]
@[simp] theorem State.readMsr_intLatch : s.readMsr.2.intLatch = s.intLatch := by simp only [State.readMsr, State.readFlag_intLatch]
@[simp] theorem State.readMsr_stopped : s.readMsr.2.stopped = s.stopped := by simp only [State.readMsr, State.readFlag_stopped]
@[simp] theorem State.readMsr_mem : s.readMsr.2.mem = s.mem := by simp only [State.readMsr, State.readFlag_mem]
@[simp] theorem State.readMsr_imem : s.readMsr.2.imem = s.imem := by simp only [State.readMsr, State.readFlag_imem]
@[simp] theorem State.readMsr_icache : s.readMsr.2.icache = s.icache := by simp only [State.readMsr, State.readFlag_icache]
@[simp] theorem State.readMsr_dcache : s.readMsr.2.dcache = s.dcache := by simp only [State.readMsr, State.readFlag_dcache]
@[simp] theorem State.readMsr_inQ : s.readMsr.2.inQ = s.inQ := by simp only [State.readMsr, State.readFlag_inQ]
@[simp] theorem State.readMsr_outQ : s.readMsr.2.outQ = s.outQ := by simp only [State.readMsr, State.readFlag_outQ]
@[simp] theorem State.readMsr_devLog : s.readMsr.2.devLog = s.devLog := by simp only [State.readMsr, State.readFlag_devLog]
@[simp] theorem State.readMsr_busLocked : s.readMsr.2.busLocked = s.busLocked := by simp only [State.readMsr, State.readFlag_busLocked]
@[simp] theorem State.readMsr_stored : s.readMsr.2.stored = s.stored := by simp only [State.readMsr, State.readFlag_stored]
@[simp] theorem State.readMsr_icount : s.readMsr.2.icount = s.icount := by simp only [State.readMsr, State.readFlag_icount]
@[simp] theorem State.readMsr_lastTaken : s.readMsr.2.lastTaken = s.lastTaken := by simp only [State.readMsr, State.readFlag_lastTaken]
@[simp] theorem State.readMsr_reg (k : RegNum) : s.readMsr.2.reg k = s.reg k := by simp [State.reg]

/-! ### retire -/

@[simp] theorem State.retire_cfg : s.retire.cfg = s.cfg := rfl
@[simp] theorem State.retire_gpr : s.retire.gpr = s.gpr := rfl
@[simp] theorem State.retire_pc : s.retire.pc = s.nextPc := rfl
@[simp] theorem State.retire_msr : s.retire.msr = s.slotMsr := rfl
@[simp] theorem State.retire_imm : s.retire.imm = none := rfl
@[simp] theorem State.retire_ds : s.retire.ds = none := rfl
@[simp] theorem State.retire_window : s.retire.window = none := rfl
@[simp] theorem State.retire_rst : s.retire.rst = s.rst := rfl
@[simp] theorem State.retire_nm : s.retire.nm = s.nm := rfl
@[simp] theorem State.retire_brk : s.retire.brk = s.brk := rfl
@[simp] theorem State.retire_exc : s.retire.exc = s.exc := rfl
@[simp] theorem State.retire_intPin : s.retire.intPin = s.intPin := rfl
@[simp] theorem State.retire_intLatch : s.retire.intLatch = s.intLatch := rfl
@[simp] theorem State.retire_stopped : s.retire.stopped = s.stopped := rfl
@[simp] theorem State.retire_mem : s.retire.mem = s.mem := rfl
@[simp] theorem State.retire_imem : s.retire.imem = s.imem := rfl
@[simp] theorem State.retire_icache : s.retire.icache = s.icache := rfl
@[simp] theorem State.retire_dcache : s.retire.dcache = s.dcache := rfl
@[simp] theorem State.retire_inQ : s.retire.inQ = s.inQ := rfl
@[simp] theorem State.retire_outQ : s.retire.outQ = s.outQ := rfl
@[simp] theorem State.retire_devLog : s.retire.devLog = s.devLog := rfl
@[simp] theorem State.retire_busLocked : s.retire.busLocked = s.busLocked := rfl
@[simp] theorem State.retire_stored : s.retire.stored = s.stored := rfl
@[simp] theorem State.retire_icount : s.retire.icount = s.icount + 1 := rfl
@[simp] theorem State.retire_lastTaken : s.retire.lastTaken = if s.ds.isSome then s.icount else s.lastTaken := rfl
@[simp] theorem State.retire_draws : s.retire.draws = s.draws := rfl
@[simp] theorem State.retire_reg (k : RegNum) : s.retire.reg k = s.reg k := by simp [State.reg]

/-! ### retireMsr -/

@[simp] theorem State.retireMsr_cfg (m : Msr) : (s.retireMsr m).cfg = s.cfg := rfl
@[simp] theorem State.retireMsr_gpr (m : Msr) : (s.retireMsr m).gpr = s.gpr := rfl
@[simp] theorem State.retireMsr_pc (m : Msr) : (s.retireMsr m).pc = s.nextPc := rfl
@[simp] theorem State.retireMsr_msr (m : Msr) : (s.retireMsr m).msr = { s with msr := m }.slotMsr := rfl
@[simp] theorem State.retireMsr_imm (m : Msr) : (s.retireMsr m).imm = none := rfl
@[simp] theorem State.retireMsr_ds (m : Msr) : (s.retireMsr m).ds = none := rfl
@[simp] theorem State.retireMsr_window (m : Msr) : (s.retireMsr m).window = some s.msr := rfl
@[simp] theorem State.retireMsr_rst (m : Msr) : (s.retireMsr m).rst = s.rst := rfl
@[simp] theorem State.retireMsr_nm (m : Msr) : (s.retireMsr m).nm = s.nm := rfl
@[simp] theorem State.retireMsr_brk (m : Msr) : (s.retireMsr m).brk = s.brk := rfl
@[simp] theorem State.retireMsr_exc (m : Msr) : (s.retireMsr m).exc = s.exc := rfl
@[simp] theorem State.retireMsr_intPin (m : Msr) : (s.retireMsr m).intPin = s.intPin := rfl
@[simp] theorem State.retireMsr_intLatch (m : Msr) : (s.retireMsr m).intLatch = s.intLatch := rfl
@[simp] theorem State.retireMsr_stopped (m : Msr) : (s.retireMsr m).stopped = s.stopped := rfl
@[simp] theorem State.retireMsr_mem (m : Msr) : (s.retireMsr m).mem = s.mem := rfl
@[simp] theorem State.retireMsr_imem (m : Msr) : (s.retireMsr m).imem = s.imem := rfl
@[simp] theorem State.retireMsr_icache (m : Msr) : (s.retireMsr m).icache = s.icache := rfl
@[simp] theorem State.retireMsr_dcache (m : Msr) : (s.retireMsr m).dcache = s.dcache := rfl
@[simp] theorem State.retireMsr_inQ (m : Msr) : (s.retireMsr m).inQ = s.inQ := rfl
@[simp] theorem State.retireMsr_outQ (m : Msr) : (s.retireMsr m).outQ = s.outQ := rfl
@[simp] theorem State.retireMsr_devLog (m : Msr) : (s.retireMsr m).devLog = s.devLog := rfl
@[simp] theorem State.retireMsr_busLocked (m : Msr) : (s.retireMsr m).busLocked = s.busLocked := rfl
@[simp] theorem State.retireMsr_stored (m : Msr) : (s.retireMsr m).stored = s.stored := rfl
@[simp] theorem State.retireMsr_icount (m : Msr) : (s.retireMsr m).icount = s.icount + 1 := rfl
@[simp] theorem State.retireMsr_lastTaken (m : Msr) : (s.retireMsr m).lastTaken = if s.ds.isSome then s.icount else s.lastTaken := rfl
@[simp] theorem State.retireMsr_draws (m : Msr) : (s.retireMsr m).draws = s.draws := rfl
@[simp] theorem State.retireMsr_reg (m : Msr) (k : RegNum) : (s.retireMsr m).reg k = s.reg k := by simp [State.reg]

/-! ### popInto -/

@[simp] theorem State.popInto_cfg (rd : RegNum) (ch : Channel) (c : Bool) (x : FslItem) (q : List FslItem) : (s.popInto rd ch c x q).cfg = s.cfg := rfl
@[simp] theorem State.popInto_gpr (rd : RegNum) (ch : Channel) (c : Bool) (x : FslItem) (q : List FslItem) : (s.popInto rd ch c x q).gpr = writeGpr s.gpr rd x.data := rfl
@[simp] theorem State.popInto_pc (rd : RegNum) (ch : Channel) (c : Bool) (x : FslItem) (q : List FslItem) : (s.popInto rd ch c x q).pc = s.pc := rfl
@[simp] theorem State.popInto_msr (rd : RegNum) (ch : Channel) (c : Bool) (x : FslItem) (q : List FslItem) : (s.popInto rd ch c x q).msr = { s.msr with fsl := x.control != c } := rfl
@[simp] theorem State.popInto_imm (rd : RegNum) (ch : Channel) (c : Bool) (x : FslItem) (q : List FslItem) : (s.popInto rd ch c x q).imm = s.imm := rfl
@[simp] theorem State.popInto_ds (rd : RegNum) (ch : Channel) (c : Bool) (x : FslItem) (q : List FslItem) : (s.popInto rd ch c x q).ds = s.ds := rfl
@[simp] theorem State.popInto_window (rd : RegNum) (ch : Channel) (c : Bool) (x : FslItem) (q : List FslItem) : (s.popInto rd ch c x q).window = s.window := rfl
@[simp] theorem State.popInto_rst (rd : RegNum) (ch : Channel) (c : Bool) (x : FslItem) (q : List FslItem) : (s.popInto rd ch c x q).rst = s.rst := rfl
@[simp] theorem State.popInto_nm (rd : RegNum) (ch : Channel) (c : Bool) (x : FslItem) (q : List FslItem) : (s.popInto rd ch c x q).nm = s.nm := rfl
@[simp] theorem State.popInto_brk (rd : RegNum) (ch : Channel) (c : Bool) (x : FslItem) (q : List FslItem) : (s.popInto rd ch c x q).brk = s.brk := rfl
@[simp] theorem State.popInto_exc (rd : RegNum) (ch : Channel) (c : Bool) (x : FslItem) (q : List FslItem) : (s.popInto rd ch c x q).exc = s.exc := rfl
@[simp] theorem State.popInto_intPin (rd : RegNum) (ch : Channel) (c : Bool) (x : FslItem) (q : List FslItem) : (s.popInto rd ch c x q).intPin = s.intPin := rfl
@[simp] theorem State.popInto_intLatch (rd : RegNum) (ch : Channel) (c : Bool) (x : FslItem) (q : List FslItem) : (s.popInto rd ch c x q).intLatch = s.intLatch := rfl
@[simp] theorem State.popInto_stopped (rd : RegNum) (ch : Channel) (c : Bool) (x : FslItem) (q : List FslItem) : (s.popInto rd ch c x q).stopped = s.stopped := rfl
@[simp] theorem State.popInto_mem (rd : RegNum) (ch : Channel) (c : Bool) (x : FslItem) (q : List FslItem) : (s.popInto rd ch c x q).mem = s.mem := rfl
@[simp] theorem State.popInto_imem (rd : RegNum) (ch : Channel) (c : Bool) (x : FslItem) (q : List FslItem) : (s.popInto rd ch c x q).imem = s.imem := rfl
@[simp] theorem State.popInto_icache (rd : RegNum) (ch : Channel) (c : Bool) (x : FslItem) (q : List FslItem) : (s.popInto rd ch c x q).icache = s.icache := rfl
@[simp] theorem State.popInto_dcache (rd : RegNum) (ch : Channel) (c : Bool) (x : FslItem) (q : List FslItem) : (s.popInto rd ch c x q).dcache = s.dcache := rfl
@[simp] theorem State.popInto_inQ (rd : RegNum) (ch : Channel) (c : Bool) (x : FslItem) (q : List FslItem) : (s.popInto rd ch c x q).inQ = s.inQ.set ch.toNat q := rfl
@[simp] theorem State.popInto_outQ (rd : RegNum) (ch : Channel) (c : Bool) (x : FslItem) (q : List FslItem) : (s.popInto rd ch c x q).outQ = s.outQ := rfl
@[simp] theorem State.popInto_devLog (rd : RegNum) (ch : Channel) (c : Bool) (x : FslItem) (q : List FslItem) : (s.popInto rd ch c x q).devLog = s.devLog := rfl
@[simp] theorem State.popInto_busLocked (rd : RegNum) (ch : Channel) (c : Bool) (x : FslItem) (q : List FslItem) : (s.popInto rd ch c x q).busLocked = s.busLocked := rfl
@[simp] theorem State.popInto_stored (rd : RegNum) (ch : Channel) (c : Bool) (x : FslItem) (q : List FslItem) : (s.popInto rd ch c x q).stored = s.stored := rfl
@[simp] theorem State.popInto_icount (rd : RegNum) (ch : Channel) (c : Bool) (x : FslItem) (q : List FslItem) : (s.popInto rd ch c x q).icount = s.icount := rfl
@[simp] theorem State.popInto_lastTaken (rd : RegNum) (ch : Channel) (c : Bool) (x : FslItem) (q : List FslItem) : (s.popInto rd ch c x q).lastTaken = s.lastTaken := rfl
@[simp] theorem State.popInto_draws (rd : RegNum) (ch : Channel) (c : Bool) (x : FslItem) (q : List FslItem) : (s.popInto rd ch c x q).draws = s.draws := rfl

/-! ### push -/

@[simp] theorem State.push_cfg (ra : RegNum) (ch : Channel) (c : Bool) : (s.push ra ch c).cfg = s.cfg := rfl
@[simp] theorem State.push_gpr (ra : RegNum) (ch : Channel) (c : Bool) : (s.push ra ch c).gpr = s.gpr := rfl
@[simp] theorem State.push_pc (ra : RegNum) (ch : Channel) (c : Bool) : (s.push ra ch c).pc = s.pc := rfl
@[simp] theorem State.push_msr (ra : RegNum) (ch : Channel) (c : Bool) : (s.push ra ch c).msr = s.msr := rfl
@[simp] theorem State.push_imm (ra : RegNum) (ch : Channel) (c : Bool) : (s.push ra ch c).imm = s.imm := rfl
@[simp] theorem State.push_ds (ra : RegNum) (ch : Channel) (c : Bool) : (s.push ra ch c).ds = s.ds := rfl
@[simp] theorem State.push_window (ra : RegNum) (ch : Channel) (c : Bool) : (s.push ra ch c).window = s.window := rfl
@[simp] theorem State.push_rst (ra : RegNum) (ch : Channel) (c : Bool) : (s.push ra ch c).rst = s.rst := rfl
@[simp] theorem State.push_nm (ra : RegNum) (ch : Channel) (c : Bool) : (s.push ra ch c).nm = s.nm := rfl
@[simp] theorem State.push_brk (ra : RegNum) (ch : Channel) (c : Bool) : (s.push ra ch c).brk = s.brk := rfl
@[simp] theorem State.push_exc (ra : RegNum) (ch : Channel) (c : Bool) : (s.push ra ch c).exc = s.exc := rfl
@[simp] theorem State.push_intPin (ra : RegNum) (ch : Channel) (c : Bool) : (s.push ra ch c).intPin = s.intPin := rfl
@[simp] theorem State.push_intLatch (ra : RegNum) (ch : Channel) (c : Bool) : (s.push ra ch c).intLatch = s.intLatch := rfl
@[simp] theorem State.push_stopped (ra : RegNum) (ch : Channel) (c : Bool) : (s.push ra ch c).stopped = s.stopped := rfl
@[simp] theorem State.push_mem (ra : RegNum) (ch : Channel) (c : Bool) : (s.push ra ch c).mem = s.mem := rfl
@[simp] theorem State.push_imem (ra : RegNum) (ch : Channel) (c : Bool) : (s.push ra ch c).imem = s.imem := rfl
@[simp] theorem State.push_icache (ra : RegNum) (ch : Channel) (c : Bool) : (s.push ra ch c).icache = s.icache := rfl
@[simp] theorem State.push_dcache (ra : RegNum) (ch : Channel) (c : Bool) : (s.push ra ch c).dcache = s.dcache := rfl
@[simp] theorem State.push_inQ (ra : RegNum) (ch : Channel) (c : Bool) : (s.push ra ch c).inQ = s.inQ := rfl
@[simp] theorem State.push_outQ (ra : RegNum) (ch : Channel) (c : Bool) : (s.push ra ch c).outQ = s.outQ.set ch.toNat (s.outQueue ch ++ [⟨s.reg ra, c⟩]) := rfl
@[simp] theorem State.push_devLog (ra : RegNum) (ch : Channel) (c : Bool) : (s.push ra ch c).devLog = s.devLog := rfl
@[simp] theorem State.push_busLocked (ra : RegNum) (ch : Channel) (c : Bool) : (s.push ra ch c).busLocked = s.busLocked := rfl
@[simp] theorem State.push_stored (ra : RegNum) (ch : Channel) (c : Bool) : (s.push ra ch c).stored = s.stored := rfl
@[simp] theorem State.push_icount (ra : RegNum) (ch : Channel) (c : Bool) : (s.push ra ch c).icount = s.icount := rfl
@[simp] theorem State.push_lastTaken (ra : RegNum) (ch : Channel) (c : Bool) : (s.push ra ch c).lastTaken = s.lastTaken := rfl
@[simp] theorem State.push_draws (ra : RegNum) (ch : Channel) (c : Bool) : (s.push ra ch c).draws = s.draws := rfl
@[simp] theorem State.push_reg (ra : RegNum) (ch : Channel) (c : Bool) (k : RegNum) : (s.push ra ch c).reg k = s.reg k := by simp [State.reg]

/-! ### transfer -/

@[simp] theorem State.transfer_cfg : s.transfer.cfg = s.cfg := by simp [State.transfer, State.busLock]
@[simp] theorem State.transfer_gpr : s.transfer.gpr = s.gpr := by simp [State.transfer, State.busLock]
@[simp] theorem State.transfer_pc : s.transfer.pc = s.pc := by simp [State.transfer, State.busLock]
@[simp] theorem State.transfer_msr : s.transfer.msr = s.msr := by simp [State.transfer, State.busLock]
@[simp] theorem State.transfer_imm : s.transfer.imm = s.imm := by simp [State.transfer, State.busLock]
@[simp] theorem State.transfer_ds : s.transfer.ds = s.ds := by simp [State.transfer, State.busLock]
@[simp] theorem State.transfer_window : s.transfer.window = s.window := by simp [State.transfer, State.busLock]
@[simp] theorem State.transfer_rst : s.transfer.rst = s.rst := by simp [State.transfer, State.busLock]
@[simp] theorem State.transfer_nm : s.transfer.nm = s.nm := by simp [State.transfer, State.busLock]
@[simp] theorem State.transfer_brk : s.transfer.brk = s.brk := by simp [State.transfer, State.busLock]
@[simp] theorem State.transfer_exc : s.transfer.exc = s.exc := by simp [State.transfer, State.busLock]
@[simp] theorem State.transfer_intPin : s.transfer.intPin = s.intPin := by simp [State.transfer, State.busLock]
@[simp] theorem State.transfer_intLatch : s.transfer.intLatch = s.intLatch := by simp [State.transfer, State.busLock]
@[simp] theorem State.transfer_stopped : s.transfer.stopped = s.stopped := by simp [State.transfer, State.busLock]
@[simp] theorem State.transfer_mem : s.transfer.mem = s.mem := by simp [State.transfer, State.busLock]
@[simp] theorem State.transfer_imem : s.transfer.imem = s.imem := by simp [State.transfer, State.busLock]
@[simp] theorem State.transfer_icache : s.transfer.icache = s.icache := by simp [State.transfer, State.busLock]
@[simp] theorem State.transfer_dcache : s.transfer.dcache = s.dcache := by simp [State.transfer, State.busLock]
@[simp] theorem State.transfer_inQ : s.transfer.inQ = s.inQ := by simp [State.transfer, State.busLock]
@[simp] theorem State.transfer_outQ : s.transfer.outQ = s.outQ := by simp [State.transfer, State.busLock]
@[simp] theorem State.transfer_devLog : s.transfer.devLog = s.devLog := by simp [State.transfer, State.busLock]
@[simp] theorem State.transfer_busLocked : s.transfer.busLocked = s.busLock.1 := by simp [State.transfer, State.busLock]
@[simp] theorem State.transfer_stored : s.transfer.stored = s.stored := by simp [State.transfer, State.busLock]
@[simp] theorem State.transfer_icount : s.transfer.icount = s.icount := by simp [State.transfer, State.busLock]
@[simp] theorem State.transfer_lastTaken : s.transfer.lastTaken = s.lastTaken := by simp [State.transfer, State.busLock]
@[simp] theorem State.transfer_reg (k : RegNum) : s.transfer.reg k = s.reg k := by simp [State.reg]

/-! ### deviceTransfer -/

@[simp] theorem State.deviceTransfer_cfg (n : Size) (a : Nat) (v : Option Word) : (s.deviceTransfer n a v).cfg = s.cfg := by simp [State.deviceTransfer]
@[simp] theorem State.deviceTransfer_gpr (n : Size) (a : Nat) (v : Option Word) : (s.deviceTransfer n a v).gpr = s.gpr := by simp [State.deviceTransfer]
@[simp] theorem State.deviceTransfer_pc (n : Size) (a : Nat) (v : Option Word) : (s.deviceTransfer n a v).pc = s.pc := by simp [State.deviceTransfer]
@[simp] theorem State.deviceTransfer_msr (n : Size) (a : Nat) (v : Option Word) : (s.deviceTransfer n a v).msr = s.msr := by simp [State.deviceTransfer]
@[simp] theorem State.deviceTransfer_imm (n : Size) (a : Nat) (v : Option Word) : (s.deviceTransfer n a v).imm = s.imm := by simp [State.deviceTransfer]
@[simp] theorem State.deviceTransfer_ds (n : Size) (a : Nat) (v : Option Word) : (s.deviceTransfer n a v).ds = s.ds := by simp [State.deviceTransfer]
@[simp] theorem State.deviceTransfer_window (n : Size) (a : Nat) (v : Option Word) : (s.deviceTransfer n a v).window = s.window := by simp [State.deviceTransfer]
@[simp] theorem State.deviceTransfer_rst (n : Size) (a : Nat) (v : Option Word) : (s.deviceTransfer n a v).rst = s.rst := by simp [State.deviceTransfer]
@[simp] theorem State.deviceTransfer_nm (n : Size) (a : Nat) (v : Option Word) : (s.deviceTransfer n a v).nm = s.nm := by simp [State.deviceTransfer]
@[simp] theorem State.deviceTransfer_brk (n : Size) (a : Nat) (v : Option Word) : (s.deviceTransfer n a v).brk = s.brk := by simp [State.deviceTransfer]
@[simp] theorem State.deviceTransfer_exc (n : Size) (a : Nat) (v : Option Word) : (s.deviceTransfer n a v).exc = s.exc := by simp [State.deviceTransfer]
@[simp] theorem State.deviceTransfer_intPin (n : Size) (a : Nat) (v : Option Word) : (s.deviceTransfer n a v).intPin = s.intPin := by simp [State.deviceTransfer]
@[simp] theorem State.deviceTransfer_intLatch (n : Size) (a : Nat) (v : Option Word) : (s.deviceTransfer n a v).intLatch = s.intLatch := by simp [State.deviceTransfer]
@[simp] theorem State.deviceTransfer_stopped (n : Size) (a : Nat) (v : Option Word) : (s.deviceTransfer n a v).stopped = s.stopped := by simp [State.deviceTransfer]
@[simp] theorem State.deviceTransfer_mem (n : Size) (a : Nat) (v : Option Word) : (s.deviceTransfer n a v).mem = s.mem := by simp [State.deviceTransfer]
@[simp] theorem State.deviceTransfer_imem (n : Size) (a : Nat) (v : Option Word) : (s.deviceTransfer n a v).imem = s.imem := by simp [State.deviceTransfer]
@[simp] theorem State.deviceTransfer_icache (n : Size) (a : Nat) (v : Option Word) : (s.deviceTransfer n a v).icache = s.icache := by simp [State.deviceTransfer]
@[simp] theorem State.deviceTransfer_dcache (n : Size) (a : Nat) (v : Option Word) : (s.deviceTransfer n a v).dcache = s.dcache := by simp [State.deviceTransfer]
@[simp] theorem State.deviceTransfer_inQ (n : Size) (a : Nat) (v : Option Word) : (s.deviceTransfer n a v).inQ = s.inQ := by simp [State.deviceTransfer]
@[simp] theorem State.deviceTransfer_outQ (n : Size) (a : Nat) (v : Option Word) : (s.deviceTransfer n a v).outQ = s.outQ := by simp [State.deviceTransfer]
@[simp] theorem State.deviceTransfer_devLog (n : Size) (a : Nat) (v : Option Word) : (s.deviceTransfer n a v).devLog = ⟨a, n.bytes, v, s.busLock.1⟩ :: s.devLog := by simp [State.deviceTransfer]
@[simp] theorem State.deviceTransfer_busLocked (n : Size) (a : Nat) (v : Option Word) : (s.deviceTransfer n a v).busLocked = s.busLock.1 := by simp [State.deviceTransfer]
@[simp] theorem State.deviceTransfer_stored (n : Size) (a : Nat) (v : Option Word) : (s.deviceTransfer n a v).stored = s.stored := by simp [State.deviceTransfer]
@[simp] theorem State.deviceTransfer_icount (n : Size) (a : Nat) (v : Option Word) : (s.deviceTransfer n a v).icount = s.icount := by simp [State.deviceTransfer]
@[simp] theorem State.deviceTransfer_lastTaken (n : Size) (a : Nat) (v : Option Word) : (s.deviceTransfer n a v).lastTaken = s.lastTaken := by simp [State.deviceTransfer]
@[simp] theorem State.deviceTransfer_reg (n : Size) (a : Nat) (v : Option Word) (k : RegNum) : (s.deviceTransfer n a v).reg k = s.reg k := by simp [State.reg]

/-! ### markStored -/

@[simp] theorem State.markStored_cfg (a : Nat) : (s.markStored a).cfg = s.cfg := by unfold State.markStored; split <;> rfl
@[simp] theorem State.markStored_gpr (a : Nat) : (s.markStored a).gpr = s.gpr := by unfold State.markStored; split <;> rfl
@[simp] theorem State.markStored_pc (a : Nat) : (s.markStored a).pc = s.pc := by unfold State.markStored; split <;> rfl
@[simp] theorem State.markStored_msr (a : Nat) : (s.markStored a).msr = s.msr := by unfold State.markStored; split <;> rfl
@[simp] theorem State.markStored_imm (a : Nat) : (s.markStored a).imm = s.imm := by unfold State.markStored; split <;> rfl
@[simp] theorem State.markStored_ds (a : Nat) : (s.markStored a).ds = s.ds := by unfold State.markStored; split <;> rfl
@[simp] theorem State.markStored_window (a : Nat) : (s.markStored a).window = s.window := by unfold State.markStored; split <;> rfl
@[simp] theorem State.markStored_rst (a : Nat) : (s.markStored a).rst = s.rst := by unfold State.markStored; split <;> rfl
@[simp] theorem State.markStored_nm (a : Nat) : (s.markStored a).nm = s.nm := by unfold State.markStored; split <;> rfl
@[simp] theorem State.markStored_brk (a : Nat) : (s.markStored a).brk = s.brk := by unfold State.markStored; split <;> rfl
@[simp] theorem State.markStored_exc (a : Nat) : (s.markStored a).exc = s.exc := by unfold State.markStored; split <;> rfl
@[simp] theorem State.markStored_intPin (a : Nat) : (s.markStored a).intPin = s.intPin := by unfold State.markStored; split <;> rfl
@[simp] theorem State.markStored_intLatch (a : Nat) : (s.markStored a).intLatch = s.intLatch := by unfold State.markStored; split <;> rfl
@[simp] theorem State.markStored_stopped (a : Nat) : (s.markStored a).stopped = s.stopped := by unfold State.markStored; split <;> rfl
@[simp] theorem State.markStored_mem (a : Nat) : (s.markStored a).mem = s.mem := by unfold State.markStored; split <;> rfl
@[simp] theorem State.markStored_imem (a : Nat) : (s.markStored a).imem = s.imem := by unfold State.markStored; split <;> rfl
@[simp] theorem State.markStored_icache (a : Nat) : (s.markStored a).icache = s.icache := by unfold State.markStored; split <;> rfl
@[simp] theorem State.markStored_dcache (a : Nat) : (s.markStored a).dcache = s.dcache := by unfold State.markStored; split <;> rfl
@[simp] theorem State.markStored_inQ (a : Nat) : (s.markStored a).inQ = s.inQ := by unfold State.markStored; split <;> rfl
@[simp] theorem State.markStored_outQ (a : Nat) : (s.markStored a).outQ = s.outQ := by unfold State.markStored; split <;> rfl
@[simp] theorem State.markStored_devLog (a : Nat) : (s.markStored a).devLog = s.devLog := by unfold State.markStored; split <;> rfl
@[simp] theorem State.markStored_busLocked (a : Nat) : (s.markStored a).busLocked = s.busLocked := by unfold State.markStored; split <;> rfl
@[simp] theorem State.markStored_icount (a : Nat) : (s.markStored a).icount = s.icount := by unfold State.markStored; split <;> rfl
@[simp] theorem State.markStored_lastTaken (a : Nat) : (s.markStored a).lastTaken = s.lastTaken := by unfold State.markStored; split <;> rfl
@[simp] theorem State.markStored_draws (a : Nat) : (s.markStored a).draws = s.draws := by unfold State.markStored; split <;> rfl
@[simp] theorem State.markStored_reg (a : Nat) (k : RegNum) : (s.markStored a).reg k = s.reg k := by simp [State.reg]

/-! ### fillILine -/

@[simp] theorem State.fillILine_cfg (a : Nat) (w : Word) : (s.fillILine a w).cfg = s.cfg := rfl
@[simp] theorem State.fillILine_gpr (a : Nat) (w : Word) : (s.fillILine a w).gpr = s.gpr := rfl
@[simp] theorem State.fillILine_pc (a : Nat) (w : Word) : (s.fillILine a w).pc = s.pc := rfl
@[simp] theorem State.fillILine_msr (a : Nat) (w : Word) : (s.fillILine a w).msr = s.msr := rfl
@[simp] theorem State.fillILine_imm (a : Nat) (w : Word) : (s.fillILine a w).imm = s.imm := rfl
@[simp] theorem State.fillILine_ds (a : Nat) (w : Word) : (s.fillILine a w).ds = s.ds := rfl
@[simp] theorem State.fillILine_window (a : Nat) (w : Word) : (s.fillILine a w).window = s.window := rfl
@[simp] theorem State.fillILine_rst (a : Nat) (w : Word) : (s.fillILine a w).rst = s.rst := rfl
@[simp] theorem State.fillILine_nm (a : Nat) (w : Word) : (s.fillILine a w).nm = s.nm := rfl
@[simp] theorem State.fillILine_brk (a : Nat) (w : Word) : (s.fillILine a w).brk = s.brk := rfl
@[simp] theorem State.fillILine_exc (a : Nat) (w : Word) : (s.fillILine a w).exc = s.exc := rfl
@[simp] theorem State.fillILine_intPin (a : Nat) (w : Word) : (s.fillILine a w).intPin = s.intPin := rfl
@[simp] theorem State.fillILine_intLatch (a : Nat) (w : Word) : (s.fillILine a w).intLatch = s.intLatch := rfl
@[simp] theorem State.fillILine_stopped (a : Nat) (w : Word) : (s.fillILine a w).stopped = s.stopped := rfl
@[simp] theorem State.fillILine_mem (a : Nat) (w : Word) : (s.fillILine a w).mem = s.mem := rfl
@[simp] theorem State.fillILine_imem (a : Nat) (w : Word) : (s.fillILine a w).imem = s.imem := rfl
@[simp] theorem State.fillILine_dcache (a : Nat) (w : Word) : (s.fillILine a w).dcache = s.dcache := rfl
@[simp] theorem State.fillILine_inQ (a : Nat) (w : Word) : (s.fillILine a w).inQ = s.inQ := rfl
@[simp] theorem State.fillILine_outQ (a : Nat) (w : Word) : (s.fillILine a w).outQ = s.outQ := rfl
@[simp] theorem State.fillILine_devLog (a : Nat) (w : Word) : (s.fillILine a w).devLog = s.devLog := rfl
@[simp] theorem State.fillILine_busLocked (a : Nat) (w : Word) : (s.fillILine a w).busLocked = s.busLocked := rfl
@[simp] theorem State.fillILine_stored (a : Nat) (w : Word) : (s.fillILine a w).stored = s.stored := rfl
@[simp] theorem State.fillILine_icount (a : Nat) (w : Word) : (s.fillILine a w).icount = s.icount := rfl
@[simp] theorem State.fillILine_lastTaken (a : Nat) (w : Word) : (s.fillILine a w).lastTaken = s.lastTaken := rfl
@[simp] theorem State.fillILine_draws (a : Nat) (w : Word) : (s.fillILine a w).draws = s.draws := rfl
@[simp] theorem State.fillILine_reg (a : Nat) (w : Word) (k : RegNum) : (s.fillILine a w).reg k = s.reg k := by simp [State.reg]

/-! ### fillDLine -/

@[simp] theorem State.fillDLine_cfg (a : Nat) (w : Word) : (s.fillDLine a w).cfg = s.cfg := rfl
@[simp] theorem State.fillDLine_gpr (a : Nat) (w : Word) : (s.fillDLine a w).gpr = s.gpr := rfl
@[simp] theorem State.fillDLine_pc (a : Nat) (w : Word) : (s.fillDLine a w).pc = s.pc := rfl
@[simp] theorem State.fillDLine_msr (a : Nat) (w : Word) : (s.fillDLine a w).msr = s.msr := rfl
@[simp] theorem State.fillDLine_imm (a : Nat) (w : Word) : (s.fillDLine a w).imm = s.imm := rfl
@[simp] theorem State.fillDLine_ds (a : Nat) (w : Word) : (s.fillDLine a w).ds = s.ds := rfl
@[simp] theorem State.fillDLine_window (a : Nat) (w : Word) : (s.fillDLine a w).window = s.window := rfl
@[simp] theorem State.fillDLine_rst (a : Nat) (w : Word) : (s.fillDLine a w).rst = s.rst := rfl
@[simp] theorem State.fillDLine_nm (a : Nat) (w : Word) : (s.fillDLine a w).nm = s.nm := rfl
@[simp] theorem State.fillDLine_brk (a : Nat) (w : Word) : (s.fillDLine a w).brk = s.brk := rfl
@[simp] theorem State.fillDLine_exc (a : Nat) (w : Word) : (s.fillDLine a w).exc = s.exc := rfl
@[simp] theorem State.fillDLine_intPin (a : Nat) (w : Word) : (s.fillDLine a w).intPin = s.intPin := rfl
@[simp] theorem State.fillDLine_intLatch (a : Nat) (w : Word) : (s.fillDLine a w).intLatch = s.intLatch := rfl
@[simp] theorem State.fillDLine_stopped (a : Nat) (w : Word) : (s.fillDLine a w).stopped = s.stopped := rfl
@[simp] theorem State.fillDLine_mem (a : Nat) (w : Word) : (s.fillDLine a w).mem = s.mem := rfl
@[simp] theorem State.fillDLine_imem (a : Nat) (w : Word) : (s.fillDLine a w).imem = s.imem := rfl
@[simp] theorem State.fillDLine_icache (a : Nat) (w : Word) : (s.fillDLine a w).icache = s.icache := rfl
@[simp] theorem State.fillDLine_inQ (a : Nat) (w : Word) : (s.fillDLine a w).inQ = s.inQ := rfl
@[simp] theorem State.fillDLine_outQ (a : Nat) (w : Word) : (s.fillDLine a w).outQ = s.outQ := rfl
@[simp] theorem State.fillDLine_devLog (a : Nat) (w : Word) : (s.fillDLine a w).devLog = s.devLog := rfl
@[simp] theorem State.fillDLine_busLocked (a : Nat) (w : Word) : (s.fillDLine a w).busLocked = s.busLocked := rfl
@[simp] theorem State.fillDLine_stored (a : Nat) (w : Word) : (s.fillDLine a w).stored = s.stored := rfl
@[simp] theorem State.fillDLine_icount (a : Nat) (w : Word) : (s.fillDLine a w).icount = s.icount := rfl
@[simp] theorem State.fillDLine_lastTaken (a : Nat) (w : Word) : (s.fillDLine a w).lastTaken = s.lastTaken := rfl
@[simp] theorem State.fillDLine_draws (a : Nat) (w : Word) : (s.fillDLine a w).draws = s.draws := rfl
@[simp] theorem State.fillDLine_reg (a : Nat) (w : Word) (k : RegNum) : (s.fillDLine a w).reg k = s.reg k := by simp [State.reg]

/-! ### putICache -/

@[simp] theorem State.putICache_cfg (a w : Word) : (s.putICache a w).cfg = s.cfg := rfl
@[simp] theorem State.putICache_gpr (a w : Word) : (s.putICache a w).gpr = s.gpr := rfl
@[simp] theorem State.putICache_pc (a w : Word) : (s.putICache a w).pc = s.pc := rfl
@[simp] theorem State.putICache_msr (a w : Word) : (s.putICache a w).msr = s.msr := rfl
@[simp] theorem State.putICache_imm (a w : Word) : (s.putICache a w).imm = s.imm := rfl
@[simp] theorem State.putICache_ds (a w : Word) : (s.putICache a w).ds = s.ds := rfl
@[simp] theorem State.putICache_window (a w : Word) : (s.putICache a w).window = s.window := rfl
@[simp] theorem State.putICache_rst (a w : Word) : (s.putICache a w).rst = s.rst := rfl
@[simp] theorem State.putICache_nm (a w : Word) : (s.putICache a w).nm = s.nm := rfl
@[simp] theorem State.putICache_brk (a w : Word) : (s.putICache a w).brk = s.brk := rfl
@[simp] theorem State.putICache_exc (a w : Word) : (s.putICache a w).exc = s.exc := rfl
@[simp] theorem State.putICache_intPin (a w : Word) : (s.putICache a w).intPin = s.intPin := rfl
@[simp] theorem State.putICache_intLatch (a w : Word) : (s.putICache a w).intLatch = s.intLatch := rfl
@[simp] theorem State.putICache_stopped (a w : Word) : (s.putICache a w).stopped = s.stopped := rfl
@[simp] theorem State.putICache_mem (a w : Word) : (s.putICache a w).mem = s.mem := rfl
@[simp] theorem State.putICache_imem (a w : Word) : (s.putICache a w).imem = s.imem := rfl
@[simp] theorem State.putICache_dcache (a w : Word) : (s.putICache a w).dcache = s.dcache := rfl
@[simp] theorem State.putICache_inQ (a w : Word) : (s.putICache a w).inQ = s.inQ := rfl
@[simp] theorem State.putICache_outQ (a w : Word) : (s.putICache a w).outQ = s.outQ := rfl
@[simp] theorem State.putICache_devLog (a w : Word) : (s.putICache a w).devLog = s.devLog := rfl
@[simp] theorem State.putICache_busLocked (a w : Word) : (s.putICache a w).busLocked = s.busLocked := rfl
@[simp] theorem State.putICache_stored (a w : Word) : (s.putICache a w).stored = s.stored := rfl
@[simp] theorem State.putICache_icount (a w : Word) : (s.putICache a w).icount = s.icount := rfl
@[simp] theorem State.putICache_lastTaken (a w : Word) : (s.putICache a w).lastTaken = s.lastTaken := rfl
@[simp] theorem State.putICache_draws (a w : Word) : (s.putICache a w).draws = s.draws := rfl
@[simp] theorem State.putICache_reg (a w : Word) (k : RegNum) : (s.putICache a w).reg k = s.reg k := by simp [State.reg]

/-! ### putDCache -/

@[simp] theorem State.putDCache_cfg (a w : Word) : (s.putDCache a w).cfg = s.cfg := rfl
@[simp] theorem State.putDCache_gpr (a w : Word) : (s.putDCache a w).gpr = s.gpr := rfl
@[simp] theorem State.putDCache_pc (a w : Word) : (s.putDCache a w).pc = s.pc := rfl
@[simp] theorem State.putDCache_msr (a w : Word) : (s.putDCache a w).msr = s.msr := rfl
@[simp] theorem State.putDCache_imm (a w : Word) : (s.putDCache a w).imm = s.imm := rfl
@[simp] theorem State.putDCache_ds (a w : Word) : (s.putDCache a w).ds = s.ds := rfl
@[simp] theorem State.putDCache_window (a w : Word) : (s.putDCache a w).window = s.window := rfl
@[simp] theorem State.putDCache_rst (a w : Word) : (s.putDCache a w).rst = s.rst := rfl
@[simp] theorem State.putDCache_nm (a w : Word) : (s.putDCache a w).nm = s.nm := rfl
@[simp] theorem State.putDCache_brk (a w : Word) : (s.putDCache a w).brk = s.brk := rfl
@[simp] theorem State.putDCache_exc (a w : Word) : (s.putDCache a w).exc = s.exc := rfl
@[simp] theorem State.putDCache_intPin (a w : Word) : (s.putDCache a w).intPin = s.intPin := rfl
@[simp] theorem State.putDCache_intLatch (a w : Word) : (s.putDCache a w).intLatch = s.intLatch := rfl
@[simp] theorem State.putDCache_stopped (a w : Word) : (s.putDCache a w).stopped = s.stopped := rfl
@[simp] theorem State.putDCache_mem (a w : Word) : (s.putDCache a w).mem = s.mem := rfl
@[simp] theorem State.putDCache_imem (a w : Word) : (s.putDCache a w).imem = s.imem := rfl
@[simp] theorem State.putDCache_icache (a w : Word) : (s.putDCache a w).icache = s.icache := rfl
@[simp] theorem State.putDCache_inQ (a w : Word) : (s.putDCache a w).inQ = s.inQ := rfl
@[simp] theorem State.putDCache_outQ (a w : Word) : (s.putDCache a w).outQ = s.outQ := rfl
@[simp] theorem State.putDCache_devLog (a w : Word) : (s.putDCache a w).devLog = s.devLog := rfl
@[simp] theorem State.putDCache_busLocked (a w : Word) : (s.putDCache a w).busLocked = s.busLocked := rfl
@[simp] theorem State.putDCache_stored (a w : Word) : (s.putDCache a w).stored = s.stored := rfl
@[simp] theorem State.putDCache_icount (a w : Word) : (s.putDCache a w).icount = s.icount := rfl
@[simp] theorem State.putDCache_lastTaken (a w : Word) : (s.putDCache a w).lastTaken = s.lastTaken := rfl
@[simp] theorem State.putDCache_draws (a w : Word) : (s.putDCache a w).draws = s.draws := rfl
@[simp] theorem State.putDCache_reg (a w : Word) (k : RegNum) : (s.putDCache a w).reg k = s.reg k := by simp [State.reg]

/-! ### refillWord -/

@[simp] theorem State.refillWord_cfg (n : Size) (a : Nat) (v : Word) : (s.refillWord n a v).2.cfg = s.cfg := by
  unfold State.refillWord; split <;> rfl
@[simp] theorem State.refillWord_gpr (n : Size) (a : Nat) (v : Word) : (s.refillWord n a v).2.gpr = s.gpr := by
  unfold State.refillWord; split <;> rfl
@[simp] theorem State.refillWord_pc (n : Size) (a : Nat) (v : Word) : (s.refillWord n a v).2.pc = s.pc := by
  unfold State.refillWord; split <;> rfl
@[simp] theorem State.refillWord_msr (n : Size) (a : Nat) (v : Word) : (s.refillWord n a v).2.msr = s.msr := by
  unfold State.refillWord; split <;> rfl
@[simp] theorem State.refillWord_imm (n : Size) (a : Nat) (v : Word) : (s.refillWord n a v).2.imm = s.imm := by
  unfold State.refillWord; split <;> rfl
@[simp] theorem State.refillWord_ds (n : Size) (a : Nat) (v : Word) : (s.refillWord n a v).2.ds = s.ds := by
  unfold State.refillWord; split <;> rfl
@[simp] theorem State.refillWord_window (n : Size) (a : Nat) (v : Word) : (s.refillWord n a v).2.window = s.window := by
  unfold State.refillWord; split <;> rfl
@[simp] theorem State.refillWord_rst (n : Size) (a : Nat) (v : Word) : (s.refillWord n a v).2.rst = s.rst := by
  unfold State.refillWord; split <;> rfl
@[simp] theorem State.refillWord_nm (n : Size) (a : Nat) (v : Word) : (s.refillWord n a v).2.nm = s.nm := by
  unfold State.refillWord; split <;> rfl
@[simp] theorem State.refillWord_brk (n : Size) (a : Nat) (v : Word) : (s.refillWord n a v).2.brk = s.brk := by
  unfold State.refillWord; split <;> rfl
@[simp] theorem State.refillWord_exc (n : Size) (a : Nat) (v : Word) : (s.refillWord n a v).2.exc = s.exc := by
  unfold State.refillWord; split <;> rfl
@[simp] theorem State.refillWord_intPin (n : Size) (a : Nat) (v : Word) : (s.refillWord n a v).2.intPin = s.intPin := by
  unfold State.refillWord; split <;> rfl
@[simp] theorem State.refillWord_intLatch (n : Size) (a : Nat) (v : Word) : (s.refillWord n a v).2.intLatch = s.intLatch := by
  unfold State.refillWord; split <;> rfl
@[simp] theorem State.refillWord_stopped (n : Size) (a : Nat) (v : Word) : (s.refillWord n a v).2.stopped = s.stopped := by
  unfold State.refillWord; split <;> rfl
@[simp] theorem State.refillWord_mem (n : Size) (a : Nat) (v : Word) : (s.refillWord n a v).2.mem = s.mem := by
  unfold State.refillWord; split <;> rfl
@[simp] theorem State.refillWord_imem (n : Size) (a : Nat) (v : Word) : (s.refillWord n a v).2.imem = s.imem := by
  unfold State.refillWord; split <;> rfl
@[simp] theorem State.refillWord_icache (n : Size) (a : Nat) (v : Word) : (s.refillWord n a v).2.icache = s.icache := by
  unfold State.refillWord; split <;> rfl
@[simp] theorem State.refillWord_dcache (n : Size) (a : Nat) (v : Word) : (s.refillWord n a v).2.dcache = s.dcache := by
  unfold State.refillWord; split <;> rfl
@[simp] theorem State.refillWord_inQ (n : Size) (a : Nat) (v : Word) : (s.refillWord n a v).2.inQ = s.inQ := by
  unfold State.refillWord; split <;> rfl
@[simp] theorem State.refillWord_outQ (n : Size) (a : Nat) (v : Word) : (s.refillWord n a v).2.outQ = s.outQ := by
  unfold State.refillWord; split <;> rfl
@[simp] theorem State.refillWord_devLog (n : Size) (a : Nat) (v : Word) : (s.refillWord n a v).2.devLog = s.devLog := by
  unfold State.refillWord; split <;> rfl
@[simp] theorem State.refillWord_busLocked (n : Size) (a : Nat) (v : Word) : (s.refillWord n a v).2.busLocked = s.busLocked := by
  unfold State.refillWord; split <;> rfl
@[simp] theorem State.refillWord_stored (n : Size) (a : Nat) (v : Word) : (s.refillWord n a v).2.stored = s.stored := by
  unfold State.refillWord; split <;> rfl
@[simp] theorem State.refillWord_icount (n : Size) (a : Nat) (v : Word) : (s.refillWord n a v).2.icount = s.icount := by
  unfold State.refillWord; split <;> rfl
@[simp] theorem State.refillWord_lastTaken (n : Size) (a : Nat) (v : Word) : (s.refillWord n a v).2.lastTaken = s.lastTaken := by
  unfold State.refillWord; split <;> rfl
@[simp] theorem State.refillWord_reg (n : Size) (a : Nat) (v : Word) (k : RegNum) : (s.refillWord n a v).2.reg k = s.reg k := by simp [State.reg]

/-! ### mayRefill -/

@[simp] theorem State.mayRefill_cfg (n : Size) (a : Nat) (v : Word) (l : CacheLine) : (s.mayRefill n a v l).cfg = s.cfg := by
  unfold State.mayRefill; split
  · rfl
  · dsimp only; split
    · exact State.refillWord_cfg _ n a v
    · rfl
@[simp] theorem State.mayRefill_gpr (n : Size) (a : Nat) (v : Word) (l : CacheLine) : (s.mayRefill n a v l).gpr = s.gpr := by
  unfold State.mayRefill; split
  · rfl
  · dsimp only; split
    · exact State.refillWord_gpr _ n a v
    · rfl
@[simp] theorem State.mayRefill_pc (n : Size) (a : Nat) (v : Word) (l : CacheLine) : (s.mayRefill n a v l).pc = s.pc := by
  unfold State.mayRefill; split
  · rfl
  · dsimp only; split
    · exact State.refillWord_pc _ n a v
    · rfl
@[simp] theorem State.mayRefill_msr (n : Size) (a : Nat) (v : Word) (l : CacheLine) : (s.mayRefill n a v l).msr = s.msr := by
  unfold State.mayRefill; split
  · rfl
  · dsimp only; split
    · exact State.refillWord_msr _ n a v
    · rfl
@[simp] theorem State.mayRefill_imm (n : Size) (a : Nat) (v : Word) (l : CacheLine) : (s.mayRefill n a v l).imm = s.imm := by
  unfold State.mayRefill; split
  · rfl
  · dsimp only; split
    · exact State.refillWord_imm _ n a v
    · rfl
@[simp] theorem State.mayRefill_ds (n : Size) (a : Nat) (v : Word) (l : CacheLine) : (s.mayRefill n a v l).ds = s.ds := by
  unfold State.mayRefill; split
  · rfl
  · dsimp only; split
    · exact State.refillWord_ds _ n a v
    · rfl
@[simp] theorem State.mayRefill_window (n : Size) (a : Nat) (v : Word) (l : CacheLine) : (s.mayRefill n a v l).window = s.window := by
  unfold State.mayRefill; split
  · rfl
  · dsimp only; split
    · exact State.refillWord_window _ n a v
    · rfl
@[simp] theorem State.mayRefill_rst (n : Size) (a : Nat) (v : Word) (l : CacheLine) : (s.mayRefill n a v l).rst = s.rst := by
  unfold State.mayRefill; split
  · rfl
  · dsimp only; split
    · exact State.refillWord_rst _ n a v
    · rfl
@[simp] theorem State.mayRefill_nm (n : Size) (a : Nat) (v : Word) (l : CacheLine) : (s.mayRefill n a v l).nm = s.nm := by
  unfold State.mayRefill; split
  · rfl
  · dsimp only; split
    · exact State.refillWord_nm _ n a v
    · rfl
@[simp] theorem State.mayRefill_brk (n : Size) (a : Nat) (v : Word) (l : CacheLine) : (s.mayRefill n a v l).brk = s.brk := by
  unfold State.mayRefill; split
  · rfl
  · dsimp only; split
    · exact State.refillWord_brk _ n a v
    · rfl
@[simp] theorem State.mayRefill_exc (n : Size) (a : Nat) (v : Word) (l : CacheLine) : (s.mayRefill n a v l).exc = s.exc := by
  unfold State.mayRefill; split
  · rfl
  · dsimp only; split
    · exact State.refillWord_exc _ n a v
    · rfl
@[simp] theorem State.mayRefill_intPin (n : Size) (a : Nat) (v : Word) (l : CacheLine) : (s.mayRefill n a v l).intPin = s.intPin := by
  unfold State.mayRefill; split
  · rfl
  · dsimp only; split
    · exact State.refillWord_intPin _ n a v
    · rfl
@[simp] theorem State.mayRefill_intLatch (n : Size) (a : Nat) (v : Word) (l : CacheLine) : (s.mayRefill n a v l).intLatch = s.intLatch := by
  unfold State.mayRefill; split
  · rfl
  · dsimp only; split
    · exact State.refillWord_intLatch _ n a v
    · rfl
@[simp] theorem State.mayRefill_stopped (n : Size) (a : Nat) (v : Word) (l : CacheLine) : (s.mayRefill n a v l).stopped = s.stopped := by
  unfold State.mayRefill; split
  · rfl
  · dsimp only; split
    · exact State.refillWord_stopped _ n a v
    · rfl
@[simp] theorem State.mayRefill_mem (n : Size) (a : Nat) (v : Word) (l : CacheLine) : (s.mayRefill n a v l).mem = s.mem := by
  unfold State.mayRefill; split
  · rfl
  · dsimp only; split
    · exact State.refillWord_mem _ n a v
    · rfl
@[simp] theorem State.mayRefill_imem (n : Size) (a : Nat) (v : Word) (l : CacheLine) : (s.mayRefill n a v l).imem = s.imem := by
  unfold State.mayRefill; split
  · rfl
  · dsimp only; split
    · exact State.refillWord_imem _ n a v
    · rfl
@[simp] theorem State.mayRefill_icache (n : Size) (a : Nat) (v : Word) (l : CacheLine) : (s.mayRefill n a v l).icache = s.icache := by
  unfold State.mayRefill; split
  · rfl
  · dsimp only; split
    · exact State.refillWord_icache _ n a v
    · rfl
@[simp] theorem State.mayRefill_inQ (n : Size) (a : Nat) (v : Word) (l : CacheLine) : (s.mayRefill n a v l).inQ = s.inQ := by
  unfold State.mayRefill; split
  · rfl
  · dsimp only; split
    · exact State.refillWord_inQ _ n a v
    · rfl
@[simp] theorem State.mayRefill_outQ (n : Size) (a : Nat) (v : Word) (l : CacheLine) : (s.mayRefill n a v l).outQ = s.outQ := by
  unfold State.mayRefill; split
  · rfl
  · dsimp only; split
    · exact State.refillWord_outQ _ n a v
    · rfl
@[simp] theorem State.mayRefill_devLog (n : Size) (a : Nat) (v : Word) (l : CacheLine) : (s.mayRefill n a v l).devLog = s.devLog := by
  unfold State.mayRefill; split
  · rfl
  · dsimp only; split
    · exact State.refillWord_devLog _ n a v
    · rfl
@[simp] theorem State.mayRefill_busLocked (n : Size) (a : Nat) (v : Word) (l : CacheLine) : (s.mayRefill n a v l).busLocked = s.busLocked := by
  unfold State.mayRefill; split
  · rfl
  · dsimp only; split
    · exact State.refillWord_busLocked _ n a v
    · rfl
@[simp] theorem State.mayRefill_stored (n : Size) (a : Nat) (v : Word) (l : CacheLine) : (s.mayRefill n a v l).stored = s.stored := by
  unfold State.mayRefill; split
  · rfl
  · dsimp only; split
    · exact State.refillWord_stored _ n a v
    · rfl
@[simp] theorem State.mayRefill_icount (n : Size) (a : Nat) (v : Word) (l : CacheLine) : (s.mayRefill n a v l).icount = s.icount := by
  unfold State.mayRefill; split
  · rfl
  · dsimp only; split
    · exact State.refillWord_icount _ n a v
    · rfl
@[simp] theorem State.mayRefill_lastTaken (n : Size) (a : Nat) (v : Word) (l : CacheLine) : (s.mayRefill n a v l).lastTaken = s.lastTaken := by
  unfold State.mayRefill; split
  · rfl
  · dsimp only; split
    · exact State.refillWord_lastTaken _ n a v
    · rfl
@[simp] theorem State.mayRefill_reg (n : Size) (a : Nat) (v : Word) (l : CacheLine) (k : RegNum) : (s.mayRefill n a v l).reg k = s.reg k := by simp [State.reg]

/-! ### cacheStore -/

@[simp] theorem State.cacheStore_cfg (n : Size) (a : Nat) (v : Word) : (s.cacheStore n a v).cfg = s.cfg := by
  unfold State.cacheStore; split
  · rfl
  · split
    · rfl
    · split
      · dsimp only; split <;> rfl
      · rfl
@[simp] theorem State.cacheStore_gpr (n : Size) (a : Nat) (v : Word) : (s.cacheStore n a v).gpr = s.gpr := by
  unfold State.cacheStore; split
  · rfl
  · split
    · rfl
    · split
      · dsimp only; split <;> rfl
      · rfl
@[simp] theorem State.cacheStore_pc (n : Size) (a : Nat) (v : Word) : (s.cacheStore n a v).pc = s.pc := by
  unfold State.cacheStore; split
  · rfl
  · split
    · rfl
    · split
      · dsimp only; split <;> rfl
      · rfl
@[simp] theorem State.cacheStore_msr (n : Size) (a : Nat) (v : Word) : (s.cacheStore n a v).msr = s.msr := by
  unfold State.cacheStore; split
  · rfl
  · split
    · rfl
    · split
      · dsimp only; split <;> rfl
      · rfl
@[simp] theorem State.cacheStore_imm (n : Size) (a : Nat) (v : Word) : (s.cacheStore n a v).imm = s.imm := by
  unfold State.cacheStore; split
  · rfl
  · split
    · rfl
    · split
      · dsimp only; split <;> rfl
      · rfl
@[simp] theorem State.cacheStore_ds (n : Size) (a : Nat) (v : Word) : (s.cacheStore n a v).ds = s.ds := by
  unfold State.cacheStore; split
  · rfl
  · split
    · rfl
    · split
      · dsimp only; split <;> rfl
      · rfl
@[simp] theorem State.cacheStore_window (n : Size) (a : Nat) (v : Word) : (s.cacheStore n a v).window = s.window := by
  unfold State.cacheStore; split
  · rfl
  · split
    · rfl
    · split
      · dsimp only; split <;> rfl
      · rfl
@[simp] theorem State.cacheStore_rst (n : Size) (a : Nat) (v : Word) : (s.cacheStore n a v).rst = s.rst := by
  unfold State.cacheStore; split
  · rfl
  · split
    · rfl
    · split
      · dsimp only; split <;> rfl
      · rfl
@[simp] theorem State.cacheStore_nm (n : Size) (a : Nat) (v : Word) : (s.cacheStore n a v).nm = s.nm := by
  unfold State.cacheStore; split
  · rfl
  · split
    · rfl
    · split
      · dsimp only; split <;> rfl
      · rfl
@[simp] theorem State.cacheStore_brk (n : Size) (a : Nat) (v : Word) : (s.cacheStore n a v).brk = s.brk := by
  unfold State.cacheStore; split
  · rfl
  · split
    · rfl
    · split
      · dsimp only; split <;> rfl
      · rfl
@[simp] theorem State.cacheStore_exc (n : Size) (a : Nat) (v : Word) : (s.cacheStore n a v).exc = s.exc := by
  unfold State.cacheStore; split
  · rfl
  · split
    · rfl
    · split
      · dsimp only; split <;> rfl
      · rfl
@[simp] theorem State.cacheStore_intPin (n : Size) (a : Nat) (v : Word) : (s.cacheStore n a v).intPin = s.intPin := by
  unfold State.cacheStore; split
  · rfl
  · split
    · rfl
    · split
      · dsimp only; split <;> rfl
      · rfl
@[simp] theorem State.cacheStore_intLatch (n : Size) (a : Nat) (v : Word) : (s.cacheStore n a v).intLatch = s.intLatch := by
  unfold State.cacheStore; split
  · rfl
  · split
    · rfl
    · split
      · dsimp only; split <;> rfl
      · rfl
@[simp] theorem State.cacheStore_stopped (n : Size) (a : Nat) (v : Word) : (s.cacheStore n a v).stopped = s.stopped := by
  unfold State.cacheStore; split
  · rfl
  · split
    · rfl
    · split
      · dsimp only; split <;> rfl
      · rfl
@[simp] theorem State.cacheStore_mem (n : Size) (a : Nat) (v : Word) : (s.cacheStore n a v).mem = s.mem := by
  unfold State.cacheStore; split
  · rfl
  · split
    · rfl
    · split
      · dsimp only; split <;> rfl
      · rfl
@[simp] theorem State.cacheStore_imem (n : Size) (a : Nat) (v : Word) : (s.cacheStore n a v).imem = s.imem := by
  unfold State.cacheStore; split
  · rfl
  · split
    · rfl
    · split
      · dsimp only; split <;> rfl
      · rfl
@[simp] theorem State.cacheStore_icache (n : Size) (a : Nat) (v : Word) : (s.cacheStore n a v).icache = s.icache := by
  unfold State.cacheStore; split
  · rfl
  · split
    · rfl
    · split
      · dsimp only; split <;> rfl
      · rfl
@[simp] theorem State.cacheStore_inQ (n : Size) (a : Nat) (v : Word) : (s.cacheStore n a v).inQ = s.inQ := by
  unfold State.cacheStore; split
  · rfl
  · split
    · rfl
    · split
      · dsimp only; split <;> rfl
      · rfl
@[simp] theorem State.cacheStore_outQ (n : Size) (a : Nat) (v : Word) : (s.cacheStore n a v).outQ = s.outQ := by
  unfold State.cacheStore; split
  · rfl
  · split
    · rfl
    · split
      · dsimp only; split <;> rfl
      · rfl
@[simp] theorem State.cacheStore_devLog (n : Size) (a : Nat) (v : Word) : (s.cacheStore n a v).devLog = s.devLog := by
  unfold State.cacheStore; split
  · rfl
  · split
    · rfl
    · split
      · dsimp only; split <;> rfl
      · rfl
@[simp] theorem State.cacheStore_busLocked (n : Size) (a : Nat) (v : Word) : (s.cacheStore n a v).busLocked = s.busLocked := by
  unfold State.cacheStore; split
  · rfl
  · split
    · rfl
    · split
      · dsimp only; split <;> rfl
      · rfl
@[simp] theorem State.cacheStore_stored (n : Size) (a : Nat) (v : Word) : (s.cacheStore n a v).stored = s.stored := by
  unfold State.cacheStore; split
  · rfl
  · split
    · rfl
    · split
      · dsimp only; split <;> rfl
      · rfl
@[simp] theorem State.cacheStore_icount (n : Size) (a : Nat) (v : Word) : (s.cacheStore n a v).icount = s.icount := by
  unfold State.cacheStore; split
  · rfl
  · split
    · rfl
    · split
      · dsimp only; split <;> rfl
      · rfl
@[simp] theorem State.cacheStore_lastTaken (n : Size) (a : Nat) (v : Word) : (s.cacheStore n a v).lastTaken = s.lastTaken := by
  unfold State.cacheStore; split
  · rfl
  · split
    · rfl
    · split
      · dsimp only; split <;> rfl
      · rfl
@[simp] theorem State.cacheStore_reg (n : Size) (a : Nat) (v : Word) (k : RegNum) : (s.cacheStore n a v).reg k = s.reg k := by simp [State.reg]

/-! ### enter -/

@[simp] theorem State.enter_cfg (r : RegNum) (v : Word) (f : Msr → Msr) : (s.enter r v f).cfg = s.cfg := rfl
@[simp] theorem State.enter_gpr (r : RegNum) (v : Word) (f : Msr → Msr) : (s.enter r v f).gpr = writeGpr s.gpr r s.pc := rfl
@[simp] theorem State.enter_pc (r : RegNum) (v : Word) (f : Msr → Msr) : (s.enter r v f).pc = v := rfl
@[simp] theorem State.enter_msr (r : RegNum) (v : Word) (f : Msr → Msr) : (s.enter r v f).msr = f s.msr := rfl
@[simp] theorem State.enter_imm (r : RegNum) (v : Word) (f : Msr → Msr) : (s.enter r v f).imm = s.imm := rfl
@[simp] theorem State.enter_ds (r : RegNum) (v : Word) (f : Msr → Msr) : (s.enter r v f).ds = s.ds := rfl
@[simp] theorem State.enter_window (r : RegNum) (v : Word) (f : Msr → Msr) : (s.enter r v f).window = none := rfl
@[simp] theorem State.enter_rst (r : RegNum) (v : Word) (f : Msr → Msr) : (s.enter r v f).rst = s.rst := rfl
@[simp] theorem State.enter_nm (r : RegNum) (v : Word) (f : Msr → Msr) : (s.enter r v f).nm = s.nm := rfl
@[simp] theorem State.enter_brk (r : RegNum) (v : Word) (f : Msr → Msr) : (s.enter r v f).brk = s.brk := rfl
@[simp] theorem State.enter_exc (r : RegNum) (v : Word) (f : Msr → Msr) : (s.enter r v f).exc = s.exc := rfl
@[simp] theorem State.enter_intPin (r : RegNum) (v : Word) (f : Msr → Msr) : (s.enter r v f).intPin = s.intPin := rfl
@[simp] theorem State.enter_intLatch (r : RegNum) (v : Word) (f : Msr → Msr) : (s.enter r v f).intLatch = s.intLatch := rfl
@[simp] theorem State.enter_stopped (r : RegNum) (v : Word) (f : Msr → Msr) : (s.enter r v f).stopped = s.stopped := rfl
@[simp] theorem State.enter_mem (r : RegNum) (v : Word) (f : Msr → Msr) : (s.enter r v f).mem = s.mem := rfl
@[simp] theorem State.enter_imem (r : RegNum) (v : Word) (f : Msr → Msr) : (s.enter r v f).imem = s.imem := rfl
@[simp] theorem State.enter_icache (r : RegNum) (v : Word) (f : Msr → Msr) : (s.enter r v f).icache = s.icache := rfl
@[simp] theorem State.enter_dcache (r : RegNum) (v : Word) (f : Msr → Msr) : (s.enter r v f).dcache = s.dcache := rfl
@[simp] theorem State.enter_inQ (r : RegNum) (v : Word) (f : Msr → Msr) : (s.enter r v f).inQ = s.inQ := rfl
@[simp] theorem State.enter_outQ (r : RegNum) (v : Word) (f : Msr → Msr) : (s.enter r v f).outQ = s.outQ := rfl
@[simp] theorem State.enter_devLog (r : RegNum) (v : Word) (f : Msr → Msr) : (s.enter r v f).devLog = s.devLog := rfl
@[simp] theorem State.enter_busLocked (r : RegNum) (v : Word) (f : Msr → Msr) : (s.enter r v f).busLocked = s.busLocked := rfl
@[simp] theorem State.enter_stored (r : RegNum) (v : Word) (f : Msr → Msr) : (s.enter r v f).stored = s.stored := rfl
@[simp] theorem State.enter_icount (r : RegNum) (v : Word) (f : Msr → Msr) : (s.enter r v f).icount = s.icount := rfl
@[simp] theorem State.enter_lastTaken (r : RegNum) (v : Word) (f : Msr → Msr) : (s.enter r v f).lastTaken = s.lastTaken := rfl
@[simp] theorem State.enter_draws (r : RegNum) (v : Word) (f : Msr → Msr) : (s.enter r v f).draws = s.draws := rfl

end Sys2Proof.Machine
end

