-- ==== Sys2Proof/Laws/Registers.lean ====
section
/-! SUPPORT. Register and MSR reads and writes: what each shared operation of Machine/Ops.lean and Machine/Flags.lean
answers. -/

namespace Sys2Proof.Machine

variable (s t : State)

/-! ### General registers (10_state R21) -/

theorem reg_zero : s.reg 0#5 = 0#32 := rfl

theorem readGpr_writeGpr (g : Vector Word 31) (r k : RegNum) (v : Word) :
    readGpr (writeGpr g r v) k = if k = r then (if r = 0#5 then 0#32 else v) else readGpr g k := by
  have hr := r.isLt
  have hk := k.isLt
  unfold readGpr writeGpr
  by_cases hr0 : r.toNat = 0
  · have hr' : r = 0#5 := BitVec.eq_of_toNat_eq (by simpa using hr0)
    by_cases hk0 : k.toNat = 0
    · have hk' : k = 0#5 := BitVec.eq_of_toNat_eq (by simpa using hk0)
      simp [hr', hk']
    · have hne : k ≠ r := fun h => hk0 (by rw [h]; exact hr0)
      simp [hr0, hk0, hne]
  · have hr' : r ≠ 0#5 := fun h => hr0 (by simp [h])
    by_cases hk0 : k.toNat = 0
    · have hne : k ≠ r := fun h => hr0 (by rw [← h]; exact hk0)
      simp [hk0, hne]
    · by_cases he : k = r
      · subst he; simp [hk0, hr']
      · have hne : k.toNat ≠ r.toNat := fun h => he (BitVec.eq_of_toNat_eq h)
        simp only [hk0, hr0, he, dif_neg, not_false_iff, if_false]
        rw [Vector.getElem_set_ne]
        omega

/-- A register write reads back, r0 discarding it; the other registers are unchanged. -/
theorem reg_setReg (r k : RegNum) (v : Word) :
    (s.setReg r v).reg k = if k = r then (if r = 0#5 then 0#32 else v) else s.reg k :=
  readGpr_writeGpr s.gpr r k v

theorem reg_of_gpr (h : t.gpr = s.gpr) (k : RegNum) : t.reg k = s.reg k := by simp [State.reg, h]

/-- A state whose stored registers are those of `s` after one write has changed one register. -/
theorem oneReg_of_gpr {r : RegNum} {v : Word} (h : t.gpr = writeGpr s.gpr r v) : s.OneReg t r v := by
  have hk (k : RegNum) : t.reg k = if k = r then (if r = 0#5 then 0#32 else v) else s.reg k := by
    rw [State.reg, h, readGpr_writeGpr]; rfl
  exact ⟨by rw [hk]; simp, fun k hk' => by rw [hk]; simp [hk']⟩

@[simp] theorem popInto_reg (rd : RegNum) (ch : Channel) (c : Bool) (x : FslItem) (q : List FslItem) (k : RegNum) :
    (s.popInto rd ch c x q).reg k = if k = rd then (if rd = 0#5 then 0#32 else x.data) else s.reg k :=
  readGpr_writeGpr s.gpr rd k x.data

@[simp] theorem enter_reg (r : RegNum) (v : Word) (f : Msr → Msr) (k : RegNum) :
    (s.enter r v f).reg k = if k = r then (if r = 0#5 then 0#32 else s.pc) else s.reg k :=
  readGpr_writeGpr s.gpr r k s.pc

/-! ### Reading MSR (70 R466) -/

/-- A field read answers the stored or the old value. -/
theorem readFlag_mayRead (f : Msr → Bool) : s.MayRead f (s.readFlag f).1 := by
  unfold State.readFlag State.MayRead
  cases h : s.window with
  | none => exact .inl rfl
  | some old =>
    dsimp only
    split
    · exact .inr ⟨old, rfl, rfl⟩
    · exact .inl rfl

/-- Outside the window a field read answers the stored value and changes nothing. -/
theorem readFlag_closed (f : Msr → Bool) (h : s.window = none) : s.readFlag f = (f s.msr, s) := by
  simp [State.readFlag, h]

/-- A read that may answer only one value answers it. -/
theorem readFlag_forced {f : Msr → Bool} {b : Bool} (h : ∀ x, s.MayRead f x → x = b) : (s.readFlag f).1 = b :=
  h _ (readFlag_mayRead s f)

theorem mayRead_congr {f : Msr → Bool} {b : Bool} (hm : t.msr = s.msr) (hw : t.window = s.window) :
    t.MayRead f b ↔ s.MayRead f b := by simp [State.MayRead, hm, hw]

theorem readMsr_mayRead : s.MayReadMsr s.readMsr.1 := by
  constructor <;>
    exact (mayRead_congr _ _ (by simp) (by simp)).1 (readFlag_mayRead _ _)

theorem readMsr_closed (h : s.window = none) : s.readMsr = (s.msr, s) := by
  simp [State.readMsr, readFlag_closed, h]

/-! ### MSR as a word (10_state R39, R40) -/

/-- Writing back what was read gives the same MSR. -/
theorem msr_ofWord_toWord (m : Msr) : Msr.ofWord m.toWord = m := by
  obtain ⟨a, b, c, d, e, f, g, h⟩ := m
  cases a <;> cases b <;> cases c <;> cases d <;> cases e <;> cases f <;> cases g <;> cases h <;> decide

/-! ### The end of an instruction (42_branch R221) -/

theorem nextPc_eq : s.nextPc = s.following := rfl

theorem slotMsr_eq : s.slotMsr = s.afterSlot s.msr := by
  unfold State.slotMsr State.afterSlot
  cases s.ds with
  | none => rfl
  | some d => cases h : d.act <;> simp [SlotMsr.apply, h]

theorem afterSlot_congr (h : t.ds = s.ds) (m : Msr) : t.afterSlot m = s.afterSlot m := by simp [State.afterSlot, h]

theorem following_congr (h : t.ds = s.ds) (hp : t.pc = s.pc) : t.following = s.following := by
  simp [State.following, h, hp]

/-- Retiring a state that differs from `s` in MSR and in what no instruction end looks at. -/
theorem moved_retire (u : State) (hp : u.pc = s.pc) (hd : u.ds = s.ds) (hc : u.icount = s.icount) :
    s.Moved u.retire s.following none (s.afterSlot u.msr) := by
  constructor
  · simp [nextPc_eq, following_congr s u hd hp]
  · simp
  · simp [slotMsr_eq, afterSlot_congr s u hd]
  · simp
  · simp
  · simp [hc]

/-- The effect of an instruction that writes one register and MSR and goes on. -/
theorem wrote_retire (u : State) {rd : RegNum} {v : Word} (hg : u.gpr = writeGpr s.gpr rd v) (hp : u.pc = s.pc)
    (hd : u.ds = s.ds) (hc : u.icount = s.icount) (ho : s.SameOutside u) :
    s.Wrote u.retire rd v u.msr := by
  refine ⟨oneReg_of_gpr _ _ (by simp [hg]), moved_retire s u hp hd hc, ?_⟩
  obtain ⟨⟨h1, h2, h3, h4, h5, h6, h7, h8⟩, ⟨h9, h10, h11, h12, h17⟩, ⟨h13, h14⟩, ⟨h15, h16⟩⟩ := ho
  exact ⟨⟨h1, h2, h3, h4, h5, h6, h7, h8⟩, ⟨h9, h10, h11, h12, h17⟩, ⟨h13, h14⟩, ⟨h15, h16⟩⟩

/-! ### Inversion of the shared instruction ends -/

/-- `writeBack` always answers a next state, the one the statements call `Wrote`. -/
theorem writeBack_wrote (rd : RegNum) (v : Word) :
    ∃ t, s.writeBack rd v = .next t ∧ s.Wrote t rd v s.msr :=
  ⟨_, rfl, wrote_retire s (s.setReg rd v) rfl rfl rfl rfl
    ⟨⟨rfl, rfl, rfl, rfl, rfl, rfl, rfl, rfl⟩, ⟨fun _ => rfl, fun _ => rfl, rfl, rfl, rfl⟩, ⟨rfl, rfl⟩,
      ⟨rfl, rfl⟩⟩⟩

theorem needs_true (o : Res State) : needs true o = o := rfl
theorem needs_false (o : Res State) : needs false o = .refused .illegalEncoding := rfl

/-- An option's instruction that answers a next state had its option. -/
theorem needs_next {b : Bool} {o : Res State} (h : needs b o = .next t) : b = true ∧ o = .next t := by
  cases b with
  | true => exact ⟨rfl, h⟩
  | false => cases h

/-- A sequence of operations answers a next state when both do. -/
theorem bind_next {α β : Type} {r : Res α} {f : α → Res β} {b : β} (h : r.bind f = .next b) :
    ∃ a, r = .next a ∧ f a = .next b := by
  cases r with
  | next a => exact ⟨a, rfl, h⟩
  | fault e => cases h
  | refused e => cases h

theorem aligned_iff (a : Word) : aligned a = true ↔ a.toNat % 4 = 0 := by
  have : (a.extractLsb' 0 2).toNat = a.toNat % 4 := by simp [BitVec.extractLsb'_toNat]
  simp only [aligned, beq_iff_eq]
  constructor
  · intro h; rw [← this, h]; rfl
  · intro h; exact BitVec.eq_of_toNat_eq (by rw [this, h]; rfl)

/-- Everything `jump` can do. -/
theorem jump_cases (target : Word) :
    (s.ds.isSome = true ∧ s.jump target = .refused .branchInDelaySlot) ∨
    (s.ds = none ∧ aligned target = false ∧ s.jump target = .refused .misalignedFetch) ∨
    (s.ds = none ∧ aligned target = true ∧ s.jump target = .next { s.retire with pc := target, lastTaken := s.icount }) := by
  unfold State.jump
  cases h : s.ds with
  | some d => simp
  | none => cases ha : aligned target <;> simp

/-- Everything `jumpDelayed` can do. -/
theorem jumpDelayed_cases (target : Word) (act : SlotMsr) :
    (s.ds.isSome = true ∧ s.jumpDelayed target act = .refused .branchInDelaySlot) ∨
    (s.ds = none ∧ aligned target = false ∧ s.jumpDelayed target act = .refused .misalignedFetch) ∨
    (s.ds = none ∧ aligned target = true ∧
      s.jumpDelayed target act = .next { s.retire with ds := some ⟨target, act⟩ }) := by
  unfold State.jumpDelayed
  cases h : s.ds with
  | some d => simp
  | none => cases ha : aligned target <;> simp

/-- Everything `notTaken` can do. -/
theorem notTaken_cases :
    (s.ds.isSome = true ∧ s.notTaken = .refused .branchInDelaySlot) ∨ (s.ds = none ∧ s.notTaken = .next s.retire) := by
  unfold State.notTaken
  cases h : s.ds <;> simp

/-- Everything a conditional branch can do. -/
theorem branchIf_cases (taken delayed : Bool) (offset : Word) :
    (taken = true ∧ delayed = true ∧ s.branchIf taken delayed offset = s.jumpDelayed (s.pc + offset) .none) ∨
    (taken = true ∧ delayed = false ∧ s.branchIf taken delayed offset = s.jump (s.pc + offset)) ∨
    (taken = false ∧ s.branchIf taken delayed offset = s.notTaken) := by
  cases taken <;> cases delayed <;> simp [State.branchIf]

end Sys2Proof.Machine
end

