-- ==== Sys2Proof/Laws/Access.lean ====
section
/-! SUPPORT. What each memory and cache operation of Machine/Access.lean can do: which fields it may change, and the value
and the storage it leaves, case by case. -/

namespace Sys2Proof.Machine

variable (s : State)

/-! ### Which fields change -/

theorem readFlag_eq (f : Msr → Bool) : ∃ k, (s.readFlag f).2 = { s with draws := k } := by
  unfold State.readFlag
  split
  · exact ⟨s.draws, rfl⟩
  · exact ⟨s.draws + 1, rfl⟩

/-- A transfer draws at most, and drives the buslock output with BE as it may be read. -/
theorem transfer_eq : ∃ k b, s.transfer = { s with draws := k, busLocked := b } ∧ s.MayRead Msr.be b := by
  obtain ⟨k, hk⟩ := readFlag_eq s Msr.be
  exact ⟨k, _, by simp only [State.transfer, State.busLock, hk], readFlag_mayRead s Msr.be⟩

theorem deviceTransfer_eq (n : Size) (a : Nat) (v : Option Word) :
    ∃ k b, s.deviceTransfer n a v =
      { s with draws := k, busLocked := b, devLog := ⟨a, n.bytes, v, b⟩ :: s.devLog } ∧ s.MayRead Msr.be b := by
  obtain ⟨k, b, hk, hb⟩ := transfer_eq s
  exact ⟨k, b, by simp only [State.deviceTransfer, hk], hb⟩

theorem markStored_eq (a : Nat) : s.markStored a = { s with
    stored := if Config.sharedID s.cfg a then Assoc.put s.stored (a / 4 * 4) s.icount else s.stored } := by
  unfold State.markStored
  split <;> rfl

/-- A line a cache may hold. -/
theorem linesWf_put {c : CacheConfig} {m : List (Nat × CacheLine)} (a : Nat) (v l : Bool) (w : Word)
    (h : linesWf c m = true) :
    linesWf c (Assoc.put m (CacheConfig.lineOf c a) ⟨CacheConfig.tagOf c a, v, l, w⟩) = true :=
  put_wf h (Nat.mod_lt _ (by positivity)) (decide_eq_true (Nat.mod_lt _ (by positivity)))

/-- The words a refill may fill the line with after a load that answered v: the word of memory, or, from a device, v in its
place in some word. -/
structure State.Refills (s : State) (n : Size) (a : Nat) (v w : Word) : Prop where
  memory : (∀ r, Config.dataRegion s.cfg n a = some r → r.kind ≠ .device) → w = Memory.readWord s.mem (a / 4 * 4)
  device : ∀ r, Config.dataRegion s.cfg n a = some r → r.kind = .device → ∃ o, w = mergePart n a o v

theorem refillWord_eq (n : Size) (a : Nat) (v : Word) :
    ∃ k w, s.refillWord n a v = (w, { s with draws := k }) ∧ s.Refills n a v w := by
  unfold State.refillWord
  split
  · rename_i h
    obtain ⟨r, hr, hk⟩ : ∃ r, Config.dataRegion s.cfg n a = some r ∧ r.kind = .device := by
      simpa [Option.any_eq_true] using h
    exact ⟨_, _, rfl, fun h' => absurd hk (h' r hr), fun _ _ _ => ⟨_, rfl⟩⟩
  · rename_i h
    exact ⟨s.draws, _, rfl, fun _ => rfl, fun r hr hk => absurd (by simp [hr, hk]) h⟩

/-- Everything `mayRefill` can do: nothing but a draw, or fill an unlocked line. -/
theorem mayRefill_cases (n : Size) (a : Nat) (v : Word) (l : CacheLine) :
    (∃ k, s.mayRefill n a v l = { s with draws := k }) ∨
    (l.lock = false ∧ ∃ k w, s.Refills n a v w ∧ s.mayRefill n a v l =
      { s with
        draws := k
        dcache := Assoc.put s.dcache (CacheConfig.lineOf s.cfg.dcache a)
          ⟨CacheConfig.tagOf s.cfg.dcache a, true, false, w⟩ }) := by
  unfold State.mayRefill
  split
  · exact .inl ⟨s.draws, rfl⟩
  · rename_i h
    dsimp only
    split
    · obtain ⟨k, w, he, hw⟩ := refillWord_eq s.drawBit.2 n a v
      refine .inr ⟨by simpa using h, k, w, ⟨hw.1, hw.2⟩, ?_⟩
      rw [he]
      rfl
    · exact .inl ⟨_, rfl⟩

/-- Everything a store can do to the data cache. -/
theorem cacheStore_cases (n : Size) (a : Nat) (v : Word) :
    (∃ k, s.cacheStore n a v = { s with draws := k } ∧
      ∀ l, Assoc.find s.dcache (CacheConfig.lineOf s.cfg.dcache a) = some l →
        l.hits (CacheConfig.tagOf s.cfg.dcache a) = false) ∨
    (∃ l, Assoc.find s.dcache (CacheConfig.lineOf s.cfg.dcache a) = some l ∧
      l.hits (CacheConfig.tagOf s.cfg.dcache a) = true ∧
      s.cacheStore n a v =
        { s with
          dcache := Assoc.put s.dcache (CacheConfig.lineOf s.cfg.dcache a) { l with data := mergePart n a l.data v } }) ∨
    (∃ l k, Assoc.find s.dcache (CacheConfig.lineOf s.cfg.dcache a) = some l ∧
      l.hits (CacheConfig.tagOf s.cfg.dcache a) = false ∧ n = .word ∧ l.lock = false ∧
      s.cacheStore n a v =
        { s with
          draws := k
          dcache := Assoc.put s.dcache (CacheConfig.lineOf s.cfg.dcache a)
            ⟨CacheConfig.tagOf s.cfg.dcache a, true, false, v⟩ }) := by
  unfold State.cacheStore
  cases hf : Assoc.find s.dcache (CacheConfig.lineOf s.cfg.dcache a) with
  | none => exact .inl ⟨s.draws, rfl, by simp⟩
  | some l =>
    dsimp only
    by_cases hh : l.hits (CacheConfig.tagOf s.cfg.dcache a) = true
    · rw [if_pos hh]
      exact .inr (.inl ⟨l, rfl, hh, rfl⟩)
    · have hh' : l.hits (CacheConfig.tagOf s.cfg.dcache a) = false := by simpa using hh
      have hl : ∀ l', some l = some l' → l'.hits (CacheConfig.tagOf s.cfg.dcache a) = false := by
        intro l' h; cases h; exact hh'
      rw [if_neg hh]
      split
      · rename_i hw
        split
        · exact .inr (.inr ⟨l, _, rfl, hh', hw.1, hw.2, rfl⟩)
        · exact .inl ⟨_, rfl, hl⟩
      · exact .inl ⟨s.draws, rfl, hl⟩

/-! ### Values read -/

theorem lowPart_lt (n : Size) (w : Word) : (lowPart n w).toNat < 2 ^ (8 * n.bytes) := by
  cases n
  · exact Nat.lt_of_le_of_lt (by simpa [lowPart] using Nat.and_le_right) (by decide : 255 < 2 ^ (8 * 1))
  · exact Nat.lt_of_le_of_lt (by simpa [lowPart] using Nat.and_le_right) (by decide : 65535 < 2 ^ (8 * 2))
  · exact w.isLt

theorem wordOfBytes_toNat (b0 b1 b2 b3 : Byte) :
    (wordOfBytes b0 b1 b2 b3).toNat = b0.toNat * 2 ^ 24 + b1.toNat * 2 ^ 16 + b2.toNat * 2 ^ 8 + b3.toNat := by
  have h0 := b0.isLt
  have h1 := b1.isLt
  have h2 := b2.isLt
  have h3 := b3.isLt
  unfold wordOfBytes
  rw [BitVec.toNat_append, BitVec.toNat_append, BitVec.toNat_append, ← Nat.shiftLeft_add_eq_or_of_lt h1,
    ← Nat.shiftLeft_add_eq_or_of_lt h2, ← Nat.shiftLeft_add_eq_or_of_lt h3, Nat.shiftLeft_eq, Nat.shiftLeft_eq,
    Nat.shiftLeft_eq]
  omega

theorem byteOfWord_toNat (w : Word) (k : Nat) : (byteOfWord w k).toNat = w.toNat / 2 ^ (24 - 8 * k) % 2 ^ 8 := by
  simp [byteOfWord, BitVec.extractLsb'_toNat, Nat.shiftRight_eq_div_pow]

theorem readSize_lt (m : Memory) (n : Size) (a : Nat) : (Memory.readSize m n a).toNat < 2 ^ (8 * n.bytes) := by
  cases n
  · simp only [Memory.readSize, wordOfBytes_toNat, Size.bytes]
    have := (m.read a).isLt
    simp; omega
  · simp only [Memory.readSize, wordOfBytes_toNat, Size.bytes]
    have := (m.read a).isLt
    have := (m.read (a + 1)).isLt
    simp; omega
  · exact BitVec.isLt _

theorem partOf_toNat (n : Size) (a : Nat) (w : Word) (h : a % n.bytes = 0) :
    (partOf n a w).toNat = w.toNat / 2 ^ (8 * (4 - n.bytes - a % 4)) % 2 ^ (8 * n.bytes) := by
  have := w.isLt
  cases n
  · simp only [partOf, wordOfBytes_toNat, byteOfWord_toNat, Size.bytes]
    simp
    have h4 : a % 4 < 4 := Nat.mod_lt _ (by omega)
    congr 2; congr 1; omega
  · simp only [partOf, wordOfBytes_toNat, byteOfWord_toNat, Size.bytes] at *
    have h4 : a % 4 = 0 ∨ a % 4 = 2 := by omega
    rcases h4 with h4 | h4 <;> rw [h4] <;> simp <;> omega
  · simp only [Size.bytes] at h
    simp [partOf, Size.bytes, h]; omega

theorem byteOfWord_wordOfBytes (b0 b1 b2 b3 : Byte) (k : Nat) (hk : k < 4) :
    byteOfWord (wordOfBytes b0 b1 b2 b3) k = if k = 0 then b0 else if k = 1 then b1 else if k = 2 then b2 else b3 := by
  apply BitVec.eq_of_toNat_eq
  rw [byteOfWord_toNat, wordOfBytes_toNat]
  have := b0.isLt; have := b1.isLt; have := b2.isLt; have := b3.isLt
  interval_cases k <;> simp <;> omega

theorem byteOfWord_mergePart (n : Size) (a : Nat) (o v : Word) (k : Nat) (hk : k < 4) :
    byteOfWord (mergePart n a o v) k = mergedByte n a o v k := by
  rw [mergePart, byteOfWord_wordOfBytes _ _ _ _ _ hk]
  interval_cases k <;> rfl

/-- The merged bytes read back. -/
theorem partOf_mergePart (n : Size) (a : Nat) (o v : Word) (h : a % n.bytes = 0) (hv : v.toNat < 2 ^ (8 * n.bytes)) :
    partOf n a (mergePart n a o v) = v := by
  have h4 : a % 4 < 4 := Nat.mod_lt _ (by omega)
  apply BitVec.eq_of_toNat_eq
  cases n <;> simp only [Size.bytes] at h hv
  · simp only [partOf, wordOfBytes_toNat, byteOfWord_mergePart _ _ _ _ _ h4, mergedByte, Size.bytes]
    simp [byteOfWord_toNat]; omega
  · have h2 : a % 4 + 1 < 4 := by omega
    simp only [partOf, wordOfBytes_toNat, byteOfWord_mergePart _ _ _ _ _ h4, byteOfWord_mergePart _ _ _ _ _ h2,
      mergedByte, Size.bytes]
    simp [byteOfWord_toNat]; omega
  · have h0 : a % 4 = 0 := h
    simp only [partOf, mergePart, wordOfBytes_toNat, mergedByte, h0, Size.bytes]
    simp [byteOfWord_toNat]
    have := v.isLt
    omega

theorem partOf_lt (n : Size) (a : Nat) (w : Word) : (partOf n a w).toNat < 2 ^ (8 * n.bytes) := by
  cases n
  · simp only [partOf, wordOfBytes_toNat, Size.bytes]
    have := (byteOfWord w (a % 4)).isLt
    simp; omega
  · simp only [partOf, wordOfBytes_toNat, Size.bytes]
    have := (byteOfWord w (a % 4)).isLt
    have := (byteOfWord w (a % 4 + 1)).isLt
    simp; omega
  · exact BitVec.isLt _

/-! ### The data bus -/

theorem busRead_storage {n : Size} {a : Nat} (h : s.answers n a) :
    ∃ k b, s.busRead n a = .next (Memory.readSize s.mem n a, { s with draws := k, busLocked := b }) ∧
      s.MayRead Msr.be b := by
  obtain ⟨r, hr, hk⟩ := h
  obtain ⟨k, b, ht, hb⟩ := transfer_eq s
  exact ⟨k, b, by simp [State.busRead, hr, hk, ht], hb⟩

theorem answers_congr {t : State} {n : Size} {a : Nat} (hc : t.cfg = s.cfg) : t.answers n a ↔ s.answers n a := by
  simp [State.answers, hc]

/-- Everything a bus read can do. -/
theorem busRead_next {n : Size} {a : Nat} {v : Word} {u : State} (h : s.busRead n a = .next (v, u)) :
    v.toNat < 2 ^ (8 * n.bytes) ∧ ∃ k b log, u = { s with draws := k, busLocked := b, devLog := log } ∧
      s.MayRead Msr.be b := by
  unfold State.busRead at h
  split at h
  · cases h
  · rename_i r hr
    split at h
    · obtain ⟨k, b, hd, hb⟩ := deviceTransfer_eq s n a none
      simp only [hd, State.drawWord, Host.Outcome.next.injEq, Prod.mk.injEq] at h
      obtain ⟨rfl, rfl⟩ := h
      exact ⟨lowPart_lt _ _, _, b, _, rfl, hb⟩
    · obtain ⟨k, b, ht, hb⟩ := transfer_eq s
      simp only [ht, Host.Outcome.next.injEq, Prod.mk.injEq] at h
      obtain ⟨rfl, rfl⟩ := h
      exact ⟨readSize_lt _ _ _, k, b, s.devLog, rfl, hb⟩

/-- Everything a load's memory read can do to the state: it may draw, make and record a transfer, and refill one line. -/
theorem memRead_next {n : Size} {a : Nat} {v : Word} {u : State} (h : s.memRead n a = .next (v, u)) :
    v.toNat < 2 ^ (8 * n.bytes) ∧
      ∃ dc k b log, u = { s with dcache := dc, draws := k, busLocked := b, devLog := log } ∧
        (dc = s.dcache ∨ CacheConfig.cacheable s.cfg.dcache a = true ∧ ∃ w, s.Refills n a v w ∧
          dc = Assoc.put s.dcache (CacheConfig.lineOf s.cfg.dcache a)
            ⟨CacheConfig.tagOf s.cfg.dcache a, true, false, w⟩) := by
  have bus (t : State) (ht : ∃ k, t = { s with draws := k }) {v : Word} {u : State} (h : t.busRead n a = .next (v, u)) :
      v.toNat < 2 ^ (8 * n.bytes) ∧ ∃ k b log, u = { s with draws := k, busLocked := b, devLog := log } := by
    obtain ⟨k, rfl⟩ := ht
    obtain ⟨hv, k', b, log, rfl, -⟩ := busRead_next _ h
    exact ⟨hv, k', b, log, rfl⟩
  have plain (t : State) (ht : ∃ k, t = { s with draws := k }) (h : t.busRead n a = .next (v, u)) :
      v.toNat < 2 ^ (8 * n.bytes) ∧
        ∃ dc k b log, u = { s with dcache := dc, draws := k, busLocked := b, devLog := log } ∧
          (dc = s.dcache ∨ CacheConfig.cacheable s.cfg.dcache a = true ∧ ∃ w, s.Refills n a v w ∧
            dc = Assoc.put s.dcache (CacheConfig.lineOf s.cfg.dcache a)
              ⟨CacheConfig.tagOf s.cfg.dcache a, true, false, w⟩) := by
    obtain ⟨hv, k, b, log, rfl⟩ := bus t ht h
    exact ⟨hv, s.dcache, k, b, log, rfl, .inl rfl⟩
  unfold State.memRead at h
  split at h
  · rename_i hca
    obtain ⟨k, hk⟩ := readFlag_eq s Msr.dce
    simp only [hk] at h
    split at h
    · unfold State.cachedRead at h
      split at h
      · obtain ⟨⟨v', u'⟩, hb, he⟩ := bind_next h
        simp only [State.drawWord, Host.Outcome.next.injEq, Prod.mk.injEq] at he
        obtain ⟨rfl, rfl⟩ := he
        obtain ⟨-, k', b, log, rfl⟩ := bus _ ⟨k, rfl⟩ hb
        exact ⟨lowPart_lt _ _, s.dcache, _, b, log, rfl, .inl rfl⟩
      · rename_i l _
        split at h
        · simp only [Host.Outcome.next.injEq, Prod.mk.injEq] at h
          obtain ⟨rfl, rfl⟩ := h
          exact ⟨partOf_lt _ _ _, s.dcache, k, s.busLocked, s.devLog, rfl, .inl rfl⟩
        · obtain ⟨⟨v', u'⟩, hb, he⟩ := bind_next h
          simp only [Host.Outcome.next.injEq, Prod.mk.injEq] at he
          obtain ⟨rfl, rfl⟩ := he
          obtain ⟨hv, k', b, log, rfl⟩ := bus _ ⟨k, rfl⟩ hb
          refine ⟨hv, ?_⟩
          rcases mayRefill_cases { s with draws := k', busLocked := b, devLog := log } n a v' l with
            ⟨k2, h2⟩ | ⟨-, k2, w, hw, h2⟩
          · exact ⟨s.dcache, k2, b, log, h2, .inl rfl⟩
          · exact ⟨_, k2, b, log, h2, .inr ⟨hca, w, ⟨hw.1, hw.2⟩, rfl⟩⟩
    · exact plain _ ⟨k, rfl⟩ h
  · exact plain _ ⟨s.draws, rfl⟩ h

/-- Everything a bus write can do. -/
theorem busWrite_next {n : Size} {a : Nat} {v : Word} {u : State} (h : s.busWrite n a v = .next u) :
    ∃ r k b, Config.dataRegion s.cfg n a = some r ∧ s.MayRead Msr.be b ∧
      ((r.kind ≠ .device ∧ u =
        { s with
          draws := k
          busLocked := b
          mem := Memory.writeSize s.mem n a v
          stored := if Config.sharedID s.cfg a then Assoc.put s.stored (a / 4 * 4) s.icount else s.stored }) ∨
      (r.kind = .device ∧ u =
        { s with draws := k, busLocked := b, devLog := ⟨a, n.bytes, some (lowPart n v), b⟩ :: s.devLog })) := by
  unfold State.busWrite at h
  split at h
  · cases h
  · rename_i r hr
    split at h
    · rename_i hk
      obtain ⟨k, b, hd, hb⟩ := deviceTransfer_eq s n a (some (lowPart n v))
      rw [hd] at h
      cases h
      exact ⟨r, k, b, hr, hb, .inr ⟨hk, rfl⟩⟩
    · rename_i hk
      obtain ⟨k, b, ht, hb⟩ := transfer_eq s
      rw [ht, markStored_eq] at h
      cases h
      exact ⟨r, k, b, hr, hb, .inl ⟨hk, rfl⟩⟩

/-- Everything a store's memory write can do to the state. -/
theorem memWrite_next {n : Size} {a : Nat} {v : Word} {u : State} (h : s.memWrite n a v = .next u) :
    ∃ m st b log dc k, u = { s with mem := m, stored := st, busLocked := b, devLog := log, dcache := dc, draws := k } ∧
      (m = s.mem ∨ m = Memory.writeSize s.mem n a v) ∧ (st = s.stored ∨ st = Assoc.put s.stored (a / 4 * 4) s.icount) ∧
      (dc = s.dcache ∨
        (∃ l w, Assoc.find s.dcache (CacheConfig.lineOf s.cfg.dcache a) = some l ∧
          dc = Assoc.put s.dcache (CacheConfig.lineOf s.cfg.dcache a) { l with data := w }) ∨
        ∃ w, dc =
          Assoc.put s.dcache (CacheConfig.lineOf s.cfg.dcache a) ⟨CacheConfig.tagOf s.cfg.dcache a, true, false, w⟩) := by
  obtain ⟨t, hb, h⟩ := bind_next h
  have ht : ∃ m st b log k, t = { s with mem := m, stored := st, busLocked := b, devLog := log, draws := k } ∧
      (m = s.mem ∨ m = Memory.writeSize s.mem n a v) ∧
      (st = s.stored ∨ st = Assoc.put s.stored (a / 4 * 4) s.icount) := by
    obtain ⟨r, k, b, -, -, ⟨-, rfl⟩ | ⟨-, rfl⟩⟩ := busWrite_next s hb
    · refine ⟨_, _, b, s.devLog, k, rfl, .inr rfl, ?_⟩
      split
      · exact .inr rfl
      · exact .inl rfl
    · exact ⟨_, s.stored, b, _, k, rfl, .inl rfl, .inl rfl⟩
  obtain ⟨m, st, b, log, k, rfl, hm, hst⟩ := ht
  split at h
  · obtain ⟨k', hk⟩ := readFlag_eq { s with mem := m, stored := st, busLocked := b, devLog := log, draws := k } Msr.dce
    simp only [hk] at h
    cases h
    split
    · rcases cacheStore_cases { s with mem := m, stored := st, busLocked := b, devLog := log, draws := k' } n a v with
        ⟨k2, h2, -⟩ | ⟨l, hl, -, h2⟩ | ⟨l, k2, -, -, -, -, h2⟩
      · exact ⟨m, st, b, log, s.dcache, k2, h2, hm, hst, .inl rfl⟩
      · exact ⟨m, st, b, log, _, k', h2, hm, hst, .inr (.inl ⟨l, _, hl, rfl⟩)⟩
      · exact ⟨m, st, b, log, _, k2, h2, hm, hst, .inr (.inr ⟨_, rfl⟩)⟩
    · exact ⟨m, st, b, log, s.dcache, k', rfl, hm, hst, .inl rfl⟩
  · cases h
    exact ⟨m, st, b, log, s.dcache, k, rfl, hm, hst, .inl rfl⟩

/-- Everything a load can do. -/
theorem load_next {n : Size} {rd : RegNum} {base offset : Word} {t : State} (h : s.load n rd base offset = .next t) :
    ∃ v u, s.memRead n (effective n base offset) = .next (v, u) ∧ t = (u.setReg rd v).retire := by
  obtain ⟨⟨v, u⟩, h1, h2⟩ := bind_next h
  cases h2
  exact ⟨v, u, h1, rfl⟩

/-- Everything a store can do. -/
theorem store_next {n : Size} {rd : RegNum} {base offset : Word} {t : State} (h : s.store n rd base offset = .next t) :
    ∃ u, s.memWrite n (effective n base offset) (s.reg rd) = .next u ∧ t = u.retire := by
  obtain ⟨u, h1, h2⟩ := bind_next h
  cases h2
  exact ⟨u, h1, rfl⟩

/-! ### Accesses that storage answers -/

/-- What a load through the data cache leaves: the value read, the lines and the level of the buslock output
(20_memory R92; a hit makes no transfer). -/
def State.CachedRead (s : State) (n : Size) (a : Nat) (v : Word) (dc : List (Nat × CacheLine)) (b : Bool) : Prop :=
  match Assoc.find s.dcache (CacheConfig.lineOf s.cfg.dcache a) with
  | none => dc = s.dcache ∧ s.MayRead Msr.be b
  | some l =>
    if l.hits (CacheConfig.tagOf s.cfg.dcache a) then v = partOf n a l.data ∧ dc = s.dcache ∧ b = s.busLocked
    else v = Memory.readSize s.mem n a ∧ s.MayRead Msr.be b ∧ (dc = s.dcache ∨ l.lock = false ∧
      dc = Assoc.put s.dcache (CacheConfig.lineOf s.cfg.dcache a)
        ⟨CacheConfig.tagOf s.cfg.dcache a, true, false, Memory.readWord s.mem (a / 4 * 4)⟩)

theorem cachedRead_storage {n : Size} {a : Nat} (h : s.answers n a) :
    ∃ v dc k b, s.cachedRead n a = .next (v, { s with dcache := dc, draws := k, busLocked := b }) ∧
      s.CachedRead n a v dc b := by
  obtain ⟨k, b, hr, hb⟩ := busRead_storage s h
  have hnd : ∀ r, Config.dataRegion s.cfg n a = some r → r.kind ≠ .device := by
    obtain ⟨r, hr, hk⟩ := h
    intro r' hr'
    rw [hr] at hr'
    cases hr'
    exact hk
  unfold State.cachedRead State.CachedRead
  rw [hr]
  cases hf : Assoc.find s.dcache (CacheConfig.lineOf s.cfg.dcache a) with
  | none => exact ⟨_, s.dcache, _, b, rfl, rfl, hb⟩
  | some l =>
    dsimp only
    by_cases hh : l.hits (CacheConfig.tagOf s.cfg.dcache a) = true
    · simp only [if_pos hh]
      exact ⟨_, s.dcache, s.draws, s.busLocked, rfl, rfl, rfl, rfl⟩
    · simp only [if_neg hh]
      rcases mayRefill_cases { s with draws := k, busLocked := b } n a (Memory.readSize s.mem n a) l with
        ⟨k', hk⟩ | ⟨hl, k', w, hw, hk⟩
      · exact ⟨_, s.dcache, k', b, by simp only [Res.bind, hk], rfl, hb, .inl rfl⟩
      · have e : w = Memory.readWord s.mem (a / 4 * 4) := hw.memory hnd
        subst e
        exact ⟨_, _, k', b, by simp only [Res.bind, hk], rfl, hb, .inr ⟨hl, rfl⟩⟩

/-- A read that storage answers: from memory, or through the data cache, as MSR and the address decide. -/
theorem memRead_storage {n : Size} {a : Nat} (h : s.answers n a) :
    ∃ v dc k b, s.memRead n a = .next (v, { s with dcache := dc, draws := k, busLocked := b }) ∧
      ((¬s.cachesD a ∧ v = Memory.readSize s.mem n a ∧ dc = s.dcache ∧ s.MayRead Msr.be b) ∨
        (¬s.bypassesD a ∧ s.CachedRead n a v dc b)) := by
  unfold State.memRead
  by_cases hc : CacheConfig.cacheable s.cfg.dcache a = true
  · rw [if_pos hc]
    obtain ⟨k, hk⟩ := readFlag_eq s Msr.dce
    simp only [hk]
    split
    · rename_i hd
      obtain ⟨v, dc, k', b, h1, h2⟩ := cachedRead_storage { s with draws := k } h
      refine ⟨v, dc, k', b, h1, .inr ⟨?_, h2⟩⟩
      rintro (hb | ⟨hw, hm⟩)
      · simp [hc] at hb
      · simp [readFlag_closed s _ hw, hm] at hd
    · rename_i hd
      obtain ⟨k', b, hr, hb⟩ := busRead_storage { s with draws := k } h
      refine ⟨_, s.dcache, k', b, hr, .inl ⟨?_, rfl, rfl, hb⟩⟩
      rintro ⟨-, hw, hm⟩
      simp [readFlag_closed s _ hw, hm] at hd
  · rw [if_neg hc]
    obtain ⟨k', b, hr, hb⟩ := busRead_storage s h
    exact ⟨_, s.dcache, k', b, hr, .inl ⟨fun hx => hc hx.1, rfl, rfl, hb⟩⟩

/-- What a store through the data cache leaves of its lines (20_memory R93). -/
def State.CachedWrite (s : State) (n : Size) (a : Nat) (v : Word) (dc : List (Nat × CacheLine)) : Prop :=
  match Assoc.find s.dcache (CacheConfig.lineOf s.cfg.dcache a) with
  | none => dc = s.dcache
  | some l =>
    if l.hits (CacheConfig.tagOf s.cfg.dcache a) then
      dc = Assoc.put s.dcache (CacheConfig.lineOf s.cfg.dcache a) { l with data := mergePart n a l.data v }
    else dc = s.dcache ∨ n = .word ∧ l.lock = false ∧
      dc = Assoc.put s.dcache (CacheConfig.lineOf s.cfg.dcache a) ⟨CacheConfig.tagOf s.cfg.dcache a, true, false, v⟩

theorem cacheStore_storage (n : Size) (a : Nat) (v : Word) :
    ∃ dc k, s.cacheStore n a v = { s with dcache := dc, draws := k } ∧ s.CachedWrite n a v dc := by
  unfold State.CachedWrite
  rcases cacheStore_cases s n a v with ⟨k, h1, h2⟩ | ⟨l, h1, h2, h3⟩ | ⟨l, k, h1, h2, h3, h4, h5⟩
  · refine ⟨s.dcache, k, h1, ?_⟩
    cases hf : Assoc.find s.dcache (CacheConfig.lineOf s.cfg.dcache a) with
    | none => rfl
    | some l => simp [h2 l hf]
  · refine ⟨_, s.draws, h3, ?_⟩
    rw [h1]; simp [h2]
  · refine ⟨_, k, h5, ?_⟩
    rw [h1]; simp [h2, h3, h4]

/-- A write that storage answers: memory always, the data cache as MSR and the address decide. -/
theorem memWrite_storage {n : Size} {a : Nat} (v : Word) (h : s.answers n a) :
    ∃ dc k b, s.memWrite n a v =
        .next { s with
          mem := Memory.writeSize s.mem n a v
          stored := if Config.sharedID s.cfg a then Assoc.put s.stored (a / 4 * 4) s.icount else s.stored
          dcache := dc
          draws := k
          busLocked := b } ∧
      s.MayRead Msr.be b ∧ ((¬s.cachesD a ∧ dc = s.dcache) ∨ (¬s.bypassesD a ∧ s.CachedWrite n a v dc)) := by
  obtain ⟨r, hr, hk⟩ := h
  obtain ⟨k, b, ht, hb⟩ := transfer_eq s
  unfold State.memWrite State.busWrite
  simp only [hr, if_neg hk, ht, markStored_eq, Res.bind]
  generalize (if Config.sharedID s.cfg a then Assoc.put s.stored (a / 4 * 4) s.icount else s.stored) = st
  by_cases hc : CacheConfig.cacheable s.cfg.dcache a = true
  · rw [if_pos hc]
    obtain ⟨k', hk'⟩ :=
      readFlag_eq { s with mem := Memory.writeSize s.mem n a v, stored := st, draws := k, busLocked := b } Msr.dce
    have hf (hw : s.window = none) : (State.readFlag
        { s with mem := Memory.writeSize s.mem n a v, stored := st, draws := k, busLocked := b } Msr.dce).1
        = s.msr.dce := by simp only [State.readFlag, hw]
    simp only [hk']
    split
    · rename_i hd
      obtain ⟨dc, k2, h1, h2⟩ := cacheStore_storage
        { s with mem := Memory.writeSize s.mem n a v, stored := st, draws := k', busLocked := b } n a v
      refine ⟨dc, k2, b, by rw [h1], hb, .inr ⟨?_, h2⟩⟩
      rintro (hb | ⟨hw, hm⟩)
      · simp [hc] at hb
      · rw [hf hw, hm] at hd; cases hd
    · rename_i hd
      refine ⟨s.dcache, k', b, rfl, hb, .inl ⟨?_, rfl⟩⟩
      rintro ⟨-, hw, hm⟩
      rw [hf hw, hm] at hd; exact hd rfl
  · rw [if_neg hc]
    exact ⟨s.dcache, k, b, rfl, hb, .inl ⟨fun hx => hc hx.1, rfl⟩⟩

/-! ### Instruction fetch -/

/-- A read on the instruction bus that storage answers. -/
theorem instrRead_storage {a : Nat} (h : s.fetches a) :
    s.instrRead a = .next (Memory.readWord (s.instrStorage a) a, s) := by
  obtain ⟨r, hr, hk⟩ := h
  simp [State.instrRead, hr, hk]

/-- Everything a read on the instruction bus can do to the state: it may draw. -/
theorem instrRead_next {a : Nat} {w : Word} {u : State} (h : s.instrRead a = .next (w, u)) :
    ∃ k, u = { s with draws := k } := by
  unfold State.instrRead at h
  split at h
  · cases h
  · split at h
    · cases h; exact ⟨_, rfl⟩
    · cases h; exact ⟨s.draws, rfl⟩

/-- Everything a fetch can do to the state: it may draw and fill one instruction-cache line. -/
theorem fetchWord_next {w : Word} {u : State} (h : s.fetchWord = .next (w, u)) :
    aligned s.pc = true ∧ s.stale s.pc.toNat = false ∧ ∃ ic k, u = { s with icache := ic, draws := k } ∧
      (ic = s.icache ∨ ∃ x, ic = Assoc.put s.icache (CacheConfig.lineOf s.cfg.icache s.pc.toNat)
        ⟨CacheConfig.tagOf s.cfg.icache s.pc.toNat, true, false, x⟩) := by
  unfold State.fetchWord at h
  split at h
  · cases h
  · rename_i ha
    split at h
    · cases h
    · rename_i hs
      refine ⟨by simpa using ha, by simpa using hs, ?_⟩
      have bus (k : Nat) {x : Word} {v : State} (h : State.instrRead { s with draws := k } s.pc.toNat = .next (x, v)) :
          ∃ k, v = { s with draws := k } := by
        obtain ⟨k', rfl⟩ := instrRead_next _ h
        exact ⟨k', rfl⟩
      split at h
      · obtain ⟨k, hk⟩ := readFlag_eq s Msr.ice
        simp only [hk] at h
        split at h
        · unfold State.cachedFetch at h
          split at h
          · obtain ⟨⟨x, v⟩, hb, he⟩ := bind_next h
            obtain ⟨k', rfl⟩ := bus k hb
            cases he
            exact ⟨s.icache, _, rfl, .inl rfl⟩
          · split at h
            · simp only [Host.Outcome.next.injEq, Prod.mk.injEq] at h
              obtain ⟨-, rfl⟩ := h
              exact ⟨s.icache, k, rfl, .inl rfl⟩
            · obtain ⟨⟨x, v⟩, hb, he⟩ := bind_next h
              obtain ⟨k', rfl⟩ := bus k hb
              simp only [Host.Outcome.next.injEq, Prod.mk.injEq] at he
              obtain ⟨-, rfl⟩ := he
              split
              · exact ⟨s.icache, k', rfl, .inl rfl⟩
              · exact ⟨_, k', rfl, .inr ⟨x, rfl⟩⟩
        · obtain ⟨k', rfl⟩ := bus k h
          exact ⟨s.icache, k', rfl, .inl rfl⟩
      · obtain ⟨k', rfl⟩ := bus s.draws h
        exact ⟨s.icache, k', rfl, .inl rfl⟩

end Sys2Proof.Machine
end

