-- ==== Sys2Proof/Laws/Encoding.lean ====
section
/-! SUPPORT. The fields of a word read back from a word built of them, and a word rebuilt from its fields. -/

namespace Sys2Proof

/-! ### Reading the fields of a built word -/

/-- A field inside the low part of a joined word. -/
theorem field_low {v w start len : Nat} {hi : BitVec v} {lo : BitVec w} (h : start + len ≤ w) :
    (hi ++ lo).extractLsb' start len = lo.extractLsb' start len := BitVec.extractLsb'_append_eq_of_add_le h

/-- A field inside the high part of a joined word. -/
theorem field_high {v w start len : Nat} {hi : BitVec v} {lo : BitVec w} (h : w ≤ start) :
    (hi ++ lo).extractLsb' start len = hi.extractLsb' (start - w) len := BitVec.extractLsb'_append_eq_of_le h

section
variable (op : BitVec 6) (rd ra rb : RegNum) (f : BitVec 11) (imm : Imm16)

@[simp] theorem opcodeOf_typeA : opcodeOf (typeA op rd ra rb f) = op := by
  simp only [opcodeOf, typeA]
  rw [field_high (by decide), field_high (by decide), field_high (by decide), field_high (by decide)]
  exact BitVec.extractLsb'_eq_self

@[simp] theorem rdOf_typeA : rdOf (typeA op rd ra rb f) = rd := by
  simp only [rdOf, typeA]
  rw [field_high (by decide), field_high (by decide), field_high (by decide), field_low (by decide)]
  exact BitVec.extractLsb'_eq_self

@[simp] theorem raOf_typeA : raOf (typeA op rd ra rb f) = ra := by
  simp only [raOf, typeA]
  rw [field_high (by decide), field_high (by decide), field_low (by decide)]
  exact BitVec.extractLsb'_eq_self

@[simp] theorem rbOf_typeA : rbOf (typeA op rd ra rb f) = rb := by
  simp only [rbOf, typeA]
  rw [field_high (by decide), field_low (by decide)]
  exact BitVec.extractLsb'_eq_self

@[simp] theorem funcOf_typeA : funcOf (typeA op rd ra rb f) = f := by
  simp only [funcOf, typeA]
  rw [field_low (by decide)]
  exact BitVec.extractLsb'_eq_self

@[simp] theorem immOf_typeA : immOf (typeA op rd ra rb f) = rb ++ f := by
  have h : typeA op rd ra rb f = (op ++ rd ++ ra) ++ (rb ++ f) := by
    simp only [typeA]
    exact BitVec.append_assoc
  rw [immOf, h, field_low (by decide)]
  exact BitVec.extractLsb'_eq_self

@[simp] theorem opcodeOf_typeB : opcodeOf (typeB op rd ra imm) = op := by
  simp only [opcodeOf, typeB]
  rw [field_high (by decide), field_high (by decide), field_high (by decide)]
  exact BitVec.extractLsb'_eq_self

@[simp] theorem rdOf_typeB : rdOf (typeB op rd ra imm) = rd := by
  simp only [rdOf, typeB]
  rw [field_high (by decide), field_high (by decide), field_low (by decide)]
  exact BitVec.extractLsb'_eq_self

@[simp] theorem raOf_typeB : raOf (typeB op rd ra imm) = ra := by
  simp only [raOf, typeB]
  rw [field_high (by decide), field_low (by decide)]
  exact BitVec.extractLsb'_eq_self

@[simp] theorem immOf_typeB : immOf (typeB op rd ra imm) = imm := by
  simp only [immOf, typeB]
  rw [field_low (by decide)]
  exact BitVec.extractLsb'_eq_self

theorem funcOf_typeB : funcOf (typeB op rd ra imm) = imm.extractLsb' 0 11 := by
  simp only [funcOf, typeB]
  rw [field_low (by decide)]

theorem rbOf_typeB : rbOf (typeB op rd ra imm) = imm.extractLsb' 11 5 := by
  simp only [rbOf, typeB]
  rw [field_low (by decide)]

end

/-! ### Rebuilding a word from its fields -/

theorem typeA_fields (w : Word) : typeA (opcodeOf w) (rdOf w) (raOf w) (rbOf w) (funcOf w) = w := by
  simp only [typeA, opcodeOf, rdOf, raOf, rbOf, funcOf]
  rw [BitVec.extractLsb'_append_extractLsb'_eq_extractLsb' (by decide),
    BitVec.extractLsb'_append_extractLsb'_eq_extractLsb' (by decide),
    BitVec.extractLsb'_append_extractLsb'_eq_extractLsb' (by decide),
    BitVec.extractLsb'_append_extractLsb'_eq_extractLsb' (by decide)]
  exact BitVec.extractLsb'_eq_self

theorem typeB_fields (w : Word) : typeB (opcodeOf w) (rdOf w) (raOf w) (immOf w) = w := by
  simp only [typeB, opcodeOf, rdOf, raOf, immOf]
  rw [BitVec.extractLsb'_append_extractLsb'_eq_extractLsb' (by decide),
    BitVec.extractLsb'_append_extractLsb'_eq_extractLsb' (by decide),
    BitVec.extractLsb'_append_extractLsb'_eq_extractLsb' (by decide)]
  exact BitVec.extractLsb'_eq_self

/-! ### Masks -/

/-- Masking a Type A word masks its fields. -/
theorem typeA_and (op mop : BitVec 6) (rd ra rb md ma mb : RegNum) (f mf : BitVec 11) :
    typeA op rd ra rb f &&& typeA mop md ma mb mf =
      typeA (op &&& mop) (rd &&& md) (ra &&& ma) (rb &&& mb) (f &&& mf) := by
  have h1 : (op ++ rd) &&& (mop ++ md) = (op &&& mop) ++ (rd &&& md) := BitVec.and_append
  have h2 : (op ++ rd ++ ra) &&& (mop ++ md ++ ma) = (op &&& mop) ++ (rd &&& md) ++ (ra &&& ma) := by
    rw [← h1]; exact BitVec.and_append
  have h3 : (op ++ rd ++ ra ++ rb) &&& (mop ++ md ++ ma ++ mb) =
      (op &&& mop) ++ (rd &&& md) ++ (ra &&& ma) ++ (rb &&& mb) := by
    rw [← h2]; exact BitVec.and_append
  unfold typeA
  rw [← h3]
  exact BitVec.and_append

/-- Masking a Type B word masks its fields. -/
theorem typeB_and (op mop : BitVec 6) (rd ra md ma : RegNum) (imm mi : Imm16) :
    typeB op rd ra imm &&& typeB mop md ma mi = typeB (op &&& mop) (rd &&& md) (ra &&& ma) (imm &&& mi) := by
  have h1 : (op ++ rd) &&& (mop ++ md) = (op &&& mop) ++ (rd &&& md) := BitVec.and_append
  have h2 : (op ++ rd ++ ra) &&& (mop ++ md ++ ma) = (op &&& mop) ++ (rd &&& md) ++ (ra &&& ma) := by
    rw [← h1]; exact BitVec.and_append
  unfold typeB
  rw [← h2]
  exact BitVec.and_append

end Sys2Proof
end

