-- ==== Sys2Proof/Laws/Events.lean ====
section
/-! SUPPORT. The event test at an instruction boundary: what each part of it can do. -/

namespace Sys2Proof.Machine

/-- Offering a request draws at most. -/
theorem offered_eq (s : State) (b : Bool) : ∃ n, (s.offered b).2 = { s with draws := n } := by
  unfold State.offered; split
  · exact ⟨_, rfl⟩
  · exact ⟨s.draws, rfl⟩

/-- Only an enabled request is taken. -/
theorem offered_on (s : State) (b : Bool) (h : (s.offered b).1 = true) : b = true := by
  unfold State.offered at h; split at h
  · assumption
  · cases h

theorem pollNm_eq (s : State) : ∃ n, s.pollNm.2 = { s with draws := n } := offered_eq s _

theorem pollBreak_eq (s : State) : ∃ n, s.pollBreak.2 = { s with draws := n } := by
  unfold State.pollBreak; split
  · obtain ⟨k, hk⟩ := readFlag_eq s Msr.bip
    dsimp only; rw [hk]
    obtain ⟨n, hn⟩ := offered_eq { s with draws := k } (!(s.readFlag Msr.bip).1)
    exact ⟨n, hn⟩
  · exact ⟨s.draws, rfl⟩

theorem pollException_eq (s : State) : ∃ n, s.pollException.2 = { s with draws := n } := offered_eq s _

theorem pollInterrupt_eq (s : State) : ∃ n, s.pollInterrupt.2 = { s with draws := n } := by
  unfold State.pollInterrupt; split
  · obtain ⟨k, hk⟩ := readFlag_eq s Msr.ie
    dsimp only; rw [hk]
    obtain ⟨k2, hk2⟩ := readFlag_eq { s with draws := k } Msr.bip
    rw [hk2]
    exact offered_eq { s with draws := k2 } _
  · exact ⟨s.draws, rfl⟩

/-- `Ext_BRK` is taken only on a request and a read of BIP as 0. -/
theorem pollBreak_on (s : State) (h : s.pollBreak.1 = true) : s.brk = true ∧ s.MayRead Msr.bip false := by
  unfold State.pollBreak at h; split at h
  · refine ⟨by assumption, ?_⟩
    have := offered_on _ _ h
    have h2 := readFlag_mayRead s Msr.bip
    rw [show (s.readFlag Msr.bip).1 = false by simpa using this] at h2
    exact h2
  · cases h

/-- An interrupt is taken only on a request and reads of IE as 1 and BIP as 0. -/
theorem pollInterrupt_on (s : State) (h : s.pollInterrupt.1 = true) :
    s.interruptRequest = true ∧ s.MayRead Msr.ie true ∧ s.MayRead Msr.bip false := by
  unfold State.pollInterrupt at h; split at h
  · refine ⟨by assumption, ?_⟩
    have := offered_on _ _ h
    obtain ⟨k, hk⟩ := readFlag_eq s Msr.ie
    rw [hk] at this
    have h1 := readFlag_mayRead s Msr.ie
    have h2 := readFlag_mayRead { s with draws := k } Msr.bip
    simp only [Bool.and_eq_true, Bool.not_eq_true'] at this
    rw [this.1] at h1; rw [this.2] at h2
    exact ⟨h1, h2⟩
  · cases h

/-- Everything the event test can do: one entry from a state that only drew, or only draws. -/
theorem pollEvents_cases (s : State) :
    (s.pollEvents.1 = true ∧ s.imm = none ∧ s.ds = none ∧ ∃ n,
      (s.nm = true ∧ s.pollEvents.2 = { s with draws := n }.takeNmBreak) ∨
      (s.brk = true ∧ s.MayRead Msr.bip false ∧ s.pollEvents.2 = { s with draws := n }.takeBreak) ∨
      (s.exc = true ∧ s.pollEvents.2 = { s with draws := n }.takeException) ∨
      (s.interruptRequest = true ∧ s.MayRead Msr.ie true ∧ s.MayRead Msr.bip false ∧
        s.pollEvents.2 = { s with draws := n }.takeInterrupt)) ∨
    (s.pollEvents.1 = false ∧ ∃ n, s.pollEvents.2 = { s with draws := n }) := by
  unfold State.pollEvents
  split
  · exact .inr ⟨rfl, s.draws, rfl⟩
  rename_i hh
  have hh' : s.imm = none ∧ s.ds = none := by simpa [State.heldOff] using hh
  obtain ⟨n1, e1⟩ := pollNm_eq s
  dsimp only
  rw [e1]
  split
  · rename_i h; exact .inl ⟨rfl, hh'.1, hh'.2, n1, .inl ⟨offered_on _ _ h, rfl⟩⟩
  obtain ⟨n2, e2⟩ := pollBreak_eq { s with draws := n1 }
  rw [e2]
  split
  · rename_i h; exact .inl ⟨rfl, hh'.1, hh'.2, n2, .inr (.inl ⟨(pollBreak_on _ h).1, (pollBreak_on _ h).2, rfl⟩)⟩
  obtain ⟨n3, e3⟩ := pollException_eq { s with draws := n2 }
  dsimp only at e3 ⊢
  rw [e3]
  split
  · rename_i h; exact .inl ⟨rfl, hh'.1, hh'.2, n3, .inr (.inr (.inl ⟨offered_on _ _ h, rfl⟩))⟩
  obtain ⟨n4, e4⟩ := pollInterrupt_eq { s with draws := n3 }
  dsimp only at e4 ⊢
  rw [e4]
  split
  · rename_i h
    obtain ⟨a, b, c⟩ := pollInterrupt_on _ h
    exact .inl ⟨rfl, hh'.1, hh'.2, n4, .inr (.inr (.inr ⟨a, b, c, rfl⟩))⟩
  · exact .inr ⟨rfl, n4, rfl⟩

end Sys2Proof.Machine
end

