-- ==== Sys2Proof/Laws/Instructions.lean ====
section
/-! SUPPORT. What each shared operation of the instruction families does, said once in the vocabulary of
Sys2Proof/Safety.lean. -/

namespace Sys2Proof.Machine

variable (s : State)

/-! ### Arithmetic (40_arithmetic R140) -/

theorem addCarry_fst (x y : Word) (c : Bool) : (addCarry x y c).1 = x + y + BitVec.ofNat 32 c.toNat := by
  apply BitVec.eq_of_toNat_eq
  simp [addCarry, BitVec.toNat_add]

theorem addCarry_snd (x y : Word) (c : Bool) :
    (addCarry x y c).2 = decide (2 ^ 32 ≤ x.toNat + y.toNat + c.toNat) := rfl

/-- A constant carry in is no read; the other is a read of C. -/
theorem carryIn_mayRead : s.MayRead Msr.c (s.carryIn .msrC).1 := readFlag_mayRead s Msr.c

/-- Every addition answers a next state: the sum in rD, the carry out in C unless kept. -/
theorem addInto_wrote (rd : RegNum) (x y : Word) (k : CarryIn) (keep : Bool) :
    ∃ t, s.addInto rd x y k keep = .next t ∧
      s.Wrote t rd (addCarry x y (s.carryIn k).1).1
        (if keep then s.msr else { s.msr with c := (addCarry x y (s.carryIn k).1).2 }) := by
  have hw (u : State) (m : Msr) (hm : u.msr = m) (hg : u.gpr = writeGpr s.gpr rd (addCarry x y (s.carryIn k).1).1)
      (hp : u.pc = s.pc) (hd : u.ds = s.ds) (hc : u.icount = s.icount) (ho : s.SameOutside u) :
      s.Wrote u.retire rd (addCarry x y (s.carryIn k).1).1 m := hm ▸ wrote_retire s u hg hp hd hc ho
  refine ⟨_, rfl, ?_⟩
  cases k <;> cases keep <;>
    exact hw _ _ (by simp [State.carryIn]) (by simp [State.carryIn]) (by simp [State.carryIn]) (by simp [State.carryIn])
      (by simp [State.carryIn]) (by constructor <;> constructor <;> simp [State.carryIn])

/-- A zero divisor. -/
theorem divideByZero_wrote (rd : RegNum) :
    ∃ t, s.divideByZero rd = .next t ∧ s.Wrote t rd 0#32 { s.msr with dz := true } :=
  ⟨_, rfl, wrote_retire s (s.setDZ.setReg rd 0#32) rfl rfl rfl rfl (by constructor <;> constructor <;> simp)⟩

/-- A free value written back. -/
theorem drawWord_wrote (rd : RegNum) :
    ∃ t, s.drawWord.2.writeBack rd s.drawWord.1 = .next t ∧ s.Wrote t rd s.drawWord.1 s.msr :=
  ⟨_, rfl, wrote_retire s (s.drawWord.2.setReg rd _) rfl rfl rfl rfl (by constructor <;> constructor <;> simp)⟩

/-! ### Shifts (41_logical) -/

/-- A single-bit shift after a read of C or none. -/
theorem shiftOne_wrote (u : State) (hu : u = s ∨ u = (s.readFlag Msr.c).2) (rd : RegNum) (top : Bool) (a : Word) :
    ∃ t, u.shiftOne rd top a = .next t ∧ s.Wrote t rd (shiftInto top a) { s.msr with c := lowBit a } := by
  rcases hu with rfl | rfl
  · exact ⟨_, rfl, wrote_retire u ((u.setReg rd _).setC _) rfl rfl rfl rfl (by constructor <;> constructor <;> simp)⟩
  · have h := wrote_retire (rd := rd) (v := shiftInto top a) s (((s.readFlag Msr.c).2.setReg rd (shiftInto top a)).setC (lowBit a)) (by simp) (by simp)
      (by simp) (by simp) (by constructor <;> constructor <;> simp)
    exact ⟨_, rfl, by simpa using h⟩

theorem lowBit_eq (a : Word) : lowBit a = decide (a.toNat % 2 = 1) := by
  simp [lowBit, BitVec.getLsbD, Nat.testBit_zero]

theorem shiftInto_toNat (top : Bool) (a : Word) : (shiftInto top a).toNat = top.toNat * 2 ^ 31 + a.toNat / 2 := by
  have h := a.isLt
  have h2 : (a.extractLsb' 1 31).toNat = a.toNat / 2 := by
    simp [BitVec.extractLsb'_toNat, Nat.shiftRight_eq_div_pow]
    omega
  unfold shiftInto
  have : a.toNat / 2 < 2 ^ 31 := by omega
  rw [BitVec.toNat_append, h2, ← Nat.shiftLeft_add_eq_or_of_lt this, Nat.shiftLeft_eq]
  cases top <;> simp

/-! ### Transfers (42_branch R220, R221) -/

/-- A jump after an update that leaves PC, pending transfer and counter alone. -/
theorem jump_next {u : State} (hd : u.ds = none) {target : Word} (ha : target.toNat % 4 = 0) :
    u.jump target = .next { u.retire with pc := target, lastTaken := u.icount } := by
  simp [State.jump, hd, (aligned_iff target).2 ha]

theorem jump_misaligned {u : State} (hd : u.ds = none) {target : Word} (ha : target.toNat % 4 ≠ 0) :
    u.jump target = .refused .misalignedFetch := by
  have : aligned target = false := by rw [← Bool.not_eq_true, aligned_iff]; exact ha
  simp [State.jump, hd, this]

theorem jumpDelayed_next {u : State} (hd : u.ds = none) {target : Word} (act : SlotMsr) (ha : target.toNat % 4 = 0) :
    u.jumpDelayed target act = .next { u.retire with ds := some ⟨target, act⟩ } := by
  simp [State.jumpDelayed, hd, (aligned_iff target).2 ha]

theorem jumpDelayed_misaligned {u : State} (hd : u.ds = none) {target : Word} (act : SlotMsr)
    (ha : target.toNat % 4 ≠ 0) : u.jumpDelayed target act = .refused .misalignedFetch := by
  have : aligned target = false := by rw [← Bool.not_eq_true, aligned_iff]; exact ha
  simp [State.jumpDelayed, hd, this]

end Sys2Proof.Machine
end

