-- ==== Sys2Proof/Laws/Exec.lean ====
section
/-! SUPPORT. What executing an instruction can do, said once for all 109: `exec_next` splits a completed instruction into
its effect on the data of the state (`Effect`) and the way it ends (`Ending`). Statements about every instruction follow
from it without unfolding a meaning. -/

namespace Sys2Proof.Machine

/-- The instructions that can change the data cache: loads, stores, `wdc`. -/
def Instr.usesDCache (i : Instr) : Bool :=
  match i with
  | .lbu _ _ _ => true
  | .lhu _ _ _ => true
  | .lw _ _ _ => true
  | .lbui _ _ _ => true
  | .lhui _ _ _ => true
  | .lwi _ _ _ => true
  | .wdc _ _ => true
  | i => Instr.isStore i

theorem exec_load {i : Instr} {s : State} {n : Size} {rd : RegNum} {base offset : Word}
    (h : IsLoad s n rd i base offset) : exec i s = s.load n rd base offset := by
  cases h <;> cases n <;> rfl

theorem exec_store {i : Instr} {s : State} {n : Size} {rd : RegNum} {base offset : Word}
    (h : IsStore s n rd i base offset) : exec i s = s.store n rd base offset := by
  cases h <;> cases n <;> rfl

/-- An instruction that can change the data cache is a load, a store or `wdc`. -/
theorem usesDCache_cases {i : Instr} (s : State) (h : Instr.usesDCache i = true) :
    (∃ n rd base offset, IsLoad s n rd i base offset) ∨ (∃ n rd base offset, IsStore s n rd i base offset) ∨
      ∃ ra rb, i = .wdc ra rb := by
  cases i <;> cases h
  case wdc ra rb => exact .inr (.inr ⟨ra, rb, rfl⟩)
  case lbu rd ra rb => exact .inl ⟨.byte, rd, _, _, .reg ra rb⟩
  case lhu rd ra rb => exact .inl ⟨.half, rd, _, _, .reg ra rb⟩
  case lw rd ra rb => exact .inl ⟨.word, rd, _, _, .reg ra rb⟩
  case sb rd ra rb => exact .inr (.inl ⟨.byte, rd, _, _, .reg ra rb⟩)
  case sh rd ra rb => exact .inr (.inl ⟨.half, rd, _, _, .reg ra rb⟩)
  case sw rd ra rb => exact .inr (.inl ⟨.word, rd, _, _, .reg ra rb⟩)
  case lbui rd ra v => exact .inl ⟨.byte, rd, _, _, .imm ra v⟩
  case lhui rd ra v => exact .inl ⟨.half, rd, _, _, .imm ra v⟩
  case lwi rd ra v => exact .inl ⟨.word, rd, _, _, .imm ra v⟩
  case sbi rd ra v => exact .inr (.inl ⟨.byte, rd, _, _, .imm ra v⟩)
  case shi rd ra v => exact .inr (.inl ⟨.half, rd, _, _, .imm ra v⟩)
  case swi rd ra v => exact .inr (.inl ⟨.word, rd, _, _, .imm ra v⟩)

/-- The effect of instruction `i` on the data of `s`, before it ends. -/
structure Effect (i : Instr) (s u : State) : Prop where
  cfg : u.cfg = s.cfg
  pc : u.pc = s.pc
  imm : u.imm = s.imm
  ds : u.ds = s.ds
  window : u.window = s.window
  rst : u.rst = s.rst
  nm : u.nm = s.nm
  brk : u.brk = s.brk
  exc : u.exc = s.exc
  intPin : u.intPin = s.intPin
  intLatch : u.intLatch = s.intLatch
  stopped : u.stopped = s.stopped
  imem : u.imem = s.imem
  icount : u.icount = s.icount
  lastTaken : u.lastTaken = s.lastTaken
  gpr : u.gpr = s.gpr ∨ ∃ rd v, Instr.dest i = some rd ∧ u.gpr = writeGpr s.gpr rd v
  dce : u.msr.dce = s.msr.dce
  ice : u.msr.ice = s.msr.ice
  be : u.msr.be = s.msr.be
  ie : u.msr.ie = s.msr.ie
  c : u.msr.c = s.msr.c ∨ Instr.writesC i = true
  dz : u.msr.dz = s.msr.dz ∨ (Instr.divides i = true ∧ u.msr.dz = true)
  fsl : u.msr.fsl = s.msr.fsl ∨ Instr.writesFsl i = true
  bip : u.msr.bip = s.msr.bip ∨ (Instr.breaks i = true ∧ u.msr.bip = true)
  mem : u.mem = s.mem ∨ (Instr.isStore i = true ∧ ∃ n a v, n.fits a ∧ u.mem = Memory.writeSize s.mem n a v)
  stored : u.stored = s.stored ∨ (Instr.isStore i = true ∧ ∃ a, u.stored = Assoc.put s.stored (a / 4 * 4) s.icount)
  icache : u.icache = s.icache ∨ ∃ a v l w, u.icache =
    Assoc.put s.icache (CacheConfig.lineOf s.cfg.icache a) ⟨CacheConfig.tagOf s.cfg.icache a, v, l, w⟩
  dcache : u.dcache = s.dcache ∨ (Instr.usesDCache i = true ∧
    ((∃ a l w, Assoc.find s.dcache (CacheConfig.lineOf s.cfg.dcache a) = some l ∧
      u.dcache = Assoc.put s.dcache (CacheConfig.lineOf s.cfg.dcache a) { l with data := w }) ∨
    ∃ a v l w, u.dcache =
      Assoc.put s.dcache (CacheConfig.lineOf s.cfg.dcache a) ⟨CacheConfig.tagOf s.cfg.dcache a, v, l, w⟩))
  inQ : ∀ ch : Channel, u.inQueue ch = s.inQueue ch ∨
    (Instr.writesFsl i = true ∧ ∃ x, s.inQueue ch = x :: u.inQueue ch)
  outQ : ∀ ch : Channel, u.outQueue ch = s.outQueue ch ∨
    (Instr.puts i = true ∧ (s.outQueue ch).length < s.cfg.fslDepth ∧ ∃ x, u.outQueue ch = s.outQueue ch ++ [x])

/-- How an instruction ends after its effect: on with the next, at a target, before a delay slot, with an MSR write, or
with the `imm` lock. -/
inductive Ending (i : Instr) (u t : State) : Prop where
  | goOn : t = u.retire → Ending i u t
  | jump (target : Word) : u.ds = none → aligned target = true →
      t = { u.retire with pc := target, lastTaken := u.icount } → Ending i u t
  | delay (d : Delayed) : u.ds = none → aligned d.target = true → t = { u.retire with ds := some d } → Ending i u t
  | msr (m : Msr) : Instr.writesMsr i = true → u.msrWritable = true → t = u.retireMsr m → Ending i u t
  | lock (v : Imm16) : i = .imm v → u.ds = none → t = { u.retire with imm := some v } → Ending i u t

variable {i : Instr} {s t : State}

/-- Nothing but free values drawn. -/
theorem effect_draws (k : Nat) : Effect i s { s with draws := k } := by
  constructor <;> first | rfl | exact .inl rfl | exact fun _ => .inl rfl

theorem effect_refl : Effect i s s := effect_draws s.draws

/-- One register written. -/
theorem effect_setReg {rd : RegNum} (hd : Instr.dest i = some rd) (v : Word) (k : Nat) :
    Effect i s ({ s with draws := k }.setReg rd v) := by
  constructor <;> first | rfl | exact .inl rfl | exact fun _ => .inl rfl | exact .inr ⟨rd, v, hd, rfl⟩

theorem addInto_next {rd : RegNum} {x y : Word} {k : CarryIn} {keep : Bool} (hd : Instr.dest i = some rd)
    (hc : keep = true ∨ Instr.writesC i = true) (h : s.addInto rd x y k keep = .next t) :
    ∃ u, Effect i s u ∧ Ending i u t := by
  cases h
  have hk : ∃ n, (s.carryIn k).2 = { s with draws := n } := by
    cases k
    · exact ⟨s.draws, rfl⟩
    · exact ⟨s.draws, rfl⟩
    · exact readFlag_eq s Msr.c
  obtain ⟨n, hn⟩ := hk
  refine ⟨_, ?_, .goOn rfl⟩
  rw [hn]
  cases keep with
  | true => exact effect_setReg hd _ n
  | false =>
    have hc' : Instr.writesC i = true := by simpa using hc
    constructor <;> first | rfl | exact .inl rfl | exact fun _ => .inl rfl | exact .inr ⟨rd, _, hd, rfl⟩ | exact .inr hc'

theorem writeBack_next {rd : RegNum} {v : Word} (hd : Instr.dest i = some rd) (u : State)
    (hu : ∃ k, u = { s with draws := k }) (h : u.writeBack rd v = .next t) : ∃ u, Effect i s u ∧ Ending i u t := by
  obtain ⟨k, rfl⟩ := hu
  cases h
  exact ⟨_, effect_setReg hd v k, .goOn rfl⟩

theorem self_draws : ∃ k, s = { s with draws := k } := ⟨s.draws, rfl⟩

theorem readMsr_eq (s : State) : ∃ k, s.readMsr.2 = { s with draws := k } := by
  have h (u : State) (f : Msr → Bool) (hu : ∃ k, u = { s with draws := k }) :
      ∃ k, (u.readFlag f).2 = { s with draws := k } := by
    obtain ⟨k, rfl⟩ := hu
    exact readFlag_eq _ f
  exact h _ _ (h _ _ (h _ _ (h _ _ (h _ _ (h _ _ (h _ _ (h _ _ self_draws)))))))

theorem shiftOne_next {rd : RegNum} {top : Bool} {a : Word} (hd : Instr.dest i = some rd)
    (hc : Instr.writesC i = true) (u : State) (hu : ∃ k, u = { s with draws := k })
    (h : u.shiftOne rd top a = .next t) : ∃ u, Effect i s u ∧ Ending i u t := by
  obtain ⟨k, rfl⟩ := hu
  cases h
  refine ⟨_, ?_, .goOn rfl⟩
  constructor <;> first | rfl | exact .inl rfl | exact fun _ => .inl rfl | exact .inr ⟨rd, _, hd, rfl⟩ | exact .inr hc

theorem divideByZero_next {rd : RegNum} (hd : Instr.dest i = some rd) (hz : Instr.divides i = true)
    (h : s.divideByZero rd = .next t) : ∃ u, Effect i s u ∧ Ending i u t := by
  cases h
  refine ⟨_, ?_, .goOn rfl⟩
  constructor <;>
    first | rfl | exact .inl rfl | exact fun _ => .inl rfl | exact .inr ⟨rd, _, hd, rfl⟩ | exact .inr ⟨hz, rfl⟩

theorem jump_next_ending {u : State} {target : Word} (hu : Effect i s u) (h : u.jump target = .next t) :
    ∃ u, Effect i s u ∧ Ending i u t := by
  rcases jump_cases u target with ⟨-, h'⟩ | ⟨-, -, h'⟩ | ⟨hd, ha, h'⟩ <;> rw [h'] at h <;> cases h
  exact ⟨u, hu, .jump target hd ha rfl⟩

theorem jumpDelayed_next_ending {u : State} {target : Word} {act : SlotMsr} (hu : Effect i s u)
    (h : u.jumpDelayed target act = .next t) : ∃ u, Effect i s u ∧ Ending i u t := by
  rcases jumpDelayed_cases u target act with ⟨-, h'⟩ | ⟨-, -, h'⟩ | ⟨hd, ha, h'⟩ <;> rw [h'] at h <;> cases h
  exact ⟨u, hu, .delay ⟨target, act⟩ hd ha rfl⟩

theorem effect_link {rd : RegNum} (hd : Instr.dest i = some rd) (v : Word) : Effect i s (s.setReg rd v) :=
  effect_setReg hd v s.draws

theorem effect_break {rd : RegNum} (hd : Instr.dest i = some rd) (hb : Instr.breaks i = true) (v : Word) :
    Effect i s ((s.setReg rd v).setBIP) := by
  constructor <;>
    first | rfl | exact .inl rfl | exact fun _ => .inl rfl | exact .inr ⟨rd, v, hd, rfl⟩ | exact .inr ⟨hb, rfl⟩

theorem branchIf_next {taken delayed : Bool} {offset : Word} (h : s.branchIf taken delayed offset = .next t) :
    ∃ u, Effect i s u ∧ Ending i u t := by
  rcases branchIf_cases s taken delayed offset with ⟨-, -, h'⟩ | ⟨-, -, h'⟩ | ⟨-, h'⟩ <;> rw [h'] at h
  · exact jumpDelayed_next_ending effect_refl h
  · exact jump_next_ending effect_refl h
  · rcases notTaken_cases s with ⟨-, h'⟩ | ⟨-, h'⟩ <;> rw [h'] at h <;> cases h
    exact ⟨s, effect_refl, .goOn rfl⟩

theorem load_next_ending {n : Size} {rd : RegNum} {base offset : Word} (hd : Instr.dest i = some rd)
    (hu : Instr.usesDCache i = true) (h : s.load n rd base offset = .next t) : ∃ u, Effect i s u ∧ Ending i u t := by
  obtain ⟨v, u, h1, rfl⟩ := load_next s h
  obtain ⟨-, dc, k, b, log, rfl, hdc⟩ := memRead_next s h1
  refine ⟨_, ?_, .goOn rfl⟩
  constructor <;> first | rfl | exact .inl rfl | exact fun _ => .inl rfl | exact .inr ⟨rd, _, hd, rfl⟩ | skip
  rcases hdc with rfl | ⟨-, w, -, rfl⟩
  · exact .inl rfl
  · exact .inr ⟨hu, .inr ⟨_, _, _, _, rfl⟩⟩

theorem store_next_ending {n : Size} {rd : RegNum} {base offset : Word} (hs : Instr.isStore i = true)
    (hu : Instr.usesDCache i = true) (h : s.store n rd base offset = .next t) : ∃ u, Effect i s u ∧ Ending i u t := by
  obtain ⟨u, h1, rfl⟩ := store_next s h
  obtain ⟨m, st, b, log, dc, k, rfl, hm, hst, hdc⟩ := memWrite_next s h1
  refine ⟨_, ?_, .goOn rfl⟩
  constructor <;> first | rfl | exact .inl rfl | exact fun _ => .inl rfl | skip
  · rcases hm with rfl | rfl
    · exact .inl rfl
    · exact .inr ⟨hs, n, _, _, effective_fits n base offset, rfl⟩
  · rcases hst with rfl | rfl
    · exact .inl rfl
    · exact .inr ⟨hs, _, rfl⟩
  · rcases hdc with rfl | ⟨l, w, hl, rfl⟩ | ⟨w, rfl⟩
    · exact .inl rfl
    · exact .inr ⟨hu, .inl ⟨_, l, w, hl, rfl⟩⟩
    · exact .inr ⟨hu, .inr ⟨_, _, _, w, rfl⟩⟩

theorem changeMsr_next {rd : RegNum} {f : Word → Word} (hd : Instr.dest i = some rd)
    (hm : Instr.writesMsr i = true) (h : s.changeMsr rd f = .next t) : ∃ u, Effect i s u ∧ Ending i u t := by
  obtain ⟨-, h⟩ := needs_next _ h
  split at h
  · rename_i hw
    obtain ⟨k, hk⟩ := readMsr_eq s
    cases h
    refine ⟨_, ?_, .msr _ hm ?_ rfl⟩
    · rw [hk]; exact effect_setReg hd _ k
    · rw [hk]; exact hw
  · cases h

theorem inQueue_set (s : State) (ch k : Channel) (q : List FslItem) (u : State) (hu : u.inQ = s.inQ.set ch.toNat q) :
    u.inQueue k = if k = ch then q else s.inQueue k := by
  unfold State.inQueue
  by_cases h : k = ch
  · subst h; simp [hu]
  · have : ch.toNat ≠ k.toNat := fun e => h (BitVec.eq_of_toNat_eq e.symm)
    simp [hu, h, this]

theorem outQueue_set (s : State) (ch k : Channel) (q : List FslItem) (u : State) (hu : u.outQ = s.outQ.set ch.toNat q) :
    u.outQueue k = if k = ch then q else s.outQueue k := by
  unfold State.outQueue
  by_cases h : k = ch
  · subst h; simp [hu]
  · have : ch.toNat ≠ k.toNat := fun e => h (BitVec.eq_of_toNat_eq e.symm)
    simp [hu, h, this]

/-- The effect of a get that finds an item. -/
theorem effect_pop {rd : RegNum} {ch : Channel} {x : FslItem} {q : List FslItem} (hd : Instr.dest i = some rd)
    (hf : Instr.writesFsl i = true) (hq : s.inQueue ch = x :: q) (c : Bool) (u : State)
    (hu : u = s.popInto rd ch c x q ∨ (Instr.writesC i = true ∧ u = (s.popInto rd ch c x q).setC false)) : Effect i s u := by
  have hin : u.inQ = s.inQ.set ch.toNat q := by rcases hu with rfl | ⟨-, rfl⟩ <;> rfl
  have hqs (k : Channel) : u.inQueue k = s.inQueue k ∨ (Instr.writesFsl i = true ∧ ∃ x, s.inQueue k = x :: u.inQueue k) := by
    rw [inQueue_set s ch k q u hin]
    by_cases h : k = ch
    · subst h; rw [if_pos rfl]; exact .inr ⟨hf, x, hq⟩
    · rw [if_neg h]; exact .inl rfl
  rcases hu with rfl | ⟨hc, rfl⟩ <;> constructor <;>
    first | rfl | exact .inl rfl | exact hqs | exact fun _ => .inl rfl | exact .inr ⟨rd, _, hd, rfl⟩ | exact .inr hf | exact .inr hc

theorem getBlocking_next {rd : RegNum} {ch : Channel} {c : Bool} (hd : Instr.dest i = some rd)
    (hf : Instr.writesFsl i = true) (h : s.getBlocking rd ch c = .next t) : t = s ∨ ∃ u, Effect i s u ∧ Ending i u t := by
  obtain ⟨-, h⟩ := needs_next _ h
  split at h
  · cases h; exact .inl rfl
  · rename_i x q hq
    cases h
    exact .inr ⟨_, effect_pop hd hf hq c _ (.inl rfl), .goOn rfl⟩

theorem getNonBlocking_next {rd : RegNum} {ch : Channel} {c : Bool} (hd : Instr.dest i = some rd)
    (hf : Instr.writesFsl i = true) (hc : Instr.writesC i = true) (h : s.getNonBlocking rd ch c = .next t) :
    ∃ u, Effect i s u ∧ Ending i u t := by
  obtain ⟨-, h⟩ := needs_next _ h
  split at h
  · cases h
    refine ⟨_, ?_, .goOn rfl⟩
    constructor <;>
      first | rfl | exact .inl rfl | exact fun _ => .inl rfl | exact .inr ⟨rd, _, hd, rfl⟩ | exact .inr hf | exact .inr hc
  · rename_i x q hq
    cases h
    exact ⟨_, effect_pop hd hf hq c _ (.inr ⟨hc, rfl⟩), .goOn rfl⟩

/-- The effect of a put that finds room. -/
theorem effect_push {ra : RegNum} {ch : Channel} (c : Bool) (hp : Instr.puts i = true) (hfull : s.outFull ch = false)
    (u : State) (hu : u = s.push ra ch c ∨ (Instr.writesC i = true ∧ u = (s.push ra ch c).setC false)) : Effect i s u := by
  have hout : u.outQ = s.outQ.set ch.toNat (s.outQueue ch ++ [⟨s.reg ra, c⟩]) := by rcases hu with rfl | ⟨-, rfl⟩ <;> rfl
  have hlen : (s.outQueue ch).length < s.cfg.fslDepth := by simpa [State.outFull] using hfull
  have hqs (k : Channel) : u.outQueue k = s.outQueue k ∨
      (Instr.puts i = true ∧ (s.outQueue k).length < s.cfg.fslDepth ∧ ∃ x, u.outQueue k = s.outQueue k ++ [x]) := by
    rw [outQueue_set s ch k _ u hout]
    by_cases h : k = ch
    · subst h; rw [if_pos rfl]; exact .inr ⟨hp, hlen, _, rfl⟩
    · rw [if_neg h]; exact .inl rfl
  rcases hu with rfl | ⟨hc, rfl⟩ <;> constructor <;>
    first | rfl | exact .inl rfl | exact hqs | exact fun _ => .inl rfl | exact .inr hc

theorem effect_setC (hc : Instr.writesC i = true) (b : Bool) : Effect i s (s.setC b) := by
  constructor <;> first | rfl | exact .inl rfl | exact fun _ => .inl rfl | exact .inr hc

theorem putBlocking_next {ra : RegNum} {ch : Channel} {c : Bool} (hp : Instr.puts i = true)
    (h : s.putBlocking ra ch c = .next t) : t = s ∨ ∃ u, Effect i s u ∧ Ending i u t := by
  obtain ⟨-, h⟩ := needs_next _ h
  cases h
  split
  · exact .inl rfl
  · rename_i hf
    exact .inr ⟨_, effect_push c hp (by simpa using hf) _ (.inl rfl), .goOn rfl⟩

theorem putNonBlocking_next {ra : RegNum} {ch : Channel} {c : Bool} (hp : Instr.puts i = true)
    (hc : Instr.writesC i = true) (h : s.putNonBlocking ra ch c = .next t) : ∃ u, Effect i s u ∧ Ending i u t := by
  obtain ⟨-, h⟩ := needs_next _ h
  cases h
  split
  · exact ⟨_, effect_setC hc true, .goOn rfl⟩
  · rename_i hf
    exact ⟨_, effect_push c hp (by simpa using hf) _ (.inr ⟨hc, rfl⟩), .goOn rfl⟩

theorem mfs_next {rd : RegNum} {rs : SpecReg} (hd : Instr.dest i = some rd) (h : execMfs rd rs s = .next t) :
    ∃ u, Effect i s u ∧ Ending i u t := by
  cases rs
  · exact writeBack_next hd s self_draws h
  · exact writeBack_next hd _ (readMsr_eq s) h

theorem mts_next {ra : RegNum} {rs : SpecReg} (hm : Instr.writesMsr i = true) (h : execMts ra rs s = .next t) :
    ∃ u, Effect i s u ∧ Ending i u t := by
  cases rs with
  | rpc => cases h
  | rmsr =>
    by_cases hw : s.msrWritable = true
    · rw [show execMts ra .rmsr s = .next (s.retireMsr (Msr.ofWord (s.reg ra))) from if_pos hw] at h
      cases h
      exact ⟨s, effect_refl, .msr _ hm hw rfl⟩
    · rw [show execMts ra .rmsr s = .refused .msrWriteInReturnSlot from if_neg hw] at h
      cases h

theorem idiv_next {rd ra rb : RegNum} (h : execIdiv rd ra rb s = .next t) :
    ∃ u, Effect (.idiv rd ra rb) s u ∧ Ending (.idiv rd ra rb) u t := by
  obtain ⟨-, h⟩ := needs_next _ h
  split at h
  · exact divideByZero_next rfl rfl h
  · split at h
    · exact writeBack_next rfl _ ⟨_, rfl⟩ h
    · exact writeBack_next rfl s self_draws h

theorem idivu_next {rd ra rb : RegNum} (h : execIdivu rd ra rb s = .next t) :
    ∃ u, Effect (.idivu rd ra rb) s u ∧ Ending (.idivu rd ra rb) u t := by
  obtain ⟨-, h⟩ := needs_next _ h
  split at h
  · exact divideByZero_next rfl rfl h
  · exact writeBack_next rfl s self_draws h

theorem wic_next {ra rb : RegNum} (h : execWic ra rb s = .next t) :
    ∃ u, Effect (.wic ra rb) s u ∧ Ending (.wic ra rb) u t := by
  obtain ⟨-, h⟩ := needs_next _ h
  dsimp only at h
  obtain ⟨k, hk⟩ := readFlag_eq s Msr.ice
  split at h
  · cases h
  · cases h
    rw [hk]
    refine ⟨_, ?_, .goOn rfl⟩
    constructor <;> first | rfl | exact .inl rfl | exact fun _ => .inl rfl | exact .inr ⟨_, _, _, _, rfl⟩

theorem wdc_next {ra rb : RegNum} (h : execWdc ra rb s = .next t) :
    ∃ u, Effect (.wdc ra rb) s u ∧ Ending (.wdc ra rb) u t := by
  obtain ⟨-, h⟩ := needs_next _ h
  dsimp only at h
  obtain ⟨k, hk⟩ := readFlag_eq s Msr.dce
  split at h
  · cases h
  · cases h
    rw [hk]
    refine ⟨_, ?_, .goOn rfl⟩
    constructor <;>
      first | rfl | exact .inl rfl | exact fun _ => .inl rfl | exact .inr ⟨rfl, .inr ⟨_, _, _, _, rfl⟩⟩

theorem imm_next {v : Imm16} (h : execImm v s = .next t) : ∃ u, Effect (.imm v) s u ∧ Ending (.imm v) u t := by
  unfold execImm State.lockImm at h
  split at h
  · cases h
  · rename_i hd
    cases h
    exact ⟨s, effect_refl, .lock v rfl (by simpa using hd) rfl⟩

/-- Everything an instruction can do: wait on an FSL with the state unchanged, or have its effect and end. -/
theorem exec_next (h : exec i s = .next t) : t = s ∨ ∃ u, Effect i s u ∧ Ending i u t :=
  match i, h with
  | .add _ _ _, h => .inr (addInto_next rfl (.inr rfl) h)
  | .rsub _ _ _, h => .inr (addInto_next rfl (.inr rfl) h)
  | .addc _ _ _, h => .inr (addInto_next rfl (.inr rfl) h)
  | .rsubc _ _ _, h => .inr (addInto_next rfl (.inr rfl) h)
  | .addk _ _ _, h => .inr (addInto_next rfl (.inl rfl) h)
  | .rsubk _ _ _, h => .inr (addInto_next rfl (.inl rfl) h)
  | .addkc _ _ _, h => .inr (addInto_next rfl (.inl rfl) h)
  | .rsubkc _ _ _, h => .inr (addInto_next rfl (.inl rfl) h)
  | .cmp _ _ _, h => .inr (writeBack_next rfl s self_draws h)
  | .cmpu _ _ _, h => .inr (writeBack_next rfl s self_draws h)
  | .addi _ _ _, h => .inr (addInto_next rfl (.inr rfl) h)
  | .rsubi _ _ _, h => .inr (addInto_next rfl (.inr rfl) h)
  | .addic _ _ _, h => .inr (addInto_next rfl (.inr rfl) h)
  | .rsubic _ _ _, h => .inr (addInto_next rfl (.inr rfl) h)
  | .addik _ _ _, h => .inr (addInto_next rfl (.inl rfl) h)
  | .rsubik _ _ _, h => .inr (addInto_next rfl (.inl rfl) h)
  | .addikc _ _ _, h => .inr (addInto_next rfl (.inl rfl) h)
  | .rsubikc _ _ _, h => .inr (addInto_next rfl (.inl rfl) h)
  | .mul _ _ _, h => .inr (writeBack_next rfl s self_draws (needs_next _ h).2)
  | .bsrl _ _ _, h => .inr (writeBack_next rfl s self_draws (needs_next _ h).2)
  | .bsra _ _ _, h => .inr (writeBack_next rfl s self_draws (needs_next _ h).2)
  | .bsll _ _ _, h => .inr (writeBack_next rfl s self_draws (needs_next _ h).2)
  | .muli _ _ _, h => .inr (writeBack_next rfl s self_draws (needs_next _ h).2)
  | .bsrli _ _ _, h => .inr (writeBack_next rfl s self_draws (needs_next _ h).2)
  | .bsrai _ _ _, h => .inr (writeBack_next rfl s self_draws (needs_next _ h).2)
  | .bslli _ _ _, h => .inr (writeBack_next rfl s self_draws (needs_next _ h).2)
  | .idiv _ _ _, h => .inr (idiv_next h)
  | .idivu _ _ _, h => .inr (idivu_next h)
  | .get _ _, h => getBlocking_next rfl rfl h
  | .put _ _, h => putBlocking_next rfl h
  | .nget _ _, h => .inr (getNonBlocking_next rfl rfl rfl h)
  | .nput _ _, h => .inr (putNonBlocking_next rfl rfl h)
  | .cget _ _, h => getBlocking_next rfl rfl h
  | .cput _ _, h => putBlocking_next rfl h
  | .ncget _ _, h => .inr (getNonBlocking_next rfl rfl rfl h)
  | .ncput _ _, h => .inr (putNonBlocking_next rfl rfl h)
  | .or _ _ _, h => .inr (writeBack_next rfl s self_draws h)
  | .and _ _ _, h => .inr (writeBack_next rfl s self_draws h)
  | .xor _ _ _, h => .inr (writeBack_next rfl s self_draws h)
  | .andn _ _ _, h => .inr (writeBack_next rfl s self_draws h)
  | .sra _ _, h => .inr (shiftOne_next rfl rfl s self_draws h)
  | .src _ _, h => .inr (shiftOne_next rfl rfl _ (readFlag_eq s Msr.c) h)
  | .srl _ _, h => .inr (shiftOne_next rfl rfl s self_draws h)
  | .sext8 _ _, h => .inr (writeBack_next rfl s self_draws h)
  | .sext16 _ _, h => .inr (writeBack_next rfl s self_draws h)
  | .wic _ _, h => .inr (wic_next h)
  | .wdc _ _, h => .inr (wdc_next h)
  | .mts _ _, h => .inr (mts_next rfl h)
  | .mfs _ _, h => .inr (mfs_next rfl h)
  | .br _, h => .inr (jump_next_ending effect_refl h)
  | .brd _, h => .inr (jumpDelayed_next_ending effect_refl h)
  | .brld _ _, h => .inr (jumpDelayed_next_ending (effect_link rfl _) h)
  | .bra _, h => .inr (jump_next_ending effect_refl h)
  | .brad _, h => .inr (jumpDelayed_next_ending effect_refl h)
  | .brald _ _, h => .inr (jumpDelayed_next_ending (effect_link rfl _) h)
  | .brk _ _, h => .inr (jump_next_ending (effect_break rfl rfl _) h)
  | .beq _ _, h => .inr (branchIf_next h)
  | .bne _ _, h => .inr (branchIf_next h)
  | .blt _ _, h => .inr (branchIf_next h)
  | .ble _ _, h => .inr (branchIf_next h)
  | .bgt _ _, h => .inr (branchIf_next h)
  | .bge _ _, h => .inr (branchIf_next h)
  | .beqd _ _, h => .inr (branchIf_next h)
  | .bned _ _, h => .inr (branchIf_next h)
  | .bltd _ _, h => .inr (branchIf_next h)
  | .bled _ _, h => .inr (branchIf_next h)
  | .bgtd _ _, h => .inr (branchIf_next h)
  | .bged _ _, h => .inr (branchIf_next h)
  | .ori _ _ _, h => .inr (writeBack_next rfl s self_draws h)
  | .andi _ _ _, h => .inr (writeBack_next rfl s self_draws h)
  | .xori _ _ _, h => .inr (writeBack_next rfl s self_draws h)
  | .andni _ _ _, h => .inr (writeBack_next rfl s self_draws h)
  | .imm _, h => .inr (imm_next h)
  | .rtsd _ _, h => .inr (jumpDelayed_next_ending effect_refl h)
  | .rtid _ _, h => .inr (jumpDelayed_next_ending effect_refl h)
  | .rtbd _ _, h => .inr (jumpDelayed_next_ending effect_refl h)
  | .bri _, h => .inr (jump_next_ending effect_refl h)
  | .brid _, h => .inr (jumpDelayed_next_ending effect_refl h)
  | .brlid _ _, h => .inr (jumpDelayed_next_ending (effect_link rfl _) h)
  | .brai _, h => .inr (jump_next_ending effect_refl h)
  | .braid _, h => .inr (jumpDelayed_next_ending effect_refl h)
  | .bralid _ _, h => .inr (jumpDelayed_next_ending (effect_link rfl _) h)
  | .brki _ _, h => .inr (jump_next_ending (effect_break rfl rfl _) h)
  | .beqi _ _, h => .inr (branchIf_next h)
  | .bnei _ _, h => .inr (branchIf_next h)
  | .blti _ _, h => .inr (branchIf_next h)
  | .blei _ _, h => .inr (branchIf_next h)
  | .bgti _ _, h => .inr (branchIf_next h)
  | .bgei _ _, h => .inr (branchIf_next h)
  | .beqid _ _, h => .inr (branchIf_next h)
  | .bneid _ _, h => .inr (branchIf_next h)
  | .bltid _ _, h => .inr (branchIf_next h)
  | .bleid _ _, h => .inr (branchIf_next h)
  | .bgtid _ _, h => .inr (branchIf_next h)
  | .bgeid _ _, h => .inr (branchIf_next h)
  | .lbu _ _ _, h => .inr (load_next_ending rfl rfl h)
  | .lhu _ _ _, h => .inr (load_next_ending rfl rfl h)
  | .lw _ _ _, h => .inr (load_next_ending rfl rfl h)
  | .sb _ _ _, h => .inr (store_next_ending rfl rfl h)
  | .sh _ _ _, h => .inr (store_next_ending rfl rfl h)
  | .sw _ _ _, h => .inr (store_next_ending rfl rfl h)
  | .lbui _ _ _, h => .inr (load_next_ending rfl rfl h)
  | .lhui _ _ _, h => .inr (load_next_ending rfl rfl h)
  | .lwi _ _ _, h => .inr (load_next_ending rfl rfl h)
  | .sbi _ _ _, h => .inr (store_next_ending rfl rfl h)
  | .shi _ _ _, h => .inr (store_next_ending rfl rfl h)
  | .swi _ _ _, h => .inr (store_next_ending rfl rfl h)
  | .msrset _ v, h => .inr (changeMsr_next (f := fun old => old ||| s.msrMask v) rfl rfl h)
  | .msrclr _ v, h => .inr (changeMsr_next (f := fun old => old &&& ~~~s.msrMask v) rfl rfl h)

/-- An ending touches no register, storage, cache or queue. -/
theorem ending_frame {u : State} (h : Ending i u t) :
    t.cfg = u.cfg ∧ t.gpr = u.gpr ∧ t.mem = u.mem ∧ t.imem = u.imem ∧ t.icache = u.icache ∧ t.dcache = u.dcache ∧
      t.inQ = u.inQ ∧ t.outQ = u.outQ ∧ t.stored = u.stored := by
  rcases h with rfl | ⟨_, _, _, rfl⟩ | ⟨_, _, _, rfl⟩ | ⟨_, _, _, rfl⟩ | ⟨_, _, _, rfl⟩ <;>
    exact ⟨rfl, rfl, rfl, rfl, rfl, rfl, rfl, rfl, rfl⟩

/-- No instruction takes a word off the record of stores. -/
theorem exec_recorded {a : Nat} (h : exec i s = .next t) (hr : s.recorded a) : t.recorded a := by
  rcases exec_next h with rfl | ⟨u, hu, he⟩
  · exact hr
  · unfold State.recorded at hr ⊢
    rw [(ending_frame he).2.2.2.2.2.2.2.2]
    rcases hu.stored with h | ⟨-, b, h⟩ <;> rw [h]
    · exact hr
    · exact find_put_isSome hr _ _

end Sys2Proof.Machine
end

