-- ==== Sys2Proof/Laws/PerInstr.lean ====
section
/-! SUPPORT. What is said of every instruction one by one: the word of a well-formed instruction has, under the mask of its
row of the instruction list, the match value of the row (30_encoding R108). -/

namespace Sys2Proof.Laws.RowBits

open Sys2Proof

/-- The encoding of the instruction agrees with its row in every configuration. -/
def Statement (i : Instr) : Prop := ∀ c : Config, WellFormed c i = true → encode c i &&& rowMask c i = rowMatch c i

/-! ### Operand fields under a mask -/

theorem shiftField_and (st : BitVec 2) (n : BitVec 5) : shiftField st n &&& 2016#11 = st ++ 0#9 := by
  revert st n
  decide

theorem fslField_and (kind : BitVec 3) (ch : Channel) : fslField kind ch &&& 65528#16 = kind ++ 0#13 := by
  revert kind ch
  decide

theorem specField_and (kind : BitVec 2) (r : SpecReg) : specField kind r &&& 65534#16 = kind ++ 0#14 := by
  revert kind
  cases r <;> decide

theorem imm_top (imm : Imm16) (h : imm.msb = false) : imm &&& 32768#16 = 0#16 := by
  have ht : imm.toNat < 2 ^ 15 := by
    have := BitVec.msb_eq_false_iff_two_mul_lt.1 h
    omega
  apply BitVec.eq_of_toNat_eq
  rw [BitVec.toNat_and]
  exact (Nat.and_two_pow imm.toNat 15).trans (by simp [Nat.testBit_lt_two_pow ht])

/-- The two placements of `msrset` and `msrclr` (30_encoding R119). -/
theorem msr_row (c : Config) (kind rd : RegNum) (imm : Imm16) (h : msrEncodable c imm = true) :
    encodeMsr c kind rd imm &&& (if c.msrGnu then 0xFC1F8000#32 else 0xFC1F0000#32) =
      if c.msrGnu then typeB 0b100101#6 0#5 kind 0#16 else typeB 0b011000#6 0#5 kind 0#16 := by
  unfold encodeMsr
  cases hg : c.msrGnu with
  | true =>
    have hp : c.msrPrinted = false := by
      simp only [Config.msrGnu, Config.msrPrinted] at hg ⊢
      cases he : c.msrEncoding <;> simp_all
    have hm : imm.msb = false := by simpa [msrEncodable, hp, hg] using h
    change typeB 0b100101#6 rd kind imm &&& typeB 63#6 0#5 31#5 32768#16 = typeB 0b100101#6 0#5 kind 0#16
    rw [typeB_and, imm_top imm hm, BitVec.and_zero]
    congr 1
    exact BitVec.and_allOnes (x := kind)
  | false =>
    change typeB 0b011000#6 rd kind imm &&& typeB 63#6 0#5 31#5 0#16 = typeB 0b011000#6 0#5 kind 0#16
    rw [typeB_and, BitVec.and_zero, BitVec.and_zero]
    congr 1
    exact BitVec.and_allOnes (x := kind)

/-! ### One lemma per instruction -/

theorem add (rd ra rb : RegNum) : Statement (.add rd ra rb) := by
  intro c _
  change typeA 0b000000#6 rd ra rb 0x000#11 &&& typeA 63#6 0#5 0#5 0#5 2047#11 = _
  simp only [typeA_and, BitVec.and_zero]
  rfl

theorem rsub (rd ra rb : RegNum) : Statement (.rsub rd ra rb) := by
  intro c _
  change typeA 0b000001#6 rd ra rb 0x000#11 &&& typeA 63#6 0#5 0#5 0#5 2047#11 = _
  simp only [typeA_and, BitVec.and_zero]
  rfl

theorem addc (rd ra rb : RegNum) : Statement (.addc rd ra rb) := by
  intro c _
  change typeA 0b000010#6 rd ra rb 0x000#11 &&& typeA 63#6 0#5 0#5 0#5 2047#11 = _
  simp only [typeA_and, BitVec.and_zero]
  rfl

theorem rsubc (rd ra rb : RegNum) : Statement (.rsubc rd ra rb) := by
  intro c _
  change typeA 0b000011#6 rd ra rb 0x000#11 &&& typeA 63#6 0#5 0#5 0#5 2047#11 = _
  simp only [typeA_and, BitVec.and_zero]
  rfl

theorem addk (rd ra rb : RegNum) : Statement (.addk rd ra rb) := by
  intro c _
  change typeA 0b000100#6 rd ra rb 0x000#11 &&& typeA 63#6 0#5 0#5 0#5 2047#11 = _
  simp only [typeA_and, BitVec.and_zero]
  rfl

theorem rsubk (rd ra rb : RegNum) : Statement (.rsubk rd ra rb) := by
  intro c _
  change typeA 0b000101#6 rd ra rb 0x000#11 &&& typeA 63#6 0#5 0#5 0#5 2047#11 = _
  simp only [typeA_and, BitVec.and_zero]
  rfl

theorem addkc (rd ra rb : RegNum) : Statement (.addkc rd ra rb) := by
  intro c _
  change typeA 0b000110#6 rd ra rb 0x000#11 &&& typeA 63#6 0#5 0#5 0#5 2047#11 = _
  simp only [typeA_and, BitVec.and_zero]
  rfl

theorem rsubkc (rd ra rb : RegNum) : Statement (.rsubkc rd ra rb) := by
  intro c _
  change typeA 0b000111#6 rd ra rb 0x000#11 &&& typeA 63#6 0#5 0#5 0#5 2047#11 = _
  simp only [typeA_and, BitVec.and_zero]
  rfl

theorem cmp (rd ra rb : RegNum) : Statement (.cmp rd ra rb) := by
  intro c _
  change typeA 0b000101#6 rd ra rb 0x001#11 &&& typeA 63#6 0#5 0#5 0#5 2047#11 = _
  simp only [typeA_and, BitVec.and_zero]
  rfl

theorem cmpu (rd ra rb : RegNum) : Statement (.cmpu rd ra rb) := by
  intro c _
  change typeA 0b000101#6 rd ra rb 0x003#11 &&& typeA 63#6 0#5 0#5 0#5 2047#11 = _
  simp only [typeA_and, BitVec.and_zero]
  rfl

theorem addi (rd ra : RegNum) (imm : Imm16) : Statement (.addi rd ra imm) := by
  intro c _
  change typeB 0b001000#6 rd ra imm &&& typeB 63#6 0#5 0#5 0#16 = _
  simp only [typeB_and, BitVec.and_zero]
  rfl

theorem rsubi (rd ra : RegNum) (imm : Imm16) : Statement (.rsubi rd ra imm) := by
  intro c _
  change typeB 0b001001#6 rd ra imm &&& typeB 63#6 0#5 0#5 0#16 = _
  simp only [typeB_and, BitVec.and_zero]
  rfl

theorem addic (rd ra : RegNum) (imm : Imm16) : Statement (.addic rd ra imm) := by
  intro c _
  change typeB 0b001010#6 rd ra imm &&& typeB 63#6 0#5 0#5 0#16 = _
  simp only [typeB_and, BitVec.and_zero]
  rfl

theorem rsubic (rd ra : RegNum) (imm : Imm16) : Statement (.rsubic rd ra imm) := by
  intro c _
  change typeB 0b001011#6 rd ra imm &&& typeB 63#6 0#5 0#5 0#16 = _
  simp only [typeB_and, BitVec.and_zero]
  rfl

theorem addik (rd ra : RegNum) (imm : Imm16) : Statement (.addik rd ra imm) := by
  intro c _
  change typeB 0b001100#6 rd ra imm &&& typeB 63#6 0#5 0#5 0#16 = _
  simp only [typeB_and, BitVec.and_zero]
  rfl

theorem rsubik (rd ra : RegNum) (imm : Imm16) : Statement (.rsubik rd ra imm) := by
  intro c _
  change typeB 0b001101#6 rd ra imm &&& typeB 63#6 0#5 0#5 0#16 = _
  simp only [typeB_and, BitVec.and_zero]
  rfl

theorem addikc (rd ra : RegNum) (imm : Imm16) : Statement (.addikc rd ra imm) := by
  intro c _
  change typeB 0b001110#6 rd ra imm &&& typeB 63#6 0#5 0#5 0#16 = _
  simp only [typeB_and, BitVec.and_zero]
  rfl

theorem rsubikc (rd ra : RegNum) (imm : Imm16) : Statement (.rsubikc rd ra imm) := by
  intro c _
  change typeB 0b001111#6 rd ra imm &&& typeB 63#6 0#5 0#5 0#16 = _
  simp only [typeB_and, BitVec.and_zero]
  rfl

theorem mul (rd ra rb : RegNum) : Statement (.mul rd ra rb) := by
  intro c _
  change typeA 0b010000#6 rd ra rb 0x000#11 &&& typeA 63#6 0#5 0#5 0#5 2047#11 = _
  simp only [typeA_and, BitVec.and_zero]
  rfl

theorem bsrl (rd ra rb : RegNum) : Statement (.bsrl rd ra rb) := by
  intro c _
  change typeA 0b010001#6 rd ra rb 0x000#11 &&& typeA 63#6 0#5 0#5 0#5 2047#11 = _
  simp only [typeA_and, BitVec.and_zero]
  rfl

theorem bsra (rd ra rb : RegNum) : Statement (.bsra rd ra rb) := by
  intro c _
  change typeA 0b010001#6 rd ra rb 0x200#11 &&& typeA 63#6 0#5 0#5 0#5 2047#11 = _
  simp only [typeA_and, BitVec.and_zero]
  rfl

theorem bsll (rd ra rb : RegNum) : Statement (.bsll rd ra rb) := by
  intro c _
  change typeA 0b010001#6 rd ra rb 0x400#11 &&& typeA 63#6 0#5 0#5 0#5 2047#11 = _
  simp only [typeA_and, BitVec.and_zero]
  rfl

theorem muli (rd ra : RegNum) (imm : Imm16) : Statement (.muli rd ra imm) := by
  intro c _
  change typeB 0b011000#6 rd ra imm &&& typeB 63#6 0#5 0#5 0#16 = _
  simp only [typeB_and, BitVec.and_zero]
  rfl

theorem bsrli (rd ra : RegNum) (amount : BitVec 5) : Statement (.bsrli rd ra amount) := by
  intro c _
  change typeA 0b011001#6 rd ra 0#5 (shiftField 0b00#2 amount) &&& typeA 63#6 0#5 0#5 31#5 2016#11 = _
  simp only [typeA_and, BitVec.and_zero, shiftField_and]
  rfl

theorem bsrai (rd ra : RegNum) (amount : BitVec 5) : Statement (.bsrai rd ra amount) := by
  intro c _
  change typeA 0b011001#6 rd ra 0#5 (shiftField 0b01#2 amount) &&& typeA 63#6 0#5 0#5 31#5 2016#11 = _
  simp only [typeA_and, BitVec.and_zero, shiftField_and]
  rfl

theorem bslli (rd ra : RegNum) (amount : BitVec 5) : Statement (.bslli rd ra amount) := by
  intro c _
  change typeA 0b011001#6 rd ra 0#5 (shiftField 0b10#2 amount) &&& typeA 63#6 0#5 0#5 31#5 2016#11 = _
  simp only [typeA_and, BitVec.and_zero, shiftField_and]
  rfl

theorem idiv (rd ra rb : RegNum) : Statement (.idiv rd ra rb) := by
  intro c _
  change typeA 0b010010#6 rd ra rb 0x000#11 &&& typeA 63#6 0#5 0#5 0#5 2047#11 = _
  simp only [typeA_and, BitVec.and_zero]
  rfl

theorem idivu (rd ra rb : RegNum) : Statement (.idivu rd ra rb) := by
  intro c _
  change typeA _ rd ra rb _ &&& typeA 63#6 0#5 0#5 0#5 2047#11 = _
  rw [typeA_and]
  simp only [BitVec.and_zero, rowMatch, idivuCode]
  split <;> rfl

theorem get (rd : RegNum) (ch : Channel) : Statement (.get rd ch) := by
  intro c _
  change typeB 0b011011#6 rd 0b00000#5 (fslField 0b000#3 ch) &&& typeB 63#6 0#5 31#5 65528#16 = _
  simp only [typeB_and, BitVec.and_zero, fslField_and]
  rfl

theorem put (ra : RegNum) (ch : Channel) : Statement (.put ra ch) := by
  intro c _
  change typeB 0b011011#6 0b00000#5 ra (fslField 0b100#3 ch) &&& typeB 63#6 31#5 0#5 65528#16 = _
  simp only [typeB_and, BitVec.and_zero, fslField_and]
  rfl

theorem nget (rd : RegNum) (ch : Channel) : Statement (.nget rd ch) := by
  intro c _
  change typeB 0b011011#6 rd 0b00000#5 (fslField 0b010#3 ch) &&& typeB 63#6 0#5 31#5 65528#16 = _
  simp only [typeB_and, BitVec.and_zero, fslField_and]
  rfl

theorem nput (ra : RegNum) (ch : Channel) : Statement (.nput ra ch) := by
  intro c _
  change typeB 0b011011#6 0b00000#5 ra (fslField 0b110#3 ch) &&& typeB 63#6 31#5 0#5 65528#16 = _
  simp only [typeB_and, BitVec.and_zero, fslField_and]
  rfl

theorem cget (rd : RegNum) (ch : Channel) : Statement (.cget rd ch) := by
  intro c _
  change typeB 0b011011#6 rd 0b00000#5 (fslField 0b001#3 ch) &&& typeB 63#6 0#5 31#5 65528#16 = _
  simp only [typeB_and, BitVec.and_zero, fslField_and]
  rfl

theorem cput (ra : RegNum) (ch : Channel) : Statement (.cput ra ch) := by
  intro c _
  change typeB 0b011011#6 0b00000#5 ra (fslField 0b101#3 ch) &&& typeB 63#6 31#5 0#5 65528#16 = _
  simp only [typeB_and, BitVec.and_zero, fslField_and]
  rfl

theorem ncget (rd : RegNum) (ch : Channel) : Statement (.ncget rd ch) := by
  intro c _
  change typeB 0b011011#6 rd 0b00000#5 (fslField 0b011#3 ch) &&& typeB 63#6 0#5 31#5 65528#16 = _
  simp only [typeB_and, BitVec.and_zero, fslField_and]
  rfl

theorem ncput (ra : RegNum) (ch : Channel) : Statement (.ncput ra ch) := by
  intro c _
  change typeB 0b011011#6 0b00000#5 ra (fslField 0b111#3 ch) &&& typeB 63#6 31#5 0#5 65528#16 = _
  simp only [typeB_and, BitVec.and_zero, fslField_and]
  rfl

theorem or (rd ra rb : RegNum) : Statement (.or rd ra rb) := by
  intro c _
  change typeA 0b100000#6 rd ra rb 0x000#11 &&& typeA 63#6 0#5 0#5 0#5 2047#11 = _
  simp only [typeA_and, BitVec.and_zero]
  rfl

theorem and (rd ra rb : RegNum) : Statement (.and rd ra rb) := by
  intro c _
  change typeA 0b100001#6 rd ra rb 0x000#11 &&& typeA 63#6 0#5 0#5 0#5 2047#11 = _
  simp only [typeA_and, BitVec.and_zero]
  rfl

theorem xor (rd ra rb : RegNum) : Statement (.xor rd ra rb) := by
  intro c _
  change typeA 0b100010#6 rd ra rb 0x000#11 &&& typeA 63#6 0#5 0#5 0#5 2047#11 = _
  simp only [typeA_and, BitVec.and_zero]
  rfl

theorem andn (rd ra rb : RegNum) : Statement (.andn rd ra rb) := by
  intro c _
  change typeA 0b100011#6 rd ra rb 0x000#11 &&& typeA 63#6 0#5 0#5 0#5 2047#11 = _
  simp only [typeA_and, BitVec.and_zero]
  rfl

theorem sra (rd ra : RegNum) : Statement (.sra rd ra) := by
  intro c _
  change typeB 0b100100#6 rd ra 0x0001#16 &&& typeB 63#6 0#5 0#5 65535#16 = _
  simp only [typeB_and, BitVec.and_zero]
  rfl

theorem src (rd ra : RegNum) : Statement (.src rd ra) := by
  intro c _
  change typeB 0b100100#6 rd ra 0x0021#16 &&& typeB 63#6 0#5 0#5 65535#16 = _
  simp only [typeB_and, BitVec.and_zero]
  rfl

theorem srl (rd ra : RegNum) : Statement (.srl rd ra) := by
  intro c _
  change typeB 0b100100#6 rd ra 0x0041#16 &&& typeB 63#6 0#5 0#5 65535#16 = _
  simp only [typeB_and, BitVec.and_zero]
  rfl

theorem sext8 (rd ra : RegNum) : Statement (.sext8 rd ra) := by
  intro c _
  change typeB 0b100100#6 rd ra 0x0060#16 &&& typeB 63#6 0#5 0#5 65535#16 = _
  simp only [typeB_and, BitVec.and_zero]
  rfl

theorem sext16 (rd ra : RegNum) : Statement (.sext16 rd ra) := by
  intro c _
  change typeB 0b100100#6 rd ra 0x0061#16 &&& typeB 63#6 0#5 0#5 65535#16 = _
  simp only [typeB_and, BitVec.and_zero]
  rfl

theorem wic (ra rb : RegNum) : Statement (.wic ra rb) := by
  intro c _
  change typeA 0b100100#6 ra ra rb 0x068#11 &&& typeA 63#6 0#5 0#5 0#5 2047#11 = _
  simp only [typeA_and, BitVec.and_zero]
  rfl

theorem wdc (ra rb : RegNum) : Statement (.wdc ra rb) := by
  intro c _
  change typeA 0b100100#6 ra ra rb 0x064#11 &&& typeA 63#6 0#5 0#5 0#5 2047#11 = _
  simp only [typeA_and, BitVec.and_zero]
  rfl

theorem mts (ra : RegNum) (rs : SpecReg) : Statement (.mts ra rs) := by
  intro c _
  change typeB 0b100101#6 0b00000#5 ra (specField 0b11#2 rs) &&& typeB 63#6 31#5 0#5 65534#16 = _
  simp only [typeB_and, BitVec.and_zero, specField_and]
  rfl

theorem mfs (rd : RegNum) (rs : SpecReg) : Statement (.mfs rd rs) := by
  intro c _
  change typeB 0b100101#6 rd 0b00000#5 (specField 0b10#2 rs) &&& typeB 63#6 0#5 31#5 65534#16 = _
  simp only [typeB_and, BitVec.and_zero, specField_and]
  rfl

theorem br (rb : RegNum) : Statement (.br rb) := by
  intro c _
  change typeA 0b100110#6 0b00000#5 0b00000#5 rb 0x000#11 &&& typeA 63#6 31#5 31#5 0#5 2047#11 = _
  simp only [typeA_and, BitVec.and_zero]
  rfl

theorem brd (rb : RegNum) : Statement (.brd rb) := by
  intro c _
  change typeA 0b100110#6 0b00000#5 0b10000#5 rb 0x000#11 &&& typeA 63#6 31#5 31#5 0#5 2047#11 = _
  simp only [typeA_and, BitVec.and_zero]
  rfl

theorem brld (rd rb : RegNum) : Statement (.brld rd rb) := by
  intro c _
  change typeA 0b100110#6 rd 0b10100#5 rb 0x000#11 &&& typeA 63#6 0#5 31#5 0#5 2047#11 = _
  simp only [typeA_and, BitVec.and_zero]
  rfl

theorem bra (rb : RegNum) : Statement (.bra rb) := by
  intro c _
  change typeA 0b100110#6 0b00000#5 0b01000#5 rb 0x000#11 &&& typeA 63#6 31#5 31#5 0#5 2047#11 = _
  simp only [typeA_and, BitVec.and_zero]
  rfl

theorem brad (rb : RegNum) : Statement (.brad rb) := by
  intro c _
  change typeA 0b100110#6 0b00000#5 0b11000#5 rb 0x000#11 &&& typeA 63#6 31#5 31#5 0#5 2047#11 = _
  simp only [typeA_and, BitVec.and_zero]
  rfl

theorem brald (rd rb : RegNum) : Statement (.brald rd rb) := by
  intro c _
  change typeA 0b100110#6 rd 0b11100#5 rb 0x000#11 &&& typeA 63#6 0#5 31#5 0#5 2047#11 = _
  simp only [typeA_and, BitVec.and_zero]
  rfl

theorem brk (rd rb : RegNum) : Statement (.brk rd rb) := by
  intro c _
  change typeA 0b100110#6 rd 0b01100#5 rb 0x000#11 &&& typeA 63#6 0#5 31#5 0#5 2047#11 = _
  simp only [typeA_and, BitVec.and_zero]
  rfl

theorem beq (ra rb : RegNum) : Statement (.beq ra rb) := by
  intro c _
  change typeA 0b100111#6 0b00000#5 ra rb 0x000#11 &&& typeA 63#6 31#5 0#5 0#5 2047#11 = _
  simp only [typeA_and, BitVec.and_zero]
  rfl

theorem bne (ra rb : RegNum) : Statement (.bne ra rb) := by
  intro c _
  change typeA 0b100111#6 0b00001#5 ra rb 0x000#11 &&& typeA 63#6 31#5 0#5 0#5 2047#11 = _
  simp only [typeA_and, BitVec.and_zero]
  rfl

theorem blt (ra rb : RegNum) : Statement (.blt ra rb) := by
  intro c _
  change typeA 0b100111#6 0b00010#5 ra rb 0x000#11 &&& typeA 63#6 31#5 0#5 0#5 2047#11 = _
  simp only [typeA_and, BitVec.and_zero]
  rfl

theorem ble (ra rb : RegNum) : Statement (.ble ra rb) := by
  intro c _
  change typeA 0b100111#6 0b00011#5 ra rb 0x000#11 &&& typeA 63#6 31#5 0#5 0#5 2047#11 = _
  simp only [typeA_and, BitVec.and_zero]
  rfl

theorem bgt (ra rb : RegNum) : Statement (.bgt ra rb) := by
  intro c _
  change typeA 0b100111#6 0b00100#5 ra rb 0x000#11 &&& typeA 63#6 31#5 0#5 0#5 2047#11 = _
  simp only [typeA_and, BitVec.and_zero]
  rfl

theorem bge (ra rb : RegNum) : Statement (.bge ra rb) := by
  intro c _
  change typeA 0b100111#6 0b00101#5 ra rb 0x000#11 &&& typeA 63#6 31#5 0#5 0#5 2047#11 = _
  simp only [typeA_and, BitVec.and_zero]
  rfl

theorem beqd (ra rb : RegNum) : Statement (.beqd ra rb) := by
  intro c _
  change typeA 0b100111#6 0b10000#5 ra rb 0x000#11 &&& typeA 63#6 31#5 0#5 0#5 2047#11 = _
  simp only [typeA_and, BitVec.and_zero]
  rfl

theorem bned (ra rb : RegNum) : Statement (.bned ra rb) := by
  intro c _
  change typeA 0b100111#6 0b10001#5 ra rb 0x000#11 &&& typeA 63#6 31#5 0#5 0#5 2047#11 = _
  simp only [typeA_and, BitVec.and_zero]
  rfl

theorem bltd (ra rb : RegNum) : Statement (.bltd ra rb) := by
  intro c _
  change typeA 0b100111#6 0b10010#5 ra rb 0x000#11 &&& typeA 63#6 31#5 0#5 0#5 2047#11 = _
  simp only [typeA_and, BitVec.and_zero]
  rfl

theorem bled (ra rb : RegNum) : Statement (.bled ra rb) := by
  intro c _
  change typeA 0b100111#6 0b10011#5 ra rb 0x000#11 &&& typeA 63#6 31#5 0#5 0#5 2047#11 = _
  simp only [typeA_and, BitVec.and_zero]
  rfl

theorem bgtd (ra rb : RegNum) : Statement (.bgtd ra rb) := by
  intro c _
  change typeA 0b100111#6 0b10100#5 ra rb 0x000#11 &&& typeA 63#6 31#5 0#5 0#5 2047#11 = _
  simp only [typeA_and, BitVec.and_zero]
  rfl

theorem bged (ra rb : RegNum) : Statement (.bged ra rb) := by
  intro c _
  change typeA 0b100111#6 0b10101#5 ra rb 0x000#11 &&& typeA 63#6 31#5 0#5 0#5 2047#11 = _
  simp only [typeA_and, BitVec.and_zero]
  rfl

theorem ori (rd ra : RegNum) (imm : Imm16) : Statement (.ori rd ra imm) := by
  intro c _
  change typeB 0b101000#6 rd ra imm &&& typeB 63#6 0#5 0#5 0#16 = _
  simp only [typeB_and, BitVec.and_zero]
  rfl

theorem andi (rd ra : RegNum) (imm : Imm16) : Statement (.andi rd ra imm) := by
  intro c _
  change typeB 0b101001#6 rd ra imm &&& typeB 63#6 0#5 0#5 0#16 = _
  simp only [typeB_and, BitVec.and_zero]
  rfl

theorem xori (rd ra : RegNum) (imm : Imm16) : Statement (.xori rd ra imm) := by
  intro c _
  change typeB 0b101010#6 rd ra imm &&& typeB 63#6 0#5 0#5 0#16 = _
  simp only [typeB_and, BitVec.and_zero]
  rfl

theorem andni (rd ra : RegNum) (imm : Imm16) : Statement (.andni rd ra imm) := by
  intro c _
  change typeB 0b101011#6 rd ra imm &&& typeB 63#6 0#5 0#5 0#16 = _
  simp only [typeB_and, BitVec.and_zero]
  rfl

theorem imm (imm : Imm16) : Statement (.imm imm) := by
  intro c _
  change typeB 0b101100#6 0b00000#5 0b00000#5 imm &&& typeB 63#6 31#5 31#5 0#16 = _
  simp only [typeB_and, BitVec.and_zero]
  rfl

theorem rtsd (ra : RegNum) (imm : Imm16) : Statement (.rtsd ra imm) := by
  intro c _
  change typeB 0b101101#6 0b10000#5 ra imm &&& typeB 63#6 31#5 0#5 0#16 = _
  simp only [typeB_and, BitVec.and_zero]
  rfl

theorem rtid (ra : RegNum) (imm : Imm16) : Statement (.rtid ra imm) := by
  intro c _
  change typeB 0b101101#6 0b10001#5 ra imm &&& typeB 63#6 31#5 0#5 0#16 = _
  simp only [typeB_and, BitVec.and_zero]
  rfl

theorem rtbd (ra : RegNum) (imm : Imm16) : Statement (.rtbd ra imm) := by
  intro c _
  change typeB 0b101101#6 0b10010#5 ra imm &&& typeB 63#6 31#5 0#5 0#16 = _
  simp only [typeB_and, BitVec.and_zero]
  rfl

theorem bri (imm : Imm16) : Statement (.bri imm) := by
  intro c _
  change typeB 0b101110#6 0b00000#5 0b00000#5 imm &&& typeB 63#6 31#5 31#5 0#16 = _
  simp only [typeB_and, BitVec.and_zero]
  rfl

theorem brid (imm : Imm16) : Statement (.brid imm) := by
  intro c _
  change typeB 0b101110#6 0b00000#5 0b10000#5 imm &&& typeB 63#6 31#5 31#5 0#16 = _
  simp only [typeB_and, BitVec.and_zero]
  rfl

theorem brlid (rd : RegNum) (imm : Imm16) : Statement (.brlid rd imm) := by
  intro c _
  change typeB 0b101110#6 rd 0b10100#5 imm &&& typeB 63#6 0#5 31#5 0#16 = _
  simp only [typeB_and, BitVec.and_zero]
  rfl

theorem brai (imm : Imm16) : Statement (.brai imm) := by
  intro c _
  change typeB 0b101110#6 0b00000#5 0b01000#5 imm &&& typeB 63#6 31#5 31#5 0#16 = _
  simp only [typeB_and, BitVec.and_zero]
  rfl

theorem braid (imm : Imm16) : Statement (.braid imm) := by
  intro c _
  change typeB 0b101110#6 0b00000#5 0b11000#5 imm &&& typeB 63#6 31#5 31#5 0#16 = _
  simp only [typeB_and, BitVec.and_zero]
  rfl

theorem bralid (rd : RegNum) (imm : Imm16) : Statement (.bralid rd imm) := by
  intro c _
  change typeB 0b101110#6 rd 0b11100#5 imm &&& typeB 63#6 0#5 31#5 0#16 = _
  simp only [typeB_and, BitVec.and_zero]
  rfl

theorem brki (rd : RegNum) (imm : Imm16) : Statement (.brki rd imm) := by
  intro c _
  change typeB 0b101110#6 rd 0b01100#5 imm &&& typeB 63#6 0#5 31#5 0#16 = _
  simp only [typeB_and, BitVec.and_zero]
  rfl

theorem beqi (ra : RegNum) (imm : Imm16) : Statement (.beqi ra imm) := by
  intro c _
  change typeB 0b101111#6 0b00000#5 ra imm &&& typeB 63#6 31#5 0#5 0#16 = _
  simp only [typeB_and, BitVec.and_zero]
  rfl

theorem bnei (ra : RegNum) (imm : Imm16) : Statement (.bnei ra imm) := by
  intro c _
  change typeB 0b101111#6 0b00001#5 ra imm &&& typeB 63#6 31#5 0#5 0#16 = _
  simp only [typeB_and, BitVec.and_zero]
  rfl

theorem blti (ra : RegNum) (imm : Imm16) : Statement (.blti ra imm) := by
  intro c _
  change typeB 0b101111#6 0b00010#5 ra imm &&& typeB 63#6 31#5 0#5 0#16 = _
  simp only [typeB_and, BitVec.and_zero]
  rfl

theorem blei (ra : RegNum) (imm : Imm16) : Statement (.blei ra imm) := by
  intro c _
  change typeB 0b101111#6 0b00011#5 ra imm &&& typeB 63#6 31#5 0#5 0#16 = _
  simp only [typeB_and, BitVec.and_zero]
  rfl

theorem bgti (ra : RegNum) (imm : Imm16) : Statement (.bgti ra imm) := by
  intro c _
  change typeB 0b101111#6 0b00100#5 ra imm &&& typeB 63#6 31#5 0#5 0#16 = _
  simp only [typeB_and, BitVec.and_zero]
  rfl

theorem bgei (ra : RegNum) (imm : Imm16) : Statement (.bgei ra imm) := by
  intro c _
  change typeB 0b101111#6 0b00101#5 ra imm &&& typeB 63#6 31#5 0#5 0#16 = _
  simp only [typeB_and, BitVec.and_zero]
  rfl

theorem beqid (ra : RegNum) (imm : Imm16) : Statement (.beqid ra imm) := by
  intro c _
  change typeB 0b101111#6 0b10000#5 ra imm &&& typeB 63#6 31#5 0#5 0#16 = _
  simp only [typeB_and, BitVec.and_zero]
  rfl

theorem bneid (ra : RegNum) (imm : Imm16) : Statement (.bneid ra imm) := by
  intro c _
  change typeB 0b101111#6 0b10001#5 ra imm &&& typeB 63#6 31#5 0#5 0#16 = _
  simp only [typeB_and, BitVec.and_zero]
  rfl

theorem bltid (ra : RegNum) (imm : Imm16) : Statement (.bltid ra imm) := by
  intro c _
  change typeB 0b101111#6 0b10010#5 ra imm &&& typeB 63#6 31#5 0#5 0#16 = _
  simp only [typeB_and, BitVec.and_zero]
  rfl

theorem bleid (ra : RegNum) (imm : Imm16) : Statement (.bleid ra imm) := by
  intro c _
  change typeB 0b101111#6 0b10011#5 ra imm &&& typeB 63#6 31#5 0#5 0#16 = _
  simp only [typeB_and, BitVec.and_zero]
  rfl

theorem bgtid (ra : RegNum) (imm : Imm16) : Statement (.bgtid ra imm) := by
  intro c _
  change typeB 0b101111#6 0b10100#5 ra imm &&& typeB 63#6 31#5 0#5 0#16 = _
  simp only [typeB_and, BitVec.and_zero]
  rfl

theorem bgeid (ra : RegNum) (imm : Imm16) : Statement (.bgeid ra imm) := by
  intro c _
  change typeB 0b101111#6 0b10101#5 ra imm &&& typeB 63#6 31#5 0#5 0#16 = _
  simp only [typeB_and, BitVec.and_zero]
  rfl

theorem lbu (rd ra rb : RegNum) : Statement (.lbu rd ra rb) := by
  intro c _
  change typeA 0b110000#6 rd ra rb 0x000#11 &&& typeA 63#6 0#5 0#5 0#5 2047#11 = _
  simp only [typeA_and, BitVec.and_zero]
  rfl

theorem lhu (rd ra rb : RegNum) : Statement (.lhu rd ra rb) := by
  intro c _
  change typeA 0b110001#6 rd ra rb 0x000#11 &&& typeA 63#6 0#5 0#5 0#5 2047#11 = _
  simp only [typeA_and, BitVec.and_zero]
  rfl

theorem lw (rd ra rb : RegNum) : Statement (.lw rd ra rb) := by
  intro c _
  change typeA 0b110010#6 rd ra rb 0x000#11 &&& typeA 63#6 0#5 0#5 0#5 2047#11 = _
  simp only [typeA_and, BitVec.and_zero]
  rfl

theorem sb (rd ra rb : RegNum) : Statement (.sb rd ra rb) := by
  intro c _
  change typeA 0b110100#6 rd ra rb 0x000#11 &&& typeA 63#6 0#5 0#5 0#5 2047#11 = _
  simp only [typeA_and, BitVec.and_zero]
  rfl

theorem sh (rd ra rb : RegNum) : Statement (.sh rd ra rb) := by
  intro c _
  change typeA 0b110101#6 rd ra rb 0x000#11 &&& typeA 63#6 0#5 0#5 0#5 2047#11 = _
  simp only [typeA_and, BitVec.and_zero]
  rfl

theorem sw (rd ra rb : RegNum) : Statement (.sw rd ra rb) := by
  intro c _
  change typeA 0b110110#6 rd ra rb 0x000#11 &&& typeA 63#6 0#5 0#5 0#5 2047#11 = _
  simp only [typeA_and, BitVec.and_zero]
  rfl

theorem lbui (rd ra : RegNum) (imm : Imm16) : Statement (.lbui rd ra imm) := by
  intro c _
  change typeB 0b111000#6 rd ra imm &&& typeB 63#6 0#5 0#5 0#16 = _
  simp only [typeB_and, BitVec.and_zero]
  rfl

theorem lhui (rd ra : RegNum) (imm : Imm16) : Statement (.lhui rd ra imm) := by
  intro c _
  change typeB 0b111001#6 rd ra imm &&& typeB 63#6 0#5 0#5 0#16 = _
  simp only [typeB_and, BitVec.and_zero]
  rfl

theorem lwi (rd ra : RegNum) (imm : Imm16) : Statement (.lwi rd ra imm) := by
  intro c _
  change typeB 0b111010#6 rd ra imm &&& typeB 63#6 0#5 0#5 0#16 = _
  simp only [typeB_and, BitVec.and_zero]
  rfl

theorem sbi (rd ra : RegNum) (imm : Imm16) : Statement (.sbi rd ra imm) := by
  intro c _
  change typeB 0b111100#6 rd ra imm &&& typeB 63#6 0#5 0#5 0#16 = _
  simp only [typeB_and, BitVec.and_zero]
  rfl

theorem shi (rd ra : RegNum) (imm : Imm16) : Statement (.shi rd ra imm) := by
  intro c _
  change typeB 0b111101#6 rd ra imm &&& typeB 63#6 0#5 0#5 0#16 = _
  simp only [typeB_and, BitVec.and_zero]
  rfl

theorem swi (rd ra : RegNum) (imm : Imm16) : Statement (.swi rd ra imm) := by
  intro c _
  change typeB 0b111110#6 rd ra imm &&& typeB 63#6 0#5 0#5 0#16 = _
  simp only [typeB_and, BitVec.and_zero]
  rfl

theorem msrset (rd : RegNum) (imm : Imm16) : Statement (.msrset rd imm) := by
  intro c h
  refine (msr_row c 0b10000#5 rd imm h).trans ?_
  simp only [rowMatch]
  split <;> rfl

theorem msrclr (rd : RegNum) (imm : Imm16) : Statement (.msrclr rd imm) := by
  intro c h
  refine (msr_row c 0b10001#5 rd imm h).trans ?_
  simp only [rowMatch]
  split <;> rfl

end Sys2Proof.Laws.RowBits
end

