-- ==== Sys2Proof/Tests/Slice0.lean ====
section
/-! SUPPORT. Tests: ill-formed terms refused, the decoding of words written out from the spec, one or two steps for each
instruction with the values of its rule's example (or of the vector of 95_test_vectors named), reset and stops, and for
every statement with hypotheses a state that meets them. -/

namespace Sys2Proof.Tests.Slice0

open Sys2Proof Sys2Proof.Machine

/-! ### Helpers -/

/-- The reset state with PC, r1, r2, r3 and MSR given. -/
def start (pc r1 r2 r3 msr : Word) : State :=
  { ((State.reset.setReg 1#5 r1).setReg 2#5 r2).setReg 3#5 r3 with pc := pc, msr := Msr.ofWord msr }

/-- The state after the instruction of a word, where there is one. -/
def ran (s : State) (w : Word) : Option State :=
  match decodeWord s.cfg w with
  | .ok i =>
    match exec i s with
    | .next t => some t
    | .fault _ => none
    | .refused _ => none
  | .error _ => none

/-- r3, MSR as a word and PC afterwards. -/
def gives (o : Option State) (r3 msr pc : Word) : Bool :=
  o.any (fun t => t.reg 3#5 == r3 && t.msr.toWord == msr && t.pc == pc)

/-- PC and pending transfer afterwards. -/
def goes (o : Option State) (pc : Word) (ds : Option Delayed) : Bool := o.any (fun t => t.pc == pc && t.ds == ds)

/-- A word of memory afterwards. -/
def holds (o : Option State) (a : Nat) (v : Word) : Bool := o.any (fun t => Memory.readWord t.mem a == v)

def withMsr (s : State) (msr : Word) : State := { s with msr := Msr.ofWord msr }
def withWord (s : State) (a : Nat) (v : Word) : State := { s with mem := Memory.writeSize s.mem .word a v }
def locked (hi : Imm16) : State := { start 0x100 0 0 0 0 with imm := some hi }
def slot (act : SlotMsr) : State := { start 0x204 0 0 0 0 with ds := some ⟨0x340, act⟩ }
def queued (ch : Channel) (q : List FslItem) : State :=
  { start 0x100 0 0 0 0 with inQ := State.reset.inQ.set ch.toNat q }
def full (ch : Channel) : State :=
  { start 0x100 0 0 0 0 with outQ := State.reset.outQ.set ch.toNat (List.replicate 16 ⟨0, false⟩) }

/-! ### Ill-formed terms (30_encoding R119) -/

/-- `muli` with rA = 16 or 17 has no word where the printed `msrset` and `msrclr` exist, and has one where they do not. -/
theorem test_wf_muli : WellFormed Config.full (.muli 3#5 16#5 3#16) = false ∧
    WellFormed Config.full (.muli 3#5 17#5 3#16) = false ∧ WellFormed Config.full (.muli 3#5 18#5 3#16) = true ∧
    WellFormed { Config.full with useMsrInstr := false } (.muli 3#5 16#5 3#16) = true := by decide

/-- `msrset` and `msrclr` have no word without `C_USE_MSR_INSTR`, and 15 immediate bits in the later tools' encoding. -/
theorem test_wf_msr : WellFormed { Config.full with useMsrInstr := false } (.msrset 3#5 2#16) = false ∧
    WellFormed { Config.full with msrEncoding := .gnu } (.msrclr 3#5 0x8000#16) = false ∧
    WellFormed { Config.full with msrEncoding := .gnu } (.msrclr 3#5 0x7FFF#16) = true := by decide

/-! ### Decoding: the words of the rules' examples -/

/-- Arithmetic register forms (R141 to R150, R159 to R162). -/
theorem test_decode_arithmetic_register :
    decodeWord Config.full 0x00611000#32 = .ok (.add 3#5 1#5 2#5) ∧
    decodeWord Config.full 0x04611000#32 = .ok (.rsub 3#5 1#5 2#5) ∧
    decodeWord Config.full 0x08611000#32 = .ok (.addc 3#5 1#5 2#5) ∧
    decodeWord Config.full 0x0C611000#32 = .ok (.rsubc 3#5 1#5 2#5) ∧
    decodeWord Config.full 0x10611000#32 = .ok (.addk 3#5 1#5 2#5) ∧
    decodeWord Config.full 0x14611000#32 = .ok (.rsubk 3#5 1#5 2#5) ∧
    decodeWord Config.full 0x18611000#32 = .ok (.addkc 3#5 1#5 2#5) ∧
    decodeWord Config.full 0x1C611000#32 = .ok (.rsubkc 3#5 1#5 2#5) ∧
    decodeWord Config.full 0x14611001#32 = .ok (.cmp 3#5 1#5 2#5) ∧
    decodeWord Config.full 0x14611003#32 = .ok (.cmpu 3#5 1#5 2#5) ∧
    decodeWord Config.full 0x40611000#32 = .ok (.mul 3#5 1#5 2#5) ∧
    decodeWord Config.full 0x48611000#32 = .ok (.idiv 3#5 1#5 2#5) ∧
    decodeWord Config.full 0x48611001#32 = .ok (.idivu 3#5 1#5 2#5) := by decide

/-- Arithmetic immediate forms (R151 to R158, R160). -/
theorem test_decode_arithmetic_immediate :
    decodeWord Config.full 0x2061FFFF#32 = .ok (.addi 3#5 1#5 0xFFFF#16) ∧
    decodeWord Config.full 0x24610064#32 = .ok (.rsubi 3#5 1#5 100#16) ∧
    decodeWord Config.full 0x28610000#32 = .ok (.addic 3#5 1#5 0#16) ∧
    decodeWord Config.full 0x2C610000#32 = .ok (.rsubic 3#5 1#5 0#16) ∧
    decodeWord Config.full 0x30610010#32 = .ok (.addik 3#5 1#5 16#16) ∧
    decodeWord Config.full 0x34610000#32 = .ok (.rsubik 3#5 1#5 0#16) ∧
    decodeWord Config.full 0x38610001#32 = .ok (.addikc 3#5 1#5 1#16) ∧
    decodeWord Config.full 0x3C61000A#32 = .ok (.rsubikc 3#5 1#5 10#16) ∧
    decodeWord Config.full 0x6061FFFD#32 = .ok (.muli 3#5 1#5 0xFFFD#16) := by decide

/-- Logical instructions and shifts (R181 to R200). -/
theorem test_decode_logical :
    decodeWord Config.full 0x80611000#32 = .ok (.or 3#5 1#5 2#5) ∧
    decodeWord Config.full 0x84611000#32 = .ok (.and 3#5 1#5 2#5) ∧
    decodeWord Config.full 0x88611000#32 = .ok (.xor 3#5 1#5 2#5) ∧
    decodeWord Config.full 0x8C611000#32 = .ok (.andn 3#5 1#5 2#5) ∧
    decodeWord Config.full 0xA0618000#32 = .ok (.ori 3#5 1#5 0x8000#16) ∧
    decodeWord Config.full 0xA46100FF#32 = .ok (.andi 3#5 1#5 0xFF#16) ∧
    decodeWord Config.full 0xA861FFFF#32 = .ok (.xori 3#5 1#5 0xFFFF#16) ∧
    decodeWord Config.full 0xAC6100FF#32 = .ok (.andni 3#5 1#5 0xFF#16) ∧
    decodeWord Config.full 0x90610060#32 = .ok (.sext8 3#5 1#5) ∧
    decodeWord Config.full 0x90610061#32 = .ok (.sext16 3#5 1#5) ∧
    decodeWord Config.full 0x90610001#32 = .ok (.sra 3#5 1#5) ∧
    decodeWord Config.full 0x90610021#32 = .ok (.src 3#5 1#5) ∧
    decodeWord Config.full 0x90610041#32 = .ok (.srl 3#5 1#5) ∧
    decodeWord Config.full 0x44611000#32 = .ok (.bsrl 3#5 1#5 2#5) ∧
    decodeWord Config.full 0x44611200#32 = .ok (.bsra 3#5 1#5 2#5) ∧
    decodeWord Config.full 0x44611400#32 = .ok (.bsll 3#5 1#5 2#5) ∧
    decodeWord Config.full 0x64610004#32 = .ok (.bsrli 3#5 1#5 4#5) ∧
    decodeWord Config.full 0x64610204#32 = .ok (.bsrai 3#5 1#5 4#5) ∧
    decodeWord Config.full 0x64610404#32 = .ok (.bslli 3#5 1#5 4#5) := by decide

/-- Unconditional branches and returns (R222 to R227, R243 to R248, R261, R315 to R318). -/
theorem test_decode_jumps :
    decodeWord Config.full 0x98001000#32 = .ok (.br 2#5) ∧
    decodeWord Config.full 0x98101000#32 = .ok (.brd 2#5) ∧
    decodeWord Config.full 0x99F41000#32 = .ok (.brld 15#5 2#5) ∧
    decodeWord Config.full 0x98081000#32 = .ok (.bra 2#5) ∧
    decodeWord Config.full 0x98181000#32 = .ok (.brad 2#5) ∧
    decodeWord Config.full 0x99FC1000#32 = .ok (.brald 15#5 2#5) ∧
    decodeWord Config.full 0x9A0C1000#32 = .ok (.brk 16#5 2#5) ∧
    decodeWord Config.full 0xB8000008#32 = .ok (.bri 8#16) ∧
    decodeWord Config.full 0xB8100008#32 = .ok (.brid 8#16) ∧
    decodeWord Config.full 0xB9F40040#32 = .ok (.brlid 15#5 0x40#16) ∧
    decodeWord Config.full 0xB8080100#32 = .ok (.brai 0x100#16) ∧
    decodeWord Config.full 0xB8180100#32 = .ok (.braid 0x100#16) ∧
    decodeWord Config.full 0xB9FC0200#32 = .ok (.bralid 15#5 0x200#16) ∧
    decodeWord Config.full 0xBA0C0018#32 = .ok (.brki 16#5 0x18#16) ∧
    decodeWord Config.full 0xB60F0008#32 = .ok (.rtsd 15#5 8#16) ∧
    decodeWord Config.full 0xB62E0000#32 = .ok (.rtid 14#5 0#16) ∧
    decodeWord Config.full 0xB6500000#32 = .ok (.rtbd 16#5 0#16) := by decide

/-- Conditional branches (R231 to R242, R249 to R260). -/
theorem test_decode_conditional :
    decodeWord Config.full 0x9C011000#32 = .ok (.beq 1#5 2#5) ∧
    decodeWord Config.full 0x9C211000#32 = .ok (.bne 1#5 2#5) ∧
    decodeWord Config.full 0x9C411000#32 = .ok (.blt 1#5 2#5) ∧
    decodeWord Config.full 0x9C611000#32 = .ok (.ble 1#5 2#5) ∧
    decodeWord Config.full 0x9C811000#32 = .ok (.bgt 1#5 2#5) ∧
    decodeWord Config.full 0x9CA11000#32 = .ok (.bge 1#5 2#5) ∧
    decodeWord Config.full 0x9E011000#32 = .ok (.beqd 1#5 2#5) ∧
    decodeWord Config.full 0x9E211000#32 = .ok (.bned 1#5 2#5) ∧
    decodeWord Config.full 0x9E411000#32 = .ok (.bltd 1#5 2#5) ∧
    decodeWord Config.full 0x9E611000#32 = .ok (.bled 1#5 2#5) ∧
    decodeWord Config.full 0x9E811000#32 = .ok (.bgtd 1#5 2#5) ∧
    decodeWord Config.full 0x9EA11000#32 = .ok (.bged 1#5 2#5) ∧
    decodeWord Config.full 0xBC010008#32 = .ok (.beqi 1#5 8#16) ∧
    decodeWord Config.full 0xBC21FFF8#32 = .ok (.bnei 1#5 0xFFF8#16) ∧
    decodeWord Config.full 0xBC410010#32 = .ok (.blti 1#5 16#16) ∧
    decodeWord Config.full 0xBC610010#32 = .ok (.blei 1#5 16#16) ∧
    decodeWord Config.full 0xBC810010#32 = .ok (.bgti 1#5 16#16) ∧
    decodeWord Config.full 0xBCA10010#32 = .ok (.bgei 1#5 16#16) ∧
    decodeWord Config.full 0xBE010008#32 = .ok (.beqid 1#5 8#16) ∧
    decodeWord Config.full 0xBE21FFF8#32 = .ok (.bneid 1#5 0xFFF8#16) ∧
    decodeWord Config.full 0xBE410010#32 = .ok (.bltid 1#5 16#16) ∧
    decodeWord Config.full 0xBE610010#32 = .ok (.bleid 1#5 16#16) ∧
    decodeWord Config.full 0xBE810010#32 = .ok (.bgtid 1#5 16#16) ∧
    decodeWord Config.full 0xBEA10010#32 = .ok (.bgeid 1#5 16#16) := by decide

/-- Loads and stores (R282 to R293). -/
theorem test_decode_load_store :
    decodeWord Config.full 0xC0611000#32 = .ok (.lbu 3#5 1#5 2#5) ∧
    decodeWord Config.full 0xC4611000#32 = .ok (.lhu 3#5 1#5 2#5) ∧
    decodeWord Config.full 0xC8611000#32 = .ok (.lw 3#5 1#5 2#5) ∧
    decodeWord Config.full 0xD0611000#32 = .ok (.sb 3#5 1#5 2#5) ∧
    decodeWord Config.full 0xD4611000#32 = .ok (.sh 3#5 1#5 2#5) ∧
    decodeWord Config.full 0xD8611000#32 = .ok (.sw 3#5 1#5 2#5) ∧
    decodeWord Config.full 0xE061FFFF#32 = .ok (.lbui 3#5 1#5 0xFFFF#16) ∧
    decodeWord Config.full 0xE4610002#32 = .ok (.lhui 3#5 1#5 2#16) ∧
    decodeWord Config.full 0xE8610004#32 = .ok (.lwi 3#5 1#5 4#16) ∧
    decodeWord Config.full 0xF0610003#32 = .ok (.sbi 3#5 1#5 3#16) ∧
    decodeWord Config.full 0xF4610000#32 = .ok (.shi 3#5 1#5 0#16) ∧
    decodeWord Config.full 0xF861FFFC#32 = .ok (.swi 3#5 1#5 0xFFFC#16) := by decide

/-- Special instructions (R310 to R314, R319, R320). -/
theorem test_decode_special :
    decodeWord Config.full 0xB0001234#32 = .ok (.imm 0x1234#16) ∧
    decodeWord Config.full 0x94608001#32 = .ok (.mfs 3#5 .rmsr) ∧
    decodeWord Config.full 0x94608000#32 = .ok (.mfs 3#5 .rpc) ∧
    decodeWord Config.full 0x9401C001#32 = .ok (.mts 1#5 .rmsr) ∧
    decodeWord Config.full 0x60700002#32 = .ok (.msrset 3#5 2#16) ∧
    decodeWord Config.full 0x60710002#32 = .ok (.msrclr 3#5 2#16) ∧
    decodeWord Config.full 0x90211068#32 = .ok (.wic 1#5 2#5) ∧
    decodeWord Config.full 0x90211064#32 = .ok (.wdc 1#5 2#5) := by decide

/-- FSL instructions (R341 to R348). -/
theorem test_decode_fsl :
    decodeWord Config.full 0x6C600000#32 = .ok (.get 3#5 0#3) ∧
    decodeWord Config.full 0x6C604001#32 = .ok (.nget 3#5 1#3) ∧
    decodeWord Config.full 0x6C602002#32 = .ok (.cget 3#5 2#3) ∧
    decodeWord Config.full 0x6C606007#32 = .ok (.ncget 3#5 7#3) ∧
    decodeWord Config.full 0x6C018000#32 = .ok (.put 1#5 0#3) ∧
    decodeWord Config.full 0x6C01C001#32 = .ok (.nput 1#5 1#3) ∧
    decodeWord Config.full 0x6C01A002#32 = .ok (.cput 1#5 2#3) ∧
    decodeWord Config.full 0x6C01E003#32 = .ok (.ncput 1#5 3#3) := by decide

/-- Words that are no instruction: unused opcodes, unused function bits, register fields that must be zero (R120). -/
theorem test_decode_rejects :
    decodeWord Config.full 0x4C000000#32 = .error .unassignedOpcode ∧
    decodeWord Config.full 0xFFFFFFFF#32 = .error .unassignedOpcode ∧
    decodeWord Config.full 0x00611001#32 = .error .unassignedFunction ∧
    decodeWord Config.full 0x98201000#32 = .error .unassignedKind ∧
    decodeWord Config.full 0x90411068#32 = .error .cacheRegisterMismatch ∧
    decodeBytes Config.full [0x00, 0x61, 0x10] = .error .truncated := by decide

/-- `muli r3, r16, 3` where `C_USE_MSR_INSTR` = 0 (95 A48), and the words of the later tools' encoding (R119). -/
theorem test_decode_msr_encodings :
    decodeWord { Config.full with useMsrInstr := false } 0x60700003#32 = .ok (.muli 3#5 16#5 3#16) ∧
    decodeWord { Config.full with msrEncoding := .gnu } 0x94700002#32 = .ok (.msrset 3#5 2#16) ∧
    decodeWord { Config.full with msrEncoding := .gnu } 0x94710002#32 = .ok (.msrclr 3#5 2#16) := by decide

/-- The table's numbering, and bytes in memory order (R100, 20_memory R63). -/
theorem test_decode_table_word : decodeTableWord 32 0x2061FFFF = some (.addi 3#5 1#5 0xFFFF#16) ∧
    decodeBytes Config.full [0x20, 0x61, 0xFF, 0xFF, 0xAA] = .ok (.addi 3#5 1#5 0xFFFF#16, [0xAA]) := by decide

/-! ### One step each -/

/-- R141. -/
theorem test_add : gives (ran (start 0x100 0xFFFFFFFF 1 0x55 0) 0x00611000) 0 0x80000004 0x104 := by decide

/-- R145. -/
theorem test_rsub : gives (ran (start 0x100 10 3 0x55 0x80000004) 0x04611000) 0xFFFFFFF9 0 0x104 := by decide

/-- 95 A12. -/
theorem test_rsub_no_borrow : gives (ran (start 0x100 0 0 0x55 0) 0x04611000) 0 0x80000004 0x104 := by decide

/-- R142. -/
theorem test_addc : gives (ran (start 0x100 5 6 0x55 0x80000004) 0x08611000) 12 0 0x104 := by decide

/-- R146. -/
theorem test_rsubc : gives (ran (start 0x100 3 10 0x55 0) 0x0C611000) 6 0x80000004 0x104 := by decide

/-- 95 A18. -/
theorem test_rsubc_borrow : gives (ran (start 0x100 5 5 0x55 0) 0x0C611000) 0xFFFFFFFF 0 0x104 := by decide

/-- R143. -/
theorem test_addk : gives (ran (start 0x100 0xFFFFFFFF 1 0x55 0) 0x10611000) 0 0 0x104 := by decide

/-- R147. -/
theorem test_rsubk : gives (ran (start 0x100 10 3 0x55 0x80000004) 0x14611000) 0xFFFFFFF9 0x80000004 0x104 := by decide

/-- R144. -/
theorem test_addkc : gives (ran (start 0x100 1 2 0x55 0x80000004) 0x18611000) 4 0x80000004 0x104 := by decide

/-- R148. -/
theorem test_rsubkc : gives (ran (start 0x100 1 5 0x55 0) 0x1C611000) 3 0 0x104 := by decide

/-- R149. -/
theorem test_cmp : gives (ran (start 0x100 5 3 0x55 0) 0x14611001) 0xFFFFFFFE 0 0x104 := by decide

/-- 95 A27. -/
theorem test_cmp_signed_overflow :
    gives (ran (start 0x100 0x7FFFFFFF 0x80000000 0x55 0) 0x14611001) 0x80000001 0 0x104 := by decide

/-- R150. -/
theorem test_cmpu : gives (ran (start 0x100 0xFFFFFFFF 0 0x55 0) 0x14611003) 0x80000001 0 0x104 := by decide

/-- R151. -/
theorem test_addi : gives (ran (start 0x100 5 0 0x55 0) 0x2061FFFF) 4 0x80000004 0x104 := by decide

/-- R155. -/
theorem test_rsubi : gives (ran (start 0x100 1 0 0x55 0) 0x24610064) 99 0x80000004 0x104 := by decide

/-- R152. -/
theorem test_addic : gives (ran (start 0x100 7 0 0x55 0x80000004) 0x28610000) 8 0 0x104 := by decide

/-- R156. -/
theorem test_rsubic : gives (ran (start 0x100 0 0 0x55 0) 0x2C610000) 0xFFFFFFFF 0 0x104 := by decide

/-- R153. -/
theorem test_addik : gives (ran (start 0x100 0xFFFFFFF8 0 0x55 0) 0x30610010) 8 0 0x104 := by decide

/-- R157. -/
theorem test_rsubik : gives (ran (start 0x100 1 0 0x55 0x80000004) 0x34610000) 0xFFFFFFFF 0x80000004 0x104 := by decide

/-- R154. -/
theorem test_addikc : gives (ran (start 0x100 1 0 0x55 0x80000004) 0x38610001) 3 0x80000004 0x104 := by decide

/-- R158. -/
theorem test_rsubikc : gives (ran (start 0x100 4 0 0x55 0x80000004) 0x3C61000A) 6 0x80000004 0x104 := by decide

/-- R159. -/
theorem test_mul : gives (ran (start 0x100 0xFFFFFFFF 2 0x55 0) 0x40611000) 0xFFFFFFFE 0 0x104 := by decide

/-- 95 A45. -/
theorem test_mul_low_word :
    gives (ran (start 0x100 0x12345678 0x9ABCDEF0 0x55 0) 0x40611000) 0x242D2080 0 0x104 := by decide

/-- R160. -/
theorem test_muli : gives (ran (start 0x100 7 0 0x55 0) 0x6061FFFD) 0xFFFFFFEB 0 0x104 := by decide

/-- R161. -/
theorem test_idiv : gives (ran (start 0x100 2 0xFFFFFFF9 0x55 0) 0x48611000) 0xFFFFFFFD 0 0x104 := by decide

/-- R161. -/
theorem test_idiv_by_zero : gives (ran (start 0x100 0 10 0x55 0) 0x48611000) 0 0x40 0x104 := by decide

/-- R162. -/
theorem test_idivu : gives (ran (start 0x100 2 0xFFFFFFF9 0x55 0) 0x48611001) 0x7FFFFFFC 0 0x104 := by decide

/-- R181. -/
theorem test_or : gives (ran (start 0x100 0x0F0F0000 0x00FF00FF 0x55 0) 0x80611000) 0x0FFF00FF 0 0x104 := by decide

/-- R182. -/
theorem test_and : gives (ran (start 0x100 0x0F0F0000 0x00FF00FF 0x55 0) 0x84611000) 0x000F0000 0 0x104 := by decide

/-- R183. -/
theorem test_xor : gives (ran (start 0x100 0x0F0F0000 0x00FF00FF 0x55 0) 0x88611000) 0x0FF000FF 0 0x104 := by decide

/-- R184. -/
theorem test_andn : gives (ran (start 0x100 0xFFFF0000 0x0FF00FF0 0x55 0) 0x8C611000) 0xF00F0000 0 0x104 := by decide

/-- R185. -/
theorem test_ori : gives (ran (start 0x100 1 0 0x55 0) 0xA0618000) 0xFFFF8001 0 0x104 := by decide

/-- R186. -/
theorem test_andi : gives (ran (start 0x100 0x12345678 0 0x55 0) 0xA461FF00) 0x12345600 0 0x104 := by decide

/-- R199. -/
theorem test_xori : gives (ran (start 0x100 0x12345678 0 0x55 0) 0xA861FFFF) 0xEDCBA987 0 0x104 := by decide

/-- R200. -/
theorem test_andni : gives (ran (start 0x100 0x12345678 0 0x55 0) 0xAC6100FF) 0x12345600 0 0x104 := by decide

/-- R187. -/
theorem test_sext8 : gives (ran (start 0x100 0x12345680 0 0x55 0) 0x90610060) 0xFFFFFF80 0 0x104 := by decide

/-- R188. -/
theorem test_sext16 : gives (ran (start 0x100 0x12348000 0 0x55 0) 0x90610061) 0xFFFF8000 0 0x104 := by decide

/-- R189. -/
theorem test_sra : gives (ran (start 0x100 0x80000001 0 0x55 0) 0x90610001) 0xC0000000 0x80000004 0x104 := by decide

/-- R190. -/
theorem test_src : gives (ran (start 0x100 2 0 0x55 0x80000004) 0x90610021) 0x80000001 0 0x104 := by decide

/-- R191. -/
theorem test_srl : gives (ran (start 0x100 0x80000001 0 0x55 0) 0x90610041) 0x40000000 0x80000004 0x104 := by decide

/-- R193. -/
theorem test_bsrl : gives (ran (start 0x100 0x80000000 0xFFFFFFE4 0x55 0) 0x44611000) 0x08000000 0 0x104 := by decide

/-- R194. -/
theorem test_bsra : gives (ran (start 0x100 0x80000000 31 0x55 0) 0x44611200) 0xFFFFFFFF 0 0x104 := by decide

/-- R194. -/
theorem test_bsra_amount_of_32 :
    gives (ran (start 0x100 0x80000000 32 0x55 0) 0x44611200) 0x80000000 0 0x104 := by decide

/-- R195. -/
theorem test_bsll : gives (ran (start 0x100 0x12345678 8 0x55 0) 0x44611400) 0x34567800 0 0x104 := by decide

/-- R196. -/
theorem test_bsrli : gives (ran (start 0x100 0x80000000 0 0x55 0) 0x64610004) 0x08000000 0 0x104 := by decide

/-- R197. -/
theorem test_bsrai : gives (ran (start 0x100 0x80000000 0 0x55 0) 0x64610204) 0xF8000000 0 0x104 := by decide

/-- R198. -/
theorem test_bslli : gives (ran (start 0x100 0x12345678 0 0x55 0) 0x64610404) 0x23456780 0 0x104 := by decide

/-- R222. -/
theorem test_br : goes (ran (start 0x100 0 0x20 0 0) 0x98001000) 0x120 none := by decide

/-- R224. -/
theorem test_brd : goes (ran (start 0x100 0 0x20 0 0) 0x98101000) 0x104 (some ⟨0x120, .none⟩) := by decide

/-- R223. -/
theorem test_bra : goes (ran (start 0x100 0 0x2000 0 0) 0x98081000) 0x2000 none := by decide

/-- R225. -/
theorem test_brad : goes (ran (start 0x100 0 0x2000 0 0) 0x98181000) 0x104 (some ⟨0x2000, .none⟩) := by decide

/-- R243. -/
theorem test_bri : goes (ran (start 0x100 0 0 0 0) 0xB8000008) 0x108 none := by decide

/-- R245. -/
theorem test_brid : goes (ran (start 0x100 0 0 0 0) 0xB8100008) 0x104 (some ⟨0x108, .none⟩) := by decide

/-- R244. -/
theorem test_brai : goes (ran (start 0x40 0 0 0 0) 0xB8080100) 0x100 none := by decide

/-- R246. -/
theorem test_braid : goes (ran (start 0x40 0 0 0 0) 0xB8180100) 0x44 (some ⟨0x100, .none⟩) := by decide

/-- R231. -/
theorem test_beq : goes (ran (start 0x100 0 0x20 0 0) 0x9C011000) 0x120 none := by decide

/-- R232. -/
theorem test_bne : goes (ran (start 0x100 5 0x20 0 0) 0x9C211000) 0x120 none := by decide

/-- R233. -/
theorem test_blt : goes (ran (start 0x100 0x80000000 0x20 0 0) 0x9C411000) 0x120 none := by decide

/-- R234. -/
theorem test_ble : goes (ran (start 0x100 0 0x20 0 0) 0x9C611000) 0x120 none := by decide

/-- R235. -/
theorem test_bgt : goes (ran (start 0x100 0x7FFFFFFF 0x20 0 0) 0x9C811000) 0x120 none := by decide

/-- R236. -/
theorem test_bge : goes (ran (start 0x100 0xFFFFFFFF 0x20 0 0) 0x9CA11000) 0x104 none := by decide

/-- R237. -/
theorem test_beqd : goes (ran (start 0x100 0 0x20 0 0) 0x9E011000) 0x104 (some ⟨0x120, .none⟩) := by decide

/-- R238. -/
theorem test_bned : goes (ran (start 0x100 1 0x20 0 0) 0x9E211000) 0x104 (some ⟨0x120, .none⟩) := by decide

/-- R239. -/
theorem test_bltd : goes (ran (start 0x100 0xFFFFFFFF 0x20 0 0) 0x9E411000) 0x104 (some ⟨0x120, .none⟩) := by decide

/-- R240. -/
theorem test_bled : goes (ran (start 0x100 0 0x20 0 0) 0x9E611000) 0x104 (some ⟨0x120, .none⟩) := by decide

/-- R241. -/
theorem test_bgtd : goes (ran (start 0x100 1 0x20 0 0) 0x9E811000) 0x104 (some ⟨0x120, .none⟩) := by decide

/-- R242. -/
theorem test_bged : goes (ran (start 0x100 0 0x20 0 0) 0x9EA11000) 0x104 (some ⟨0x120, .none⟩) := by decide

/-- R249. -/
theorem test_beqi : goes (ran (start 0x100 0 0x20 0 0) 0xBC010008) 0x108 none := by decide

/-- R250. -/
theorem test_bnei : goes (ran (start 0x100 3 0x20 0 0) 0xBC21FFF8) 0xF8 none := by decide

/-- R251. -/
theorem test_blti : goes (ran (start 0x100 0xFFFFFFFE 0x20 0 0) 0xBC410010) 0x110 none := by decide

/-- R252. -/
theorem test_blei : goes (ran (start 0x100 0 0x20 0 0) 0xBC610010) 0x110 none := by decide

/-- R253. -/
theorem test_bgti : goes (ran (start 0x100 0x80000000 0x20 0 0) 0xBC810010) 0x104 none := by decide

/-- R254. -/
theorem test_bgei : goes (ran (start 0x100 0x7FFFFFFF 0x20 0 0) 0xBCA10010) 0x110 none := by decide

/-- R255. -/
theorem test_beqid : goes (ran (start 0x100 0 0x20 0 0) 0xBE010008) 0x104 (some ⟨0x108, .none⟩) := by decide

/-- R256. -/
theorem test_bneid : goes (ran (start 0x100 1 0x20 0 0) 0xBE21FFF8) 0x104 (some ⟨0xF8, .none⟩) := by decide

/-- R257. -/
theorem test_bltid : goes (ran (start 0x100 0x80000000 0x20 0 0) 0xBE410010) 0x104 (some ⟨0x110, .none⟩) := by decide

/-- R258. -/
theorem test_bleid : goes (ran (start 0x100 5 0x20 0 0) 0xBE610010) 0x104 none := by decide

/-- R259. -/
theorem test_bgtid : goes (ran (start 0x100 5 0x20 0 0) 0xBE810010) 0x104 (some ⟨0x110, .none⟩) := by decide

/-- R260. -/
theorem test_bgeid : goes (ran (start 0x100 0 0x20 0 0) 0xBEA10010) 0x104 (some ⟨0x110, .none⟩) := by decide

/-- R226. -/
theorem test_brld :
    (ran (start 0x100 0 0x40 0 0) 0x99F41000).any (fun t =>
      t.reg 15#5 == 0x100#32 && t.pc == 0x104#32 && t.ds == some ⟨0x140, .none⟩) := by decide

/-- R227. -/
theorem test_brald :
    (ran (start 0x100 0 0x2000 0 0) 0x99FC1000).any (fun t =>
      t.reg 15#5 == 0x100#32 && t.pc == 0x104#32 && t.ds == some ⟨0x2000, .none⟩) := by decide

/-- 95 B4. -/
theorem test_brald_link_over_target :
    (ran (start 0x100 0 0x2000 0 0) 0x985C1000).any (fun t =>
      t.reg 2#5 == 0x100#32 && t.ds == some ⟨0x2000, .none⟩) := by decide

/-- R247. -/
theorem test_brlid :
    (ran (start 0x100 0 0 0 0) 0xB9F40040).any (fun t =>
      t.reg 15#5 == 0x100#32 && t.pc == 0x104#32 && t.ds == some ⟨0x140, .none⟩) := by decide

/-- R248. -/
theorem test_bralid :
    (ran (start 0x100 0 0 0 0) 0xB9FC0200).any (fun t =>
      t.reg 15#5 == 0x100#32 && t.pc == 0x104#32 && t.ds == some ⟨0x200, .none⟩) := by decide

/-- R315. -/
theorem test_brk :
    (ran (start 0x200 0 0x18 0 0) 0x9A0C1000).any (fun t =>
      t.reg 16#5 == 0x200#32 && t.msr.toWord == 8#32 && t.pc == 0x18#32) := by decide

/-- R316. -/
theorem test_brki :
    (ran (start 0x200 0 0 0 0) 0xBA0C0018).any (fun t =>
      t.reg 16#5 == 0x200#32 && t.msr.toWord == 8#32 && t.pc == 0x18#32) := by decide

/-- R261. -/
theorem test_rtsd :
    goes (ran ((start 0x200 0 0 0 0).setReg 15#5 0x100) 0xB60F0008) 0x204 (some ⟨0x108, .none⟩) := by decide

/-- R317. -/
theorem test_rtid :
    goes (ran ((start 0x200 0 0 0 0).setReg 14#5 0x340) 0xB62E0000) 0x204 (some ⟨0x340, .setIE⟩) := by decide

/-- R317. -/
theorem test_rtid_end_of_slot : gives (ran (slot .setIE) 0x80000000) 0 2 0x340 := by decide

/-- R318. -/
theorem test_rtbd :
    goes (ran ((start 0x200 0 0 0 8).setReg 16#5 0x340) 0xB6500000) 0x204 (some ⟨0x340, .clearBIP⟩) := by decide

/-- R318. -/
theorem test_rtbd_end_of_slot : gives (ran (withMsr (slot .clearBIP) 8) 0x80000000) 0 0 0x340 := by decide

/-- R282. -/
theorem test_lbu :
    gives (ran (withWord (start 0x100 0x1000 3 0 0) 0x1000 0x11223344) 0xC0611000) 0x44 0 0x104 := by decide

/-- R283. -/
theorem test_lhu :
    gives (ran (withWord (start 0x100 0x1000 3 0 0) 0x1000 0x11223344) 0xC4611000) 0x3344 0 0x104 := by decide

/-- R284. -/
theorem test_lw :
    gives (ran (withWord (start 0x100 0x1000 2 0 0) 0x1000 0x11223344) 0xC8611000) 0x11223344 0 0x104 := by decide

/-- R288. -/
theorem test_lbui :
    gives (ran (withWord (start 0x100 0x1001 0 0 0) 0x1000 0x11223344) 0xE061FFFF) 0x11 0 0x104 := by decide

/-- R289. -/
theorem test_lhui :
    gives (ran (withWord (start 0x100 0x1000 0 0 0) 0x1000 0x11223344) 0xE4610002) 0x3344 0 0x104 := by decide

/-- R290. -/
theorem test_lwi :
    gives (ran (withWord (start 0x100 0xFFC 0 0 0) 0x1000 0x11223344) 0xE8610004) 0x11223344 0 0x104 := by decide

/-- R285. -/
theorem test_sb :
    holds (ran (withWord (start 0x100 0x1000 1 0xAABBCCDD 0) 0x1000 0x11223344) 0xD0611000) 0x1000 0x11DD3344 := by decide

/-- R286. -/
theorem test_sh :
    holds (ran (withWord (start 0x100 0x1000 3 0xAABBCCDD 0) 0x1000 0x11223344) 0xD4611000) 0x1000 0x1122CCDD := by decide

/-- R287. -/
theorem test_sw :
    holds (ran (withWord (start 0x100 0x1000 7 0xAABBCCDD 0) 0x1000 0x11223344) 0xD8611000) 0x1004 0xAABBCCDD := by decide

/-- R291. -/
theorem test_sbi :
    holds (ran (withWord (start 0x100 0x1000 0 0xEE 0) 0x1000 0x11223344) 0xF0610003) 0x1000 0x112233EE := by decide

/-- R292. -/
theorem test_shi :
    holds (ran (withWord (start 0x100 0x1001 0 0xAABBCCDD 0) 0x1000 0x11223344) 0xF4610000) 0x1000 0xCCDD3344 := by decide

/-- R293. -/
theorem test_swi :
    holds (ran (withWord (start 0x100 0x2000 0 0xAABBCCDD 0) 0x1000 0x11223344) 0xF861FFFC) 0x1FFC 0xAABBCCDD := by decide

/-- R310. -/
theorem test_imm :
    (ran (start 0x100 0 0 0 0) 0xB0001234).any (fun t => t.imm == some 0x1234#16 && t.pc == 0x104#32) := by decide

/-- R310. -/
theorem test_imm_then_addi : gives (ran (locked 0x1234) 0x20605678) 0x12345678 0 0x104 := by decide

/-- R311. -/
theorem test_mfs_rmsr : gives (ran (start 0x100 0 0 0 6) 0x94608001) 0x80000006 0x80000006 0x104 := by decide

/-- R311. -/
theorem test_mfs_rpc : gives (ran (start 0x120 0 0 0 0) 0x94608000) 0x120 0 0x124 := by decide

/-- R312. -/
theorem test_mts :
    (ran (start 0x100 0xFFFFFFFF 0 0 0) 0x9401C001).any (fun t =>
      t.msr.toWord == 0x800000FF#32 && t.window == some Msr.reset) := by decide

/-- R313. -/
theorem test_msrset : gives (ran (start 0x100 0 0 0x55 0) 0x60700002) 0 2 0x104 := by decide

/-- 70 R466 point 3: `mts` clears MSR 6, then `msrset` of 1 in its window; MSR is 1, whatever rD reads. -/
theorem test_msrset_window :
    ∃ t, exec (.msrset 3#5 1#16) { start 0x100 0 0 0 0 with window := some (Msr.ofWord 6#32) } = .next t ∧
      t.msr.toWord = 1#32 ∧ t.window = some Msr.reset := ⟨_, rfl, by decide, rfl⟩

/-- R314. -/
theorem test_msrclr : gives (ran (start 0x100 0 0 0x55 6) 0x60710002) 0x80000006 0x80000004 0x104 := by decide

/-- R319. -/
theorem test_wic :
    (ran (start 0x100 0x1002 0x80000000 0 0) 0x90211068).any (fun t =>
      t.icache == [(0x400, ⟨0, true, false, 0x80000000⟩)]) := by decide

/-- R320. -/
theorem test_wdc :
    (ran (start 0x100 0x2000 0 0 0) 0x90211064).any (fun t => t.dcache == [(0, ⟨1, false, false, 0⟩)]) := by decide

/-- R341. -/
theorem test_get :
    (ran (queued 0#3 [⟨0xCAFE0001, false⟩]) 0x6C600000).any (fun t =>
      t.reg 3#5 == 0xCAFE0001#32 && t.msr.toWord == 0#32 && t.inQueue 0#3 == []) := by decide

/-- R342. -/
theorem test_nget :
    (ran (queued 1#3 [⟨7, true⟩]) 0x6C604001).any (fun t =>
      t.reg 3#5 == 7#32 && t.msr.toWord == 0x10#32 && t.inQueue 1#3 == []) := by decide

/-- R342. -/
theorem test_nget_empty : (ran (start 0x100 0 0 0 0) 0x6C604001).any (fun t => t.msr.c && t.pc == 0x104#32) := by decide

/-- R343. -/
theorem test_cget :
    (ran (queued 2#3 [⟨0x10, true⟩]) 0x6C602002).any (fun t =>
      t.reg 3#5 == 0x10#32 && t.msr.toWord == 0#32) := by decide

/-- R344. -/
theorem test_ncget :
    (ran (queued 7#3 [⟨5, false⟩]) 0x6C606007).any (fun t => t.reg 3#5 == 5#32 && t.msr.toWord == 0x10#32) := by decide

/-- R345. -/
theorem test_put :
    (ran (start 0x100 0x11 0 0 0) 0x6C018000).any (fun t => t.outQueue 0#3 == [⟨0x11, false⟩]) := by decide

/-- R346. -/
theorem test_nput_full :
    (ran (full 1#3) 0x6C01C001).any (fun t => t.msr.c && t.outQueue 1#3 == (full 1#3).outQueue 1#3) := by decide

/-- R347. -/
theorem test_cput :
    (ran (start 0x100 0xFF 0 0 0) 0x6C01A002).any (fun t => t.outQueue 2#3 == [⟨0xFF, true⟩]) := by decide

/-- R348. -/
theorem test_ncput :
    (ran (start 0x100 9 0 0 4) 0x6C01E003).any (fun t =>
      t.outQueue 3#3 == [⟨9, true⟩] && t.msr.toWord == 0#32) := by decide
/-! ### Reset, steps and stops -/

/-- Reset: canonical memory with nothing listed, PC and MSR 0 (10_state R50, 70 R452). -/
theorem test_reset : Memory.wf State.reset.mem = true ∧ State.reset.mem = [] ∧ State.reset.pc = 0#32 ∧
    State.reset.msr.toWord = 0#32 ∧ Config.valid State.reset.cfg = true := by decide

/-- The reset state fetches and runs a placed `addi r3, r0, 5`. -/
theorem test_first_step :
    step (State.reset.withFetchWord 32 0x20600005) = exec (.addi 3#5 0#5 5#16) (State.reset.withFetchWord 32 0x20600005) := rfl

/-- Bytes lie most significant first (20_memory R62's worked example: 0x11121314). -/
theorem test_byte_order :
    Memory.writeSize [] .word 0 0x11121314 = [(0, 0x11), (1, 0x12), (2, 0x13), (3, 0x14)] := by decide

/-- Writing the value an unlisted byte reads as removes the entry. -/
theorem test_canonical : Memory.write [(5, 7#8)] 5 0#8 = [] := by decide

/-- `mts` with selector 0, a branch in a delay slot, an MSR write in the slot of `rtid`, a misaligned target, `wdc` with DCE
set (93 U7, U8, U9, U4, U10). -/
theorem test_refusals :
    exec (.mts 1#5 .rpc) (start 0 0 0 0 0) = .refused .mtsToPC ∧
    exec (.bri 8#16) (slot .none) = .refused .branchInDelaySlot ∧
    exec (.mts 1#5 .rmsr) (slot .setIE) = .refused .msrWriteInReturnSlot ∧
    exec (.bri 6#16) (start 0 0 0 0 0) = .refused .misalignedFetch ∧
    exec (.wdc 1#5 2#5) (start 0 0 0 0 0x80) = .refused .cacheWriteWhileEnabled := ⟨rfl, rfl, rfl, rfl, rfl⟩

/-- A word that is no instruction is refused by the step (30_encoding R120). -/
theorem test_illegal : step (State.reset.withFetchWord 32 0xFFFFFFFF) = .refused .illegalEncoding := rfl

/-- Interrupt, break and exception entries (60_exceptions R413, R417, R421). -/
theorem test_entries :
    (start 0x104 0 0 0 2).takeInterrupt.reg 14#5 = 0x104#32 ∧ (start 0x104 0 0 0 2).takeInterrupt.msr.toWord = 0#32 ∧
    (start 0x104 0 0 0 2).takeBreak.reg 16#5 = 0x104#32 ∧ (start 0x104 0 0 0 2).takeBreak.msr.toWord = 10#32 ∧
    (start 0x104 0 0 0 2).takeException.reg 17#5 = 0x104#32 ∧ (start 0x104 0 0 0 2).takeException.pc = 8#32 := by decide

/-- A store drives the buslock output with BE (10_state R38); a reset turns it off (70 R452). -/
theorem test_bus_lock : (ran (start 0x100 0x1000 0 7 1) 0xF8610000).any (fun t => t.busLocked) = true ∧
    ({ start 0x100 0 0 0 1 with busLocked := true }.resetCore).busLocked = false := by decide

/-- A reset leaves a stopped core stopped (log 48), runs nothing of it (60_exceptions R437) and knows no cache line
(70 R464). -/
theorem test_reset_stopped : step { start 0x100 0 0 0 0 with rst := true, stopped := true, icache := [(0, ⟨0, true, false, 7⟩)] }
    = .next { State.reset with stopped := true } := rfl

/-! ### Witnesses: states that meet the hypotheses of the statements -/

/-- A platform with memory, a device and an 8-bit memory on the data side, and memory of its own under the device on the
instruction side. -/
def platform : Config :=
  { Config.full with
    dataMap := [⟨0, 0xFFF, .memory, 4⟩, ⟨0x1000, 0x1FFF, .device, 4⟩, ⟨0x2000, 0x2FFF, .memory, 1⟩]
    instrMap := [⟨0, 0x1FFF, .memory, 4⟩]
    shared := [⟨0, 0xFFF⟩] }

def onPlatform (a : Word) : State := { start 0x100 a 0 0 0 with cfg := platform }

/-- DCE set, r1 at the cacheable window, the given lines. -/
def cached (ls : List (Nat × CacheLine)) : State := { start 0x100 0x30000000 0 0 0x80 with dcache := ls }

/-- ICE set, PC in the cacheable window, the given lines. -/
def icached (ls : List (Nat × CacheLine)) : State := { start 0x30000000 0 0 0 0x20 with icache := ls }

/-- ImmediateOperand: lock 1, and lock 0. -/
theorem witness_immediate : (locked 0xFFFF).imm = some 0xFFFF#16 ∧ State.reset.imm = none := by decide

/-- MultiplyForms, BarrelShifts, DivideForms: the options; a zero, an ordinary and the overflowing divisor. -/
theorem witness_options : Config.full.hasMul = true ∧ Config.full.useBarrel = true ∧ Config.full.useDiv = true ∧
    (start 0 0 5 0 0).reg 1#5 = 0#32 ∧ (start 0 1 5 0 0).reg 1#5 ≠ 0#32 ∧
    ((start 0 0xFFFFFFFF 0x80000000 0 0).reg 2#5).toInt = -2 ^ 31 ∧
    ((start 0 0xFFFFFFFF 0x80000000 0 0).reg 1#5).toInt = -1 := by decide

/-- UnconditionalJumps, LinkedJumps, Returns, SoftwareBreaks, ImmPrefixLocks: no pending transfer; targets that are a
multiple of 4, up to the last one, and that are not. -/
theorem witness_jumps : (start 0x100 0 0xFFFFFFFC 0 0).ds = none ∧
    ((start 0x100 0 0xFFFFFFFC 0 0).reg 2#5).toNat % 4 = 0 ∧ ((start 0x100 0 0xFFFFFFFE 0 0).reg 2#5).toNat % 4 ≠ 0 ∧
    ((start 0x100 0 0 0 0).imm32 0xFFFC).toNat % 4 = 0 ∧ ((start 0x100 0 0 0 0).imm32 1).toNat % 4 ≠ 0 := by decide

/-- ConditionalBranchesPlain and ConditionalBranchesDelayed: r1 = 0, 1 and -2^31 meet each test and its negation. -/
theorem witness_conditions : ((start 0 0 0 0 0).reg 1#5).toInt = 0 ∧ ((start 0 1 0 0 0).reg 1#5).toInt > 0 ∧
    ((start 0 0x80000000 0 0 0).reg 1#5).toInt < 0 := by decide

/-- DelaySlotEnds: an instruction completes in a slot, with each pending MSR change. -/
theorem witness_delay_slot (act : SlotMsr) :
    (slot act).ds = some ⟨0x340, act⟩ ∧ ∃ t, exec (.or 0#5 0#5 0#5) (slot act) = .next t ∧ t ≠ slot act :=
  ⟨rfl, _, rfl, by cases act <;> decide⟩

/-- TransferInDelaySlotRefused. -/
theorem witness_transfer_in_slot : Instr.isTransfer (.imm 0#16) = true ∧ Instr.isTransfer (.bgeid 1#5 8#16) = true ∧
    (slot .none).ds.isSome = true := by decide

/-- LoadsComplete, StoresComplete: both forms, storage answers the first and the last word, the cache takes no part because
of the address or of DCE. -/
theorem witness_storage : IsLoad (start 0x100 0x1000 3 0 0) .byte 3#5 (.lbu 3#5 1#5 2#5) 0x1000#32 3#32 ∧
    IsLoad (start 0x100 0x1000 3 0 0) .half 3#5 (.lhui 3#5 1#5 2#16) 0x1000#32 2#32 ∧
    IsStore (start 0x100 0x1000 3 0 0) .word 3#5 (.sw 3#5 1#5 2#5) 0x1000#32 3#32 ∧
    IsStore (start 0x100 0x1000 3 0 0) .word 3#5 (.swi 3#5 1#5 4#16) 0x1000#32 4#32 ∧
    State.reset.answers .word (effective .word 0 0) ∧ State.reset.answers .word (effective .word 0xFFFFFFFF 0) ∧
    State.reset.bypassesD 0 ∧ State.reset.bypassesD 0x30000000 ∧ Memory.wf State.reset.mem = true :=
  ⟨.reg 1#5 2#5, .imm 1#5 2#16, .reg 1#5 2#5, .imm 1#5 4#16, ⟨_, rfl, by decide⟩, ⟨_, rfl, by decide⟩, .inl rfl,
    .inr ⟨rfl, rfl⟩, rfl⟩

/-- LoadThroughDataCache, StoreThroughDataCache: an unwritten line, a hit, a miss on an unlocked and on a locked line. -/
theorem witness_data_cache :
    IsLoad (cached []) .word 3#5 (.lw 3#5 1#5 2#5) 0x30000000#32 0#32 ∧
    IsStore (cached []) .word 3#5 (.sw 3#5 1#5 2#5) 0x30000000#32 0#32 ∧
    (∀ ls, (cached ls).answers .word (effective .word 0x30000000 0) ∧ (cached ls).cachesD (effective .word 0x30000000 0)) ∧
    Assoc.find (cached []).dcache 0 = none ∧
    Assoc.find (cached [(0, ⟨0, true, false, 7⟩)]).dcache 0 = some ⟨0, true, false, 7⟩ ∧
    CacheConfig.lineOf Config.full.dcache (effective .word 0x30000000 0) = 0 ∧
    CacheLine.hits ⟨0, true, false, 7⟩ (CacheConfig.tagOf Config.full.dcache (effective .word 0x30000000 0)) = true ∧
    CacheLine.hits ⟨1, true, false, 7⟩ (CacheConfig.tagOf Config.full.dcache (effective .word 0x30000000 0)) = false ∧
    CacheLine.hits ⟨0, false, true, 7⟩ (CacheConfig.tagOf Config.full.dcache (effective .word 0x30000000 0)) = false :=
  ⟨.reg 1#5 2#5, .reg 1#5 2#5, fun _ => ⟨⟨_, rfl, by decide⟩, rfl, rfl, rfl⟩, rfl, rfl, by decide, by decide, by decide,
    by decide⟩

/-- WriteThroughKeepsCacheCoherent: a load and a store that hit a valid line equal to memory, an instruction that is
neither and a step, in a map without devices. -/
theorem witness_coherent :
    Config.valid Config.full = true ∧ Config.full.dcache.base % 4 = 0 ∧ Config.full.dcache.high % 4 = 3 ∧
    State.Coherent (cached [(0, ⟨0, true, false, 0⟩)]) ∧ (cached [(0, ⟨0, true, false, 0⟩)]).window = none ∧
    (cached [(0, ⟨0, true, false, 0⟩)]).msr.dce = true ∧
    Memory.wf (cached [(0, ⟨0, true, false, 0⟩)]).mem = true ∧
    (∀ n a r, Config.dataRegion Config.full n a = some r → r.kind ≠ .device) ∧
    (∃ t, exec (.lw 3#5 1#5 2#5) (cached [(0, ⟨0, true, false, 0⟩)]) = .next t) ∧
    (∃ t, exec (.sw 3#5 1#5 2#5) (cached [(0, ⟨0, true, false, 0⟩)]) = .next t) ∧
    (∃ t, exec (.or 3#5 1#5 2#5) (cached [(0, ⟨0, true, false, 0⟩)]) = .next t) ∧
    ∃ t, step (cached [(0, ⟨0, true, false, 0⟩)]) = .next t := by
  refine ⟨by decide, by decide, by decide, ?_, rfl, rfl, by decide, ?_, ⟨_, rfl⟩, ⟨_, rfl⟩, ⟨_, rfl⟩, ⟨_, rfl⟩⟩
  · intro a l _ _ hf _
    have h : Assoc.find [(0, (⟨0, true, false, 0⟩ : CacheLine))] (CacheConfig.lineOf Config.full.dcache a) = some l := hf
    unfold Assoc.find at h
    split at h
    · cases h
      show 0#32 = wordOfBytes 0#8 0#8 0#8 0#8
      decide
    · cases h
  · intro n a r h
    obtain ⟨hr, -⟩ := Option.filter_eq_some_iff.1 h
    have hm : r = ⟨0, 0xFFFFFFFF, .memory, 4⟩ := List.mem_singleton.1 (List.mem_of_find?_eq_some hr)
    rw [hm]
    decide

/-- DeviceTransfers: a load and a store that a device answers. -/
theorem witness_device :
    (∃ r, Config.dataRegion platform .word (effective .word 0x1FFC 3) = some r ∧ r.kind = .device) ∧
    (onPlatform 0x1FFC).bypassesD (effective .word 0x1FFC 3) ∧
    IsLoad (onPlatform 0x1FFC) .word 3#5 (.lwi 3#5 1#5 3#16) 0x1FFC#32 3#32 ∧
    IsStore (onPlatform 0x1FFC) .word 3#5 (.swi 3#5 1#5 3#16) 0x1FFC#32 3#32 :=
  ⟨⟨_, rfl, rfl⟩, .inl rfl, .imm 1#5 3#16, .imm 1#5 3#16⟩

/-- The same platform with the device in the data cache's window, DCE set, r1 at the device. -/
def cachedDevice (l : CacheLine) : State :=
  { start 0x100 0x1000 0 0 0x80 with
    cfg := { platform with dcache := { use := true, base := 0, high := 0x1FFF } }
    dcache := [(0x400, l)] }

/-- DeviceTransfers: a load at the device that misses an unlocked line, and one that misses a locked line. -/
theorem witness_device_miss :
    (∃ r, Config.dataRegion (cachedDevice ⟨0, false, false, 0⟩).cfg .half (effective .half 0x1000 2) = some r ∧
      r.kind = .device) ∧
    (∀ l, (cachedDevice l).cachesD (effective .half 0x1000 2)) ∧
    (∀ l, IsLoad (cachedDevice l) .half 3#5 (.lhui 3#5 1#5 2#16) 0x1000#32 2#32) ∧
    Assoc.find (cachedDevice ⟨0, false, false, 0⟩).dcache (CacheConfig.lineOf (cachedDevice ⟨0, false, false, 0⟩).cfg.dcache
      (effective .half 0x1000 2)) = some ⟨0, false, false, 0⟩ ∧
    CacheLine.hits ⟨0, false, false, 0⟩
      (CacheConfig.tagOf (cachedDevice ⟨0, false, false, 0⟩).cfg.dcache (effective .half 0x1000 2)) = false ∧
    Assoc.find (cachedDevice ⟨1, true, true, 0⟩).dcache (CacheConfig.lineOf (cachedDevice ⟨1, true, true, 0⟩).cfg.dcache
      (effective .half 0x1000 2)) = some ⟨1, true, true, 0⟩ ∧
    CacheLine.hits ⟨1, true, true, 0⟩
      (CacheConfig.tagOf (cachedDevice ⟨1, true, true, 0⟩).cfg.dcache (effective .half 0x1000 2)) = false :=
  ⟨⟨_, rfl, rfl⟩, fun _ => ⟨rfl, rfl, rfl⟩, fun _ => .imm 1#5 2#16, by decide, by decide, by decide, by decide⟩

/-- UnansweredAccessRefused: an address outside the map, a word access to an 8-bit unit, a fetch outside the map. -/
theorem witness_unanswered : Config.dataRegion platform .byte (effective .byte 0x3000 0) = none ∧
    Config.dataRegion platform .word (effective .word 0x2000 0) = none ∧
    (onPlatform 0x3000).bypassesD (effective .byte 0x3000 0) ∧
    IsLoad (onPlatform 0x3000) .byte 3#5 (.lbu 3#5 1#5 2#5) 0x3000#32 0#32 ∧
    IsStore (onPlatform 0x3000) .byte 3#5 (.sb 3#5 1#5 2#5) 0x3000#32 0#32 ∧
    aligned 0x2000#32 = true ∧ State.stale { onPlatform 0 with pc := 0x2000#32 } 0x2000 = false ∧
    State.bypassesI { onPlatform 0 with pc := 0x2000#32 } 0x2000 ∧ Config.instrRegion platform 0x2000 = none :=
  ⟨rfl, rfl, .inl rfl, .reg 1#5 2#5, .reg 1#5 2#5, by decide, rfl, .inl rfl, rfl⟩

/-- A device on the data side and storage of the instruction side at one address (20_memory R83): the fetch answers. -/
theorem test_sides : State.fetchWord { onPlatform 0 with pc := 0x1000#32, imem := [(0x1000, 0xB8#8)] }
    = .next (0xB8000000#32, { onPlatform 0 with pc := 0x1000#32, imem := [(0x1000, 0xB8#8)] }) := rfl

/-- StoredBytesReadBack: the last word, halfword and byte of the address space. -/
theorem witness_last_word : Memory.wf [] = true ∧ 0xFFFFFFFC % Size.word.bytes = 0 ∧
    0xFFFFFFFC + Size.word.bytes ≤ 2 ^ 32 ∧ 0xFFFFFFFE % Size.half.bytes = 0 ∧ 0xFFFFFFFE + Size.half.bytes ≤ 2 ^ 32 ∧
    0xFFFFFFFF % Size.byte.bytes = 0 ∧ 0xFFFFFFFF + Size.byte.bytes ≤ 2 ^ 32 := by decide

/-- OnlyImmLeavesTheLock. -/
theorem witness_lock : ∃ t, exec (.imm 7#16) (start 0x100 0 0 0 0) = .next t ∧ t ≠ start 0x100 0 0 0 0 ∧
    t.imm = some 7#16 := ⟨_, rfl, by decide, rfl⟩

/-- MtsCompletes, MsrSetAndClear: outside a slot, in a slot without MSR change, in the slots of `rtid` and `rtbd`. -/
theorem witness_msr_write : Config.full.useMsrInstr = true ∧ (start 0 0 0 0 0).ds = none ∧
    (slot .none).ds = some ⟨0x340, .none⟩ ∧ (slot .setIE).ds = some ⟨0x340, .setIE⟩ ∧ SlotMsr.setIE ≠ SlotMsr.none ∧
    (slot .clearBIP).ds = some ⟨0x340, .clearBIP⟩ ∧ SlotMsr.clearBIP ≠ SlotMsr.none ∧
    0xFFFF8000#32 = (if Config.full.msrEncoding = .printed then State.reset.imm32 0x8000 else 0x8000#32) := by decide

/-- CacheLineWrites: caches that may be written, the enable bit reading 0 and reading 1. -/
theorem witness_cache_write : Config.full.icache.use = true ∧ Config.full.icache.allowWrite = true ∧
    Config.full.dcache.use = true ∧ Config.full.dcache.allowWrite = true ∧
    (∀ b, State.reset.MayRead Msr.ice b → b = false) ∧ (∀ b, (icached []).MayRead Msr.ice b → b = true) ∧
    (∀ b, State.reset.MayRead Msr.dce b → b = false) ∧ (∀ b, (cached []).MayRead Msr.dce b → b = true) := by
  refine ⟨rfl, rfl, rfl, rfl, ?_, ?_, ?_, ?_⟩ <;>
  · rintro b (h | ⟨_, h, _⟩)
    · exact h
    · cases h

/-- GetTakesTheHead, PutAppendsAnItem, NonBlockingFslFailure, BlockingFslWaits: the last channel with an item, with room for
one more, empty, full. -/
theorem witness_fsl : (7#3).toNat < Config.full.fslLinks ∧ (queued 7#3 [⟨5, false⟩]).inQueue 7#3 = [⟨5, false⟩] ∧
    (State.outQueue { start 0 0 0 0 0 with outQ := State.reset.outQ.set 7 (List.replicate 15 ⟨0, false⟩) } 7#3).length
      < Config.full.fslDepth ∧
    State.reset.inQueue 7#3 = [] ∧ ((full 7#3).outQueue 7#3).length = Config.full.fslDepth := by decide

/-- AbsentOptionsRefused: an instance without any option. -/
theorem witness_no_options :
    let c : Config := { hasMul := false }
    c.hasMul = false ∧ c.useDiv = false ∧ c.useBarrel = false ∧ c.fslLinks ≤ (0#3).toNat ∧ c.icache.use = false ∧
      c.dcache.use = false ∧ c.useMsrInstr = false ∧ Config.valid c = true := by decide

/-- OnlyStoresChangeMemory, OnlyTheDestinationRegisterChanges, MsrWriters, FslOrderPreserved: instructions that complete. -/
theorem witness_completes : (∃ t, exec (.add 3#5 1#5 2#5) State.reset = .next t) ∧
    Instr.isStore (.add 3#5 1#5 2#5) = false ∧ Instr.dest (.add 3#5 1#5 2#5) ≠ some 4#5 ∧
    Instr.writesMsr (.add 3#5 1#5 2#5) = false ∧ ∃ t, exec (.get 3#5 0#3) (queued 0#3 [⟨1, true⟩]) = .next t :=
  ⟨⟨_, rfl⟩, rfl, by decide, rfl, ⟨_, rfl⟩⟩

/-- StepRunsDecodedInstruction, FetchThroughInstructionCache past the cache: a quiet aligned state, a word that decodes, one
that does not, both ways past the instruction cache. -/
theorem witness_fetch : Config.valid State.reset.cfg = true ∧ State.reset.quiet ∧ aligned State.reset.pc = true ∧
    State.reset.stale 0 = false ∧ State.reset.bypassesI 0 ∧ (start 0x30000000 0 0 0 0).bypassesI 0x30000000 ∧
    State.reset.fetches 0 ∧
    decodeWord Config.full (Memory.readWord (State.reset.instrStorage 0) 0) = .ok (.add 0#5 0#5 0#5) ∧
    decodeWord Config.full (Memory.readWord ((withWord State.reset 0 0xFFFFFFFF).instrStorage 0) 0)
      = .error .unassignedOpcode :=
  ⟨by decide, ⟨rfl, rfl, .inr (.inr ⟨rfl, rfl, .inl rfl, .inl rfl⟩)⟩, by decide, rfl, .inl (by decide), .inr ⟨rfl, rfl⟩,
    ⟨_, rfl, by decide⟩, by decide, by decide⟩

/-- A quiet state with masked requests pending, and one held off. -/
theorem witness_masked : State.undisturbed { State.reset with intPin := true } ∧
    State.undisturbed { start 0 0 0 0 8 with brk := true } ∧ State.undisturbed { locked 1 with nm := true } :=
  ⟨.inr (.inr ⟨rfl, rfl, .inl rfl, .inr ⟨rfl, .inl rfl⟩⟩), .inr (.inr ⟨rfl, rfl, .inr ⟨rfl, rfl⟩, .inl rfl⟩), .inl rfl⟩

/-- StepIsEventOrInstruction: a stopped state, and a running one whose fetch answers a word that decodes and one that does
not. -/
theorem witness_step : State.reset.rst = false ∧ State.stopped { State.reset with stopped := true } = true ∧
    State.reset.stopped = false ∧ State.reset.pollEvents = (false, State.reset) ∧
    State.reset.fetchWord = .next (0#32, State.reset) ∧ decodeWord Config.full 0#32 = .ok (.add 0#5 0#5 0#5) ∧
    (withWord State.reset 0 0xFFFFFFFF).fetchWord = .next (0xFFFFFFFF#32, withWord State.reset 0 0xFFFFFFFF) ∧
    decodeWord Config.full 0xFFFFFFFF#32 = .error .unassignedOpcode :=
  ⟨rfl, rfl, rfl, rfl, rfl, rfl, rfl, rfl⟩

/-- EventsAtABoundary: each request alone, enabled, no window. -/
theorem witness_requests :
    State.interruptRequest { start 0 0 0 0 2 with intPin := true } = true ∧ (start 0 0 0 0 2).msr.ie = true ∧
    (start 0 0 0 0 2).msr.bip = false ∧ (start 0 0 0 0 2).window = none ∧ (start 0 0 0 0 2).imm = none ∧
    (start 0 0 0 0 2).ds = none ∧ (start 0 0 0 0 2).interruptRequest = false ∧
    State.nm { start 0 0 0 0 2 with nm := true } = true ∧ State.brk { start 0 0 0 0 2 with brk := true } = true ∧
    State.exc { start 0 0 0 0 2 with exc := true } = true := by decide

/-- FetchThroughInstructionCache: an unwritten line, a hit, a miss on an unlocked and on a locked line. -/
theorem witness_instruction_cache :
    (∀ ls, aligned (icached ls).pc = true ∧ (icached ls).stale 0x30000000 = false ∧ (icached ls).window = none ∧
      (icached ls).msr.ice = true ∧ (icached ls).fetches 0x30000000) ∧
    CacheConfig.cacheable Config.full.icache 0x30000000 = true ∧ Assoc.find (icached []).icache 0 = none ∧
    CacheConfig.lineOf Config.full.icache 0x30000000 = 0 ∧
    CacheLine.hits ⟨0, true, false, 7⟩ (CacheConfig.tagOf Config.full.icache 0x30000000) = true ∧
    CacheLine.hits ⟨0, false, true, 7⟩ (CacheConfig.tagOf Config.full.icache 0x30000000) = false :=
  ⟨fun _ => ⟨(by decide : aligned 0x30000000#32 = true), rfl, rfl, rfl, _, rfl, by decide⟩, by decide, rfl, by decide, by decide,
    by decide⟩

/-- FetchOfStoredWordRefused: a store to shared storage completes, a step keeps its word on the record, and an aligned PC
reaches it. -/
theorem witness_stale : IsStore (start 0x100 0x104 0 0 0) .byte 3#5 (.sbi 3#5 1#5 3#16) 0x104#32 3#32 ∧
    (start 0x100 0x104 0 0 0).answers .byte (effective .byte 0x104 3) ∧
    Config.sharedID Config.full (effective .byte 0x104 3) = true ∧
    (∃ t, exec (.sbi 3#5 1#5 3#16) (start 0x100 0x104 0 0 0) = .next t) ∧
    (∃ t, step { start 0x100 0x104 0 0 0 with stored := [(0x104, 0)] } = .next t) ∧
    State.recorded { start 0x104 0 0 0 0 with stored := [(0x104, 0)] } 0x104 ∧ aligned 0x104#32 = true ∧
    Config.full.ifetchCoherent = false :=
  ⟨.imm 1#5 3#16, ⟨_, rfl, by decide⟩, by decide, ⟨_, rfl⟩, ⟨_, rfl⟩, rfl, by decide, rfl⟩

/-- ResetTaken. -/
theorem witness_reset : Config.valid State.reset.cfg = true ∧ State.rst { slot .setIE with rst := true } = true ∧
    Config.full.gprResetKnown = true := by decide

/-- StepKeepsInvariant, EnvironmentRunsKeepInvariant: a state with the invariant that steps, and an action on it. -/
theorem witness_invariant : State.Inv (withWord State.reset 0 0x20600005) ∧
    (∃ t, step (withWord State.reset 0 0x20600005) = .next t) ∧
    State.ReachesWith State.reset (State.reset.host (.pushFsl 0#3 ⟨1, true⟩)) :=
  ⟨⟨by decide, rfl, rfl, by decide, rfl, rfl, rfl, by decide⟩, ⟨_, rfl⟩, .host _ .refl⟩

/-- DecodeInvertsEncode, DecodedWordMatchesItsRow, PlacedInstructionRunsFirst. -/
theorem witness_encoding : WellFormed Config.full (.muli 3#5 18#5 3#16) = true ∧
    WellFormed { Config.full with msrEncoding := .gnu } (.msrset 3#5 0x7FFF#16) = true ∧
    decodeWord Config.full 0x60700002#32 = .ok (.msrset 3#5 2#16) := by decide

end Sys2Proof.Tests.Slice0
end

section
/-! PROOFS. The state family: the invariant of every step, the `imm` lock, MSR as a word, and which instruction may change
which register and which MSR field. What is said of every instruction follows from `exec_next`: it has an `Effect` and then an
`Ending`; each part below says once what these two keep. -/

namespace Sys2Proof.Machine

variable {i : Instr} {s t u : State}

/-! ### The invariant under the updates of the data (R88, R340) -/

/-- `Inv` speaks of no free value. -/
theorem State.Inv.drawn (h : s.Inv) (k : Nat) : State.Inv { s with draws := k } := { h with }

/-- New data in a listed line keeps the lines canonical. -/
theorem linesWf_put_data {c : CacheConfig} {m : List (Nat × CacheLine)} {j : Nat} {l : CacheLine} (w : Word)
    (h : linesWf c m = true) (hl : Assoc.find m j = some l) : linesWf c (Assoc.put m j { l with data := w }) = true := by
  obtain ⟨-, hall⟩ := assoc_wf_iff.1 h
  obtain ⟨hj, htag⟩ := hall _ (find_mem hl)
  exact put_wf h hj htag

/-- What an instruction does to the data before it ends keeps the invariant. -/
theorem Effect.inv (hu : Effect i s u) (h : s.Inv) : u.Inv where
  pc := by rw [hu.pc]; exact h.pc
  target := by rw [hu.ds]; exact h.target
  exclusive := by rw [hu.imm, hu.ds]; exact h.exclusive
  mem := by
    rcases hu.mem with hm | ⟨-, n, a, v, hfits, hm⟩ <;> rw [hm]
    · exact h.mem
    · exact writeSize_wf n v h.mem hfits
  imem := by rw [hu.imem]; exact h.imem
  icache := by
    rw [hu.cfg]
    rcases hu.icache with hc | ⟨a, v, l, w, hc⟩ <;> rw [hc]
    · exact h.icache
    · exact linesWf_put a v l w h.icache
  dcache := by
    rw [hu.cfg]
    rcases hu.dcache with hc | ⟨-, ⟨a, l, w, hl, hc⟩ | ⟨a, v, l, w, hc⟩⟩ <;> rw [hc]
    · exact h.dcache
    · exact linesWf_put_data w h.dcache hl
    · exact linesWf_put a v l w h.dcache
  outQ ch := by
    rw [hu.cfg]
    rcases hu.outQ ch with hq | ⟨-, hroom, x, hq⟩ <;> rw [hq]
    · exact h.outQ ch
    · simpa using hroom

/-! ### The invariant under the end of an instruction (R26, R44) -/

theorem aligned_add_four {a : Word} (h : aligned a = true) : aligned (a + 4#32) = true := by
  rw [aligned_iff] at h ⊢
  rw [BitVec.toNat_add]
  simp only [BitVec.toNat_ofNat]
  omega

/-- Execution goes on at a multiple of 4: the next word, or the pending target. -/
theorem State.Inv.aligned_nextPc (h : s.Inv) : aligned s.nextPc = true := by
  have ht := h.target
  unfold State.nextPc
  cases hd : s.ds with
  | none => exact aligned_add_four h.pc
  | some d => simpa [hd] using ht

theorem State.Inv.retire (h : s.Inv) : s.retire.Inv where
  pc := h.aligned_nextPc
  target := rfl
  exclusive := rfl
  mem := h.mem
  imem := h.imem
  icache := h.icache
  dcache := h.dcache
  outQ := h.outQ

/-- Every ending keeps the invariant: what it puts in the PC or leaves pending is aligned, and it never leaves both an `imm`
lock and a pending transfer. -/
theorem Ending.inv (he : Ending i u t) (h : u.Inv) : t.Inv := by
  cases he with
  | goOn ht => subst ht; exact h.retire
  | jump target _ ha ht => subst ht; exact { h.retire with pc := ha }
  | delay d _ ha ht => subst ht; exact { h.retire with target := ha }
  | msr m _ _ ht => subst ht; exact { h.retire with }
  | lock v _ _ ht => subst ht; exact { h.retire with }

/-- Every instruction keeps the invariant. -/
theorem State.Inv.of_exec (h : s.Inv) (he : exec i s = .next t) : t.Inv := by
  rcases exec_next he with rfl | ⟨u, heffect, hend⟩
  · exact h
  · exact hend.inv (heffect.inv h)

/-! ### The invariant under the other parts of a step (60 R405) -/

/-- A fetch may fill an instruction-cache line with a tag in range. -/
theorem State.Inv.of_fetchWord {w : Word} (h : s.Inv) (hf : s.fetchWord = .next (w, u)) : u.Inv := by
  obtain ⟨-, -, ic, k, rfl, hic⟩ := fetchWord_next s hf
  have hlines : linesWf s.cfg.icache ic = true := by
    rcases hic with rfl | ⟨x, rfl⟩
    · exact h.icache
    · exact linesWf_put _ _ _ x h.icache
  exact { h with icache := hlines }

theorem State.Inv.of_fetchExec (h : s.Inv) (hf : s.fetchExec = .next t) : t.Inv := by
  obtain ⟨⟨w, u⟩, hw, he⟩ := bind_next hf
  dsimp only at he
  split at he
  · exact (h.of_fetchWord hw).of_exec he
  · cases he

/-- The event test keeps the invariant: the vector of each entry is aligned. -/
theorem State.Inv.pollEvents (h : s.Inv) : s.pollEvents.2.Inv := by
  rcases pollEvents_cases s with
    ⟨-, -, -, k, ⟨-, he⟩ | ⟨-, -, he⟩ | ⟨-, he⟩ | ⟨-, -, -, he⟩⟩ | ⟨-, k, he⟩ <;> rw [he]
  · exact { h.drawn k with pc := (by decide : aligned 0x18#32 = true) }
  · exact { h.drawn k with pc := (by decide : aligned 0x18#32 = true) }
  · exact { h.drawn k with pc := (by decide : aligned 0x08#32 = true) }
  · exact { h.drawn k with pc := (by decide : aligned 0x10#32 = true) }
  · exact h.drawn k

/-- An instruction abandoned by a reset did its work in full or not at all. -/
theorem State.Inv.abandon (h : s.Inv) : s.abandon.Inv := by
  have hdrawn : s.drawBit.2.Inv := h.drawn _
  unfold State.abandon
  split
  · exact h
  · dsimp only
    split
    · split
      · next t ht => exact hdrawn.of_fetchExec ht
      · exact hdrawn
      · exact hdrawn
    · exact hdrawn

theorem State.Inv.resetCore (h : s.Inv) : s.resetCore.Inv where
  pc := (by decide : aligned 0#32 = true)
  target := rfl
  exclusive := rfl
  mem := h.mem
  imem := h.imem
  icache := rfl
  dcache := rfl
  outQ := h.outQ

theorem State.Inv.of_step (h : s.Inv) (hs : step s = .next t) : t.Inv := by
  unfold step State.cycle at hs
  split at hs
  · cases hs
  · split at hs
    · cases hs; exact h.abandon.resetCore
    · split at hs
      · cases hs; exact h
      · split at hs
        · cases hs; exact h.pollEvents
        · exact h.pollEvents.of_fetchExec hs

/-- Settles O55: a step is a reset, a stop, an event entry or an instruction, and each of them keeps `Inv`. -/
theorem stepKeepsInvariant : Obligations.StepKeepsInvariant := fun _ _ h hs => h.of_step hs

/-- Settles O54, by evaluating the reset state and its register file, which holds only zeros. -/
theorem resetSatisfiesInvariant : Obligations.ResetSatisfiesInvariant := by
  have hinv : State.reset.Inv := ⟨by decide, rfl, rfl, rfl, rfl, rfl, rfl, by decide⟩
  have hreg (r : RegNum) : State.reset.reg r = 0#32 := by simp [State.reg, readGpr, State.reset]
  exact ⟨hinv, rfl, by decide, hreg⟩

/-! ### The `imm` lock (R43, R310) -/

/-- A lock that stands after an instruction was set by its ending, so the instruction was `imm`. -/
theorem Ending.imm_of_locked {v : Imm16} (he : Ending i u t) (hv : t.imm = some v) : i = .imm v := by
  cases he with
  | goOn ht => simp [ht] at hv
  | jump target _ _ ht => simp [ht] at hv
  | delay d _ _ ht => simp [ht] at hv
  | msr m _ _ ht => simp [ht] at hv
  | lock w hi _ ht =>
    have hw : w = v := by simpa [ht] using hv
    rw [hi, hw]

/-- Settles O29: an instruction that does not wait ends, and only the ending of `imm` leaves a lock. -/
theorem onlyImmLeavesTheLock : Obligations.OnlyImmLeavesTheLock := by
  intro i s t v h hne hv
  rcases exec_next h with heq | ⟨u, -, hend⟩
  · exact absurd heq hne
  · exact hend.imm_of_locked hv

/-! ### The general registers (R20, R21, R281) -/

theorem Ending.reg (he : Ending i u t) (r : RegNum) : t.reg r = u.reg r := by
  obtain ⟨-, hgpr, -⟩ := ending_frame he
  exact reg_of_gpr u t hgpr r

theorem Effect.reg_of_not_dest (hu : Effect i s u) {r : RegNum} (hr : Instr.dest i ≠ some r) : u.reg r = s.reg r := by
  rcases hu.gpr with hgpr | ⟨rd, v, hdest, hgpr⟩
  · exact reg_of_gpr s u hgpr r
  · have hne : r ≠ rd := fun heq => hr (heq ▸ hdest)
    exact (oneReg_of_gpr s u hgpr).others r hne

/-- Settles O42: the effect writes at most the destination, and the ending writes no register. -/
theorem onlyTheDestinationRegisterChanges : Obligations.OnlyTheDestinationRegisterChanges := by
  intro i s t h r hr
  rcases exec_next h with rfl | ⟨u, heffect, hend⟩
  · rfl
  · rw [hend.reg, heffect.reg_of_not_dest hr]

/-! ### The fields of MSR (R41) -/

/-- The end of an instruction changes MSR only after the slot of `rtid` or `rtbd`. -/
theorem slotMsr_cases (s : State) :
    s.slotMsr = s.msr ∨
    ((∃ d, s.ds = some d ∧ d.act = .setIE) ∧ s.slotMsr = { s.msr with ie := true }) ∨
    ((∃ d, s.ds = some d ∧ d.act = .clearBIP) ∧ s.slotMsr = { s.msr with bip := false }) := by
  unfold State.slotMsr
  cases s.ds with
  | none => exact .inl rfl
  | some d =>
    cases hact : d.act with
    | none => simp [SlotMsr.apply, hact]
    | setIE => exact .inr (.inl ⟨⟨d, rfl, hact⟩, by simp [SlotMsr.apply, hact]⟩)
    | clearBIP => exact .inr (.inr ⟨⟨d, rfl, hact⟩, by simp [SlotMsr.apply, hact]⟩)

/-- Only the explicit MSR writes end otherwise than with MSR after the slot. -/
theorem Ending.msr_eq (he : Ending i u t) (hi : Instr.writesMsr i = false) : t.msr = u.slotMsr := by
  cases he with
  | goOn ht => subst ht; rfl
  | jump target _ _ ht => subst ht; rfl
  | delay d _ _ ht => subst ht; rfl
  | msr m hwrites _ _ => simp [hi] at hwrites
  | lock v _ _ ht => subst ht; rfl

/-- Settles O43: `Effect` holds R41's table for the instruction's own writes; what the end of a return's slot then does to
IE or BIP is the one case of that table which speaks of the pending transfer. -/
theorem msrWriters : Obligations.MsrWriters := by
  intro i s t h hi
  rcases exec_next h with rfl | ⟨u, hu, hend⟩
  · exact ⟨rfl, rfl, rfl, .inl rfl, .inl rfl, .inl rfl, .inl rfl, .inl rfl⟩
  rw [hend.msr_eq hi, ← hu.ds]
  rcases slotMsr_cases u with hm | ⟨hslot, hm⟩ | ⟨hslot, hm⟩ <;> rw [hm]
  · exact ⟨hu.dce, hu.ice, hu.be, hu.c, hu.dz, hu.fsl, hu.bip.imp_right .inl, .inl hu.ie⟩
  · exact ⟨hu.dce, hu.ice, hu.be, hu.c, hu.dz, hu.fsl, hu.bip.imp_right .inl, .inr ⟨hslot, rfl⟩⟩
  · exact ⟨hu.dce, hu.ice, hu.be, hu.c, hu.dz, hu.fsl, .inr (.inr ⟨hslot, rfl⟩), .inl hu.ie⟩

/-! ### MSR as a word (R28 to R30, R39, R40) -/

/-- A bit appended below a word. -/
theorem toNat_append_ofBool {n : Nat} (x : BitVec n) (b : Bool) :
    (x ++ BitVec.ofBool b).toNat = 2 * x.toNat + b.toNat := by
  have hb : b.toNat < 2 ^ 1 := b.toNat_lt
  rw [BitVec.toNat_append, BitVec.toNat_ofBool, ← Nat.shiftLeft_add_eq_or_of_lt hb, Nat.shiftLeft_eq]
  omega

theorem msr_toWord_toNat (m : Msr) :
    m.toWord.toNat = 2 ^ 31 * m.c.toNat + 128 * m.dce.toNat + 64 * m.dz.toNat + 32 * m.ice.toNat + 16 * m.fsl.toNat
      + 8 * m.bip.toNat + 4 * m.c.toNat + 2 * m.ie.toNat + m.be.toNat := by
  have htop : (BitVec.ofBool m.c ++ 0#23).toNat = 2 ^ 23 * m.c.toNat := by
    rw [BitVec.toNat_append, Nat.shiftLeft_eq]
    simp [Nat.mul_comm]
  simp only [Msr.toWord, toNat_append_ofBool, htop]
  omega

theorem getLsbD_toNat (w : Word) (k : Nat) : (w.getLsbD k).toNat = w.toNat / 2 ^ k % 2 := Nat.toNat_testBit _ _

/-- Settles O31: the word is the sum of its bits, and a number below 256 is the sum of its eight bits. -/
theorem msrWordLayout : Obligations.MsrWordLayout := by
  refine ⟨msr_toWord_toNat, fun w => ?_⟩
  have hcarry : (if w.toNat / 4 % 2 = 1 then 2 ^ 31 else 0) = 2 ^ 31 * (w.toNat / 4 % 2) := by
    split <;> omega
  rw [msr_toWord_toNat, hcarry]
  simp only [Msr.ofWord, getLsbD_toNat]
  omega

end Sys2Proof.Machine
end

section
/-! PROOFS. The memory family: the layout of words in memory, the address of an access, accesses past and through the data
cache, device transfers, the fetch and the record of stores, and the coherence of the data cache with memory. What an access
can do is said in Sys2Proof/Laws/Access.lean, what an instruction can do by `exec_next`; the parts below combine the two. -/

namespace Sys2Proof.Machine

variable {i : Instr} {s t u : State} {n : Size} {a : Nat}

/-! ### Bytes of a word in memory (R62) -/

theorem byteOfWord_readWord (m : Memory) (a : Nat) {k : Nat} (hk : k < 4) :
    byteOfWord (m.readWord a) k = m.read (a + k) := by
  rw [Memory.readWord, byteOfWord_wordOfBytes _ _ _ _ k hk]
  interval_cases k <;> rfl

/-- A word is made of its bytes. -/
theorem wordOfBytes_byteOfWord (w : Word) :
    wordOfBytes (byteOfWord w 0) (byteOfWord w 1) (byteOfWord w 2) (byteOfWord w 3) = w := by
  apply BitVec.eq_of_toNat_eq
  have hw := w.isLt
  rw [wordOfBytes_toNat]
  simp only [byteOfWord_toNat]
  omega

/-- Equal bytes make equal words. -/
theorem readWord_congr {m m' : Memory} {a : Nat} (h : ∀ k, k < 4 → m'.read (a + k) = m.read (a + k)) :
    m'.readWord a = m.readWord a := by
  have h0 : m'.read a = m.read a := h 0 (by omega)
  rw [Memory.readWord, Memory.readWord, h0, h 1 (by omega), h 2 (by omega), h 3 (by omega)]

/-- An aligned access lies in the word of its address, so every other word reads as before. -/
theorem readWord_writeSize_other {m : Memory} {b : Nat} (v : Word) (hm : Memory.wf m = true) (hfits : n.fits a)
    (ha : a % n.bytes = 0) (hb : b % 4 = 0) (hne : b ≠ a / 4 * 4) :
    Memory.readWord (Memory.writeSize m n a v) b = Memory.readWord m b := by
  refine readWord_congr fun k hk => ?_
  rw [read_writeSize n v hm hfits, if_neg]
  cases n <;> simp only [Size.bytes] at ha ⊢ <;> omega

/-- Byte k of the word of the address after a store. -/
theorem read_writeSize_word {m : Memory} (v : Word) (hm : Memory.wf m = true) (hfits : n.fits a) {k : Nat} (hk : k < 4) :
    Memory.read (Memory.writeSize m n a v) (a / 4 * 4 + k) = mergedByte n a (Memory.readWord m (a / 4 * 4)) v k := by
  rw [read_writeSize n v hm hfits, mergedByte, byteOfWord_readWord m _ hk]
  by_cases hin : a % 4 ≤ k ∧ k < a % 4 + n.bytes
  · rw [if_pos hin, if_pos (by omega), show a / 4 * 4 + k - a = k - a % 4 by omega]
  · rw [if_neg hin, if_neg (by omega)]

/-- The word of the address after a store has the stored bytes in their place: memory does what a hit line does (R93). -/
theorem readWord_writeSize {m : Memory} (v : Word) (hm : Memory.wf m = true) (hfits : n.fits a) :
    Memory.readWord (Memory.writeSize m n a v) (a / 4 * 4) = mergePart n a (Memory.readWord m (a / 4 * 4)) v := by
  have hbyte {k : Nat} (hk : k < 4) := read_writeSize_word (n := n) v hm hfits hk
  have h0 : Memory.read (Memory.writeSize m n a v) (a / 4 * 4) = _ := hbyte (k := 0) (by omega)
  rw [Memory.readWord, h0, hbyte (k := 1) (by omega), hbyte (k := 2) (by omega), hbyte (k := 3) (by omega), mergePart]

/-- A word merged into a word replaces it. -/
theorem mergePart_word (o v : Word) (ha : a % 4 = 0) : mergePart .word a o v = v := by
  have h := wordOfBytes_byteOfWord v
  simpa [mergePart, mergedByte, Size.bytes, ha] using h

theorem readWord_writeSize_same {m : Memory} (v : Word) (hm : Memory.wf m = true) (ha : a % 4 = 0)
    (hfits : Size.word.fits a) : Memory.readWord (Memory.writeSize m .word a v) a = v := by
  have h := readWord_writeSize (n := .word) v hm hfits
  rwa [mergePart_word _ _ ha, show a / 4 * 4 = a by omega] at h

/-- A halfword merged into the upper half. -/
theorem mergePart_half_toNat (o v : Word) (ha : a % 4 = 0) :
    (mergePart .half a o v).toNat = v.toNat % 2 ^ 16 * 2 ^ 16 + o.toNat % 2 ^ 16 := by
  simp [mergePart, mergedByte, Size.bytes, ha, wordOfBytes_toNat, byteOfWord_toNat]
  omega

/-- A byte merged at the least significant place. -/
theorem mergePart_byte_toNat (o v : Word) (ha : a % 4 = 3) :
    (mergePart .byte a o v).toNat = o.toNat / 2 ^ 8 * 2 ^ 8 + v.toNat % 2 ^ 8 := by
  have ho := o.isLt
  simp [mergePart, mergedByte, Size.bytes, ha, wordOfBytes_toNat, byteOfWord_toNat]
  omega

/-- Byte k of an access in memory, most significant first. -/
theorem read_writeSize_at {m : Memory} (v : Word) (hm : Memory.wf m = true) (hfits : n.fits a) {k : Nat}
    (hk : k < n.bytes) :
    (Memory.read (Memory.writeSize m n a v) (a + k)).toNat = v.toNat / 2 ^ (8 * (n.bytes - 1 - k)) % 2 ^ 8 := by
  have hexp : 24 - 8 * (4 - n.bytes + (a + k - a)) = 8 * (n.bytes - 1 - k) := by
    cases n <;> simp only [Size.bytes] at hk ⊢ <;> omega
  rw [read_writeSize n v hm hfits, if_pos (by omega), byteOfWord_toNat, hexp]

theorem readSize_byte_toNat (m : Memory) (a : Nat) : (Memory.readSize m .byte a).toNat = (Memory.read m a).toNat := by
  simp [Memory.readSize, wordOfBytes_toNat]

theorem readSize_half_toNat (m : Memory) (a : Nat) :
    (Memory.readSize m .half a).toNat = (Memory.read m a).toNat * 2 ^ 8 + (Memory.read m (a + 1)).toNat := by
  simp [Memory.readSize, wordOfBytes_toNat]

/-- Settles O27: reads are made of bytes, every byte after a store is known, and a narrow store into a word merges. -/
theorem storedBytesReadBack : Obligations.StoredBytesReadBack := by
  refine ⟨fun m n a v hm _ hfits k hk => read_writeSize_at v hm hfits hk,
    fun m a => ⟨readSize_byte_toNat m a, readSize_half_toNat m a, wordOfBytes_toNat _ _ _ _⟩,
    fun m a v w hm ha hfits => ?_⟩
  have hv := v.isLt
  have hm' : Memory.wf (Memory.writeSize m .word a v) = true := writeSize_wf .word v hm hfits
  have hword : Memory.readWord (Memory.writeSize m .word a v) a = v := readWord_writeSize_same v hm ha hfits
  have hbyte (k : Nat) (hk : k < 4) :
      (Memory.read (Memory.writeSize m .word a v) (a + k)).toNat = v.toNat / 2 ^ (24 - 8 * k) % 2 ^ 8 := by
    rw [← byteOfWord_readWord _ a hk, hword, byteOfWord_toNat]
  have h0 : (Memory.read (Memory.writeSize m .word a v) a).toNat = v.toNat / 2 ^ 24 % 2 ^ 8 := hbyte 0 (by omega)
  refine ⟨hword, ?_, ?_, fun k hk => ?_, ?_, ?_⟩
  · rw [readSize_half_toNat, h0, hbyte 1 (by omega)]
    omega
  · rw [readSize_half_toNat, hbyte 2 (by omega), hbyte 3 (by omega)]
    omega
  · rw [readSize_byte_toNat, hbyte k hk]
  · have h := readWord_writeSize (n := .half) (a := a) w hm' (by simp only [Size.fits, Size.bytes]; omega)
    rw [show a / 4 * 4 = a by omega, hword] at h
    rw [h, mergePart_half_toNat v w ha]
  · have h := readWord_writeSize (n := .byte) (a := a + 3) w hm' (by simp only [Size.fits, Size.bytes]; omega)
    rw [show (a + 3) / 4 * 4 = a by omega, hword] at h
    rw [h, mergePart_byte_toNat v w (by omega)]

/-! ### The address of an access (R67, R68) -/

/-- Settles O19: alignment rounds the sum down, and the rounded access still fits. -/
theorem effectiveAddress : Obligations.EffectiveAddress :=
  fun n base offset => ⟨effective_eq n base offset, effective_fits n base offset⟩

theorem effective_mod (n : Size) (base offset : Word) : effective n base offset % n.bytes = 0 := by
  rw [effective_eq]
  exact Nat.mul_mod_left _ _

/-! ### Accesses past the data cache (R85, R77, R76) -/

/-- A load that the data cache takes no part in is a bus read. -/
theorem memRead_of_bypassesD (h : s.bypassesD a) : s.memRead n a = s.busRead n a := by
  unfold State.memRead
  rcases h with hc | ⟨hw, hdce⟩
  · simp [hc]
  · simp [readFlag_closed s Msr.dce hw, hdce]

/-- A store that the data cache takes no part in is a bus write. -/
theorem memWrite_of_bypassesD (v : Word) (h : s.bypassesD a) : s.memWrite n a v = s.busWrite n a v := by
  unfold State.memWrite
  cases hb : s.busWrite n a v with
  | fault e => rfl
  | refused e => rfl
  | next u =>
    have hu : u.cfg = s.cfg ∧ u.window = s.window ∧ u.msr = s.msr := by
      obtain ⟨_, _, _, -, -, ⟨-, rfl⟩ | ⟨-, rfl⟩⟩ := busWrite_next s hb <;> exact ⟨rfl, rfl, rfl⟩
    obtain ⟨hcfg, hwin, hmsr⟩ := hu
    simp only [Res.bind, hcfg]
    rcases h with hc | ⟨hw, hdce⟩
    · simp [hc]
    · simp [readFlag_closed u Msr.dce (hwin.trans hw), hmsr, hdce]

theorem busRead_unanswered (h : Config.dataRegion s.cfg n a = none) : s.busRead n a = .refused .unmappedAccess := by
  simp [State.busRead, h]

theorem busWrite_unanswered (v : Word) (h : Config.dataRegion s.cfg n a = none) :
    s.busWrite n a v = .refused .unmappedAccess := by
  simp [State.busWrite, h]

theorem instrRead_unanswered (h : Config.instrRegion s.cfg a = none) : s.instrRead a = .refused .unmappedAccess := by
  simp [State.instrRead, h]

/-- An aligned fetch that is not stale and goes past the instruction cache is a read on the instruction bus. -/
theorem fetchWord_of_bypassesI (ha : aligned s.pc = true) (hs : s.stale s.pc.toNat = false)
    (h : s.bypassesI s.pc.toNat) : s.fetchWord = s.instrRead s.pc.toNat := by
  unfold State.fetchWord
  rcases h with hc | ⟨hw, hice⟩
  · simp [ha, hs, hc]
  · simp [ha, hs, readFlag_closed s Msr.ice hw, hice]

/-- Settles O26: past the caches an access is one bus access, and the bus refuses what no region answers. -/
theorem unansweredAccessRefused : Obligations.UnansweredAccessRefused := by
  intro s n rd i base offset
  refine ⟨?_, fun ha hs hb hnone => ?_⟩
  · rintro (hload | hstore) hnone hb
    · rw [exec_load hload, State.load, memRead_of_bypassesD hb, busRead_unanswered hnone]
      rfl
    · rw [exec_store hstore, State.store, memWrite_of_bypassesD _ hb, busWrite_unanswered _ hnone]
      rfl
  · rw [fetchWord_of_bypassesI ha hs hb, instrRead_unanswered hnone]

/-! ### Accesses through the data cache (R92 to R95) -/

/-- Settles O21: the load answers through `State.CachedRead`, and its register write and its end leave the cache alone. -/
theorem loadThroughDataCache : Obligations.LoadThroughDataCache := by
  intro s n rd i base offset hload hans hcached
  have hmod := effective_mod n base offset
  rw [exec_load hload, State.load]
  generalize effective n base offset = a at hans hcached hmod ⊢
  obtain ⟨v, dc, k, b, hread, ⟨hnot, -⟩ | ⟨-, hline⟩⟩ := memRead_storage s hans
  · exact absurd hcached hnot
  rw [hread]
  have hreg : s.OneReg (State.setReg { s with dcache := dc, draws := k, busLocked := b } rd v).retire rd v :=
    oneReg_of_gpr s _ rfl
  refine ⟨_, rfl, ?_⟩
  unfold State.CachedRead at hline
  cases hfind : Assoc.find s.dcache (CacheConfig.lineOf s.cfg.dcache a) with
  | none =>
    obtain ⟨hdc, -⟩ : dc = s.dcache ∧ s.MayRead Msr.be b := by simpa only [hfind] using hline
    exact hdc
  | some l =>
    simp only [hfind] at hline
    dsimp only
    split at hline
    · next hhit =>
      obtain ⟨hv, hdc, hbus⟩ := hline
      rw [if_pos hhit]
      exact ⟨⟨v, hreg, hv ▸ partOf_toNat n a l.data hmod⟩, hdc, hbus⟩
    · next hmiss =>
      obtain ⟨hv, hbus, hdc⟩ := hline
      rw [if_neg hmiss]
      refine ⟨hv ▸ hreg, hbus, hdc.imp id ?_⟩
      rintro ⟨hlock, hdc⟩
      exact ⟨hlock, fun j => by rw [← find_put, ← hdc]; rfl⟩

/-- Settles O23: the store changes the lines as `State.CachedWrite` says, and its end leaves them alone. -/
theorem storeThroughDataCache : Obligations.StoreThroughDataCache := by
  intro s n rd i base offset hstore hans hcached
  rw [exec_store hstore, State.store]
  generalize effective n base offset = a at hans hcached ⊢
  obtain ⟨dc, k, b, hwrite, -, ⟨hnot, -⟩ | ⟨-, hline⟩⟩ := memWrite_storage s (s.reg rd) hans
  · exact absurd hcached hnot
  rw [hwrite]
  refine ⟨_, rfl, ?_⟩
  unfold State.CachedWrite at hline
  cases hfind : Assoc.find s.dcache (CacheConfig.lineOf s.cfg.dcache a) with
  | none =>
    have hdc : dc = s.dcache := by simpa only [hfind] using hline
    exact hdc
  | some l =>
    simp only [hfind] at hline
    dsimp only
    split at hline
    · next hhit =>
      rw [if_pos hhit]
      refine ⟨mergePart n a l.data (s.reg rd), fun j hj => byteOfWord_mergePart n a l.data (s.reg rd) j hj, fun j => ?_⟩
      rw [← find_put, ← hline]
      rfl
    · next hmiss =>
      rw [if_neg hmiss]
      refine hline.imp id ?_
      rintro ⟨hword, hlock, hdc⟩
      exact ⟨hword, hlock, fun j => by rw [← find_put, ← hdc]; rfl⟩

/-! ### Transfers to devices (R76, R38) -/

/-- The low bytes of a word are its remainder. -/
theorem lowPart_eq (n : Size) (w : Word) : lowPart n w = BitVec.ofNat 32 (w.toNat % 2 ^ (8 * n.bytes)) := by
  have hlow : (lowPart n w).toNat = w.toNat % 2 ^ (8 * n.bytes) := by
    cases n
    · exact Nat.and_two_pow_sub_one_eq_mod w.toNat 8
    · exact Nat.and_two_pow_sub_one_eq_mod w.toNat 16
    · exact (Nat.mod_eq_of_lt w.isLt).symm
  rw [← hlow, BitVec.ofNat_toNat, BitVec.setWidth_eq]

section
variable {r : Region} (hr : Config.dataRegion s.cfg n a = some r) (hk : r.kind = .device)
include hr hk

/-- A read that a device answers is one recorded transfer. -/
theorem busRead_device : ∃ v k b, s.MayRead Msr.be b ∧ v.toNat < 2 ^ (8 * n.bytes) ∧ s.busRead n a =
    .next (v, { s with draws := k, busLocked := b, devLog := ⟨a, n.bytes, none, b⟩ :: s.devLog }) := by
  obtain ⟨k, b, htransfer, hb⟩ := deviceTransfer_eq s n a none
  refine ⟨_, k + 1, b, hb, lowPart_lt n (Config.freeWord k), ?_⟩
  simp [State.busRead, hr, hk, htransfer, State.drawWord]

/-- A write that a device answers is one recorded transfer. -/
theorem busWrite_device (v : Word) : ∃ k b, s.MayRead Msr.be b ∧ s.busWrite n a v = .next
    { s with draws := k, busLocked := b, devLog := ⟨a, n.bytes, some (lowPart n v), b⟩ :: s.devLog } := by
  obtain ⟨k, b, htransfer, hb⟩ := deviceTransfer_eq s n a (some (lowPart n v))
  exact ⟨k, b, hb, by simp [State.busWrite, hr, hk, htransfer]⟩

/-- A load that misses a written line before a device may fill it, with the loaded bytes in their place in some word. -/
theorem cachedRead_device_miss {l : CacheLine} (hl : Assoc.find s.dcache (CacheConfig.lineOf s.cfg.dcache a) = some l)
    (hmiss : l.hits (CacheConfig.tagOf s.cfg.dcache a) = false) :
    ∃ v dc k b, s.MayRead Msr.be b ∧ v.toNat < 2 ^ (8 * n.bytes) ∧
      s.cachedRead n a = .next (v,
        { s with dcache := dc, draws := k, busLocked := b, devLog := ⟨a, n.bytes, none, b⟩ :: s.devLog }) ∧
      (dc = s.dcache ∨ l.lock = false ∧ ∃ o, dc = Assoc.put s.dcache (CacheConfig.lineOf s.cfg.dcache a)
        ⟨CacheConfig.tagOf s.cfg.dcache a, true, false, mergePart n a o v⟩) := by
  obtain ⟨v, k, b, hb, hv, hread⟩ := busRead_device hr hk
  have hcached : s.cachedRead n a = .next (v, State.mayRefill
      { s with draws := k, busLocked := b, devLog := ⟨a, n.bytes, none, b⟩ :: s.devLog } n a v l) := by
    simp [State.cachedRead, hl, hmiss, hread, Res.bind]
  rcases mayRefill_cases { s with draws := k, busLocked := b, devLog := ⟨a, n.bytes, none, b⟩ :: s.devLog } n a v l with
    ⟨k', hfill⟩ | ⟨hlock, k', w, hw, hfill⟩
  · exact ⟨v, s.dcache, k', b, hb, hv, by rw [hcached, hfill], .inl rfl⟩
  · obtain ⟨o, rfl⟩ := hw.device r hr hk
    exact ⟨v, _, k', b, hb, hv, by rw [hcached, hfill], .inr ⟨hlock, o, rfl⟩⟩

end

/-- A load that the data cache serves is a read through it. -/
theorem memRead_of_cachesD (h : s.cachesD a) : s.memRead n a = s.cachedRead n a := by
  obtain ⟨hc, hw, hdce⟩ := h
  simp [State.memRead, hc, readFlag_closed s Msr.dce hw, hdce]

/-- What a load leaves alone and how it ends, whatever it read and however it went on the bus. -/
theorem load_frame (s : State) (rd : RegNum) (v : Word) (dc : List (Nat × CacheLine)) (k : Nat) (b : Bool)
    (log : List DeviceAccess)
    (ht : t = (State.setReg { s with dcache := dc, draws := k, busLocked := b, devLog := log } rd v).retire) :
    s.OneReg t rd v ∧ s.Moved t s.following none (s.afterSlot s.msr) ∧ s.SameInputs t ∧ s.SameMemory t ∧
      s.SameQueues t := by
  subst ht
  exact ⟨oneReg_of_gpr s _ rfl, moved_retire s _ rfl rfl rfl,
    ⟨rfl, rfl, rfl, rfl, rfl, rfl, rfl, rfl⟩, ⟨fun _ => rfl, fun _ => rfl, rfl⟩, ⟨rfl, rfl⟩⟩

/-- The same of a store to a device. -/
theorem device_store_frame (s : State) (k : Nat) (b : Bool) (log : List DeviceAccess)
    (ht : t = State.retire { s with draws := k, busLocked := b, devLog := log }) :
    s.SameRegs t ∧ s.Moved t s.following none (s.afterSlot s.msr) ∧ s.SameInputs t ∧ s.SameMemory t ∧
      s.SameCaches t ∧ s.SameQueues t := by
  subst ht
  exact ⟨fun _ => rfl, moved_retire s _ rfl rfl rfl, ⟨rfl, rfl, rfl, rfl, rfl, rfl, rfl, rfl⟩,
    ⟨fun _ => rfl, fun _ => rfl, rfl⟩, ⟨rfl, rfl⟩, ⟨rfl, rfl⟩⟩

/-- Settles O25: the bus makes one transfer, past the cache or for a miss, and the instruction adds its frame. -/
theorem deviceTransfers : Obligations.DeviceTransfers := by
  intro s n rd i base offset r hr hk
  have hmod := effective_mod n base offset
  refine ⟨fun hb hload => ?_, fun hb hstore => ?_, fun hcached hload l hl hmiss => ?_⟩
  · obtain ⟨v, k, b, hbe, hv, hread⟩ := busRead_device hr hk
    obtain ⟨hreg, hmoved, hin, hmem, hq⟩ := load_frame s rd v s.dcache k b
      (⟨effective n base offset, n.bytes, none, b⟩ :: s.devLog) rfl
    refine ⟨_, v, b, hbe, ?_, hreg, hv, hmoved, hin, hmem, ⟨rfl, rfl⟩, hq, rfl, rfl⟩
    rw [exec_load hload, State.load, memRead_of_bypassesD hb, hread]
    rfl
  · obtain ⟨k, b, hbe, hwrite⟩ := busWrite_device hr hk (s.reg rd)
    obtain ⟨hregs, hmoved, hin, hmem, hcaches, hq⟩ := device_store_frame s k b
      (⟨effective n base offset, n.bytes, some (lowPart n (s.reg rd)), b⟩ :: s.devLog) rfl
    refine ⟨_, b, hbe, ?_, hregs, hmoved, hin, hmem, hcaches, hq, rfl, by rw [← lowPart_eq]; rfl⟩
    rw [exec_store hstore, State.store, memWrite_of_bypassesD _ hb, hwrite]
    rfl
  · obtain ⟨v, dc, k, b, hbe, hv, hread, hdc⟩ := cachedRead_device_miss hr hk hl hmiss
    obtain ⟨hreg, hmoved, hin, hmem, hq⟩ := load_frame s rd v dc k b
      (⟨effective n base offset, n.bytes, none, b⟩ :: s.devLog) rfl
    refine ⟨_, v, b, hbe, ?_, hreg, hv, hmoved, hin, hmem, hq, rfl, rfl, rfl, hdc.imp id ?_⟩
    · rw [exec_load hload, State.load, memRead_of_cachesD hcached, hread]
      rfl
    · rintro ⟨hlock, o, rfl⟩
      refine ⟨hlock, mergePart n (effective n base offset) o v, ?_, fun j => find_put _ _ j _⟩
      rw [← partOf_toNat n _ _ hmod, partOf_mergePart n _ o v hmod hv]

/-! ### The instruction fetch (R72, R90) -/

/-- An aligned fetch that is not stale and that the instruction cache serves is a read through it. -/
theorem fetchWord_of_cacheable (ha : aligned s.pc = true) (hs : s.stale s.pc.toNat = false) (hw : s.window = none)
    (hc : CacheConfig.cacheable s.cfg.icache s.pc.toNat = true) (hice : s.msr.ice = true) :
    s.fetchWord = s.cachedFetch s.pc.toNat := by
  simp [State.fetchWord, ha, hs, hc, readFlag_closed s Msr.ice hw, hice]

/-- Settles O47: past the cache the fetch is a bus read, and through it one of the three cases of `cachedFetch`. -/
theorem fetchThroughInstructionCache : Obligations.FetchThroughInstructionCache := by
  intro s ha hs hw hfetch
  have hread := instrRead_storage s hfetch
  refine ⟨fun hb => ?_, fun hc hice => ?_⟩
  · rw [fetchWord_of_bypassesI ha hs (hb.imp id fun hice => ⟨hw, hice⟩), hread]
  rw [fetchWord_of_cacheable ha hs hw hc hice, State.cachedFetch, hread]
  cases Assoc.find s.icache (CacheConfig.lineOf s.cfg.icache s.pc.toNat) with
  | none => exact ⟨_, _, rfl, rfl⟩
  | some l =>
    dsimp only
    split
    · rfl
    · refine ⟨_, rfl, ?_⟩
      cases hlock : l.lock with
      | true => exact ⟨fun _ => rfl, rfl, fun j => by simp⟩
      | false => exact ⟨fun _ => rfl, rfl, fun j => by simp [State.fillILine, find_put]⟩

/-! ### The record of stores (R87) -/

theorem recorded_of_stored (h : t.stored = s.stored) (hr : s.recorded a) : t.recorded a := by
  unfold State.recorded at hr ⊢
  rwa [h]

/-- The event test keeps parameters, memory, the data cache and the record of stores. -/
theorem pollEvents_frame (s : State) : s.pollEvents.2.cfg = s.cfg ∧ s.pollEvents.2.mem = s.mem ∧
    s.pollEvents.2.dcache = s.dcache ∧ s.pollEvents.2.stored = s.stored := by
  rcases pollEvents_cases s with
    ⟨-, -, -, k, ⟨-, he⟩ | ⟨-, -, he⟩ | ⟨-, he⟩ | ⟨-, -, -, he⟩⟩ | ⟨-, k, he⟩ <;> rw [he] <;>
    exact ⟨rfl, rfl, rfl, rfl⟩

/-- Where the event test takes nothing it only draws. -/
theorem pollEvents_none (h : s.pollEvents.1 = false) : ∃ k, s.pollEvents.2 = { s with draws := k } := by
  rcases pollEvents_cases s with ⟨hev, -⟩ | ⟨-, he⟩
  · simp [h] at hev
  · exact he

theorem debugged_stored (h : t.stored = s.stored) : (s.debugged t).stored = s.stored := by
  unfold State.debugged
  split
  · exact h
  · rfl

/-- The environment keeps the record of stores: it is the core's own. -/
theorem host_stored (s : State) (h : HostAction) : (s.host h).stored = s.stored := by
  cases h with
  | post r => cases r <;> rfl
  | withdraw r => cases r <;> rfl
  | stop | resume | debugReg | debugPc | debugMsr | debugICache | debugDCache => exact debugged_stored rfl
  | assertReset | setInterrupt | pushFsl | popFsl | writeData | writeInstr => rfl

/-- A fetched instruction that completes was fetched and executed. -/
theorem fetchExec_next (h : s.fetchExec = .next t) :
    ∃ w u i, s.fetchWord = .next (w, u) ∧ exec i u = .next t := by
  obtain ⟨⟨w, u⟩, hw, he⟩ := bind_next h
  dsimp only at he
  split at he
  · next i _ => exact ⟨w, u, i, hw, he⟩
  · cases he

theorem fetchExec_recorded (hr : s.recorded a) (h : s.fetchExec = .next t) : t.recorded a := by
  obtain ⟨w, u, i, hw, he⟩ := fetchExec_next h
  obtain ⟨-, -, ic, k, rfl, -⟩ := fetchWord_next s hw
  exact exec_recorded he hr

/-- A step is a reset of a valid configuration, the stop, an event entry, or an instruction. -/
theorem step_next (h : step s = .next t) : Config.valid s.cfg = true ∧
    ((s.rst = true ∧ t = s.abandon.resetCore) ∨ (s.rst = false ∧ t = s) ∨ (s.rst = false ∧ t = s.pollEvents.2) ∨
      (s.rst = false ∧ s.pollEvents.1 = false ∧ s.pollEvents.2.fetchExec = .next t)) := by
  unfold step State.cycle at h
  split at h
  · cases h
  next hvalid =>
  refine ⟨by simpa using hvalid, ?_⟩
  split at h
  · next hrst => cases h; exact .inl ⟨hrst, rfl⟩
  next hrst =>
  have hrst' : s.rst = false := by simpa using hrst
  split at h
  · cases h; exact .inr (.inl ⟨hrst', rfl⟩)
  split at h
  · cases h; exact .inr (.inr (.inl ⟨hrst', rfl⟩))
  · next hev => exact .inr (.inr (.inr ⟨hrst', by simpa using hev, h⟩))

theorem stale_of_recorded (hr : s.recorded a) (hcoh : s.cfg.ifetchCoherent = false) : s.stale a = true := by
  unfold State.recorded at hr
  unfold State.stale
  split
  · next hnone => simp [hnone] at hr
  · simp [State.promised, hcoh]

/-- A store to shared storage records the word of its address. -/
theorem store_recorded {rd : RegNum} {base offset : Word} (hans : s.answers n (effective n base offset))
    (hshared : Config.sharedID s.cfg (effective n base offset) = true) (h : s.store n rd base offset = .next t) :
    t.recorded (effective n base offset) := by
  obtain ⟨u, hwrite, rfl⟩ := store_next s h
  obtain ⟨dc, k, b, hwrite', -⟩ := memWrite_storage s (s.reg rd) hans
  rw [hwrite'] at hwrite
  cases hwrite
  simp [State.recorded, hshared, find_put]

/-- Settles O48: stores put words on the record, only reset takes them off, and the fetch looks there first. -/
theorem fetchOfStoredWordRefused : Obligations.FetchOfStoredWordRefused := by
  refine ⟨?_, ?_, ?_, ?_⟩
  · intro s t n rd i base offset hstore hans hshared h
    exact store_recorded hans hshared (exec_store hstore ▸ h)
  · intro s t a hr hrst h
    obtain ⟨-, -, -, hstored⟩ := pollEvents_frame s
    have hpoll : s.pollEvents.2.recorded a := recorded_of_stored hstored hr
    obtain ⟨-, ⟨hrst', -⟩ | ⟨-, rfl⟩ | ⟨-, rfl⟩ | ⟨-, -, hf⟩⟩ := step_next h
    · simp [hrst] at hrst'
    · exact hr
    · exact hpoll
    · exact fetchExec_recorded hpoll hf
  · exact fun s h a hr => recorded_of_stored (host_stored s h) hr
  · intro s hr hcoh ha
    simp [State.fetchWord, ha, stale_of_recorded hr hcoh]

/-! ### Who writes memory (R73, R71) -/

/-- Settles O41: `Effect` gives memory only to the stores and instruction-side storage to none. -/
theorem onlyStoresChangeMemory : Obligations.OnlyStoresChangeMemory := by
  intro i s t h
  rcases exec_next h with rfl | ⟨u, hu, hend⟩
  · exact ⟨fun _ _ => rfl, fun _ => rfl⟩
  obtain ⟨-, -, hmem, himem, -⟩ := ending_frame hend
  refine ⟨fun hi a => ?_, fun a => by rw [himem, hu.imem]⟩
  rcases hu.mem with hsame | ⟨hstore, -⟩
  · rw [hmem, hsame]
  · simp [hi] at hstore

/-! ### Which words share a line (R88, R89) -/

theorem div_line (L x : Nat) : x / 2 ^ (L + 2) = x / 4 / 2 ^ L := by
  rw [Nat.div_div_eq_div_mul, Nat.pow_add, Nat.mul_comm]

/-- Two addresses of the cacheable window with the same line and tag lie in the same word: the window lies in one block of
as many bytes as line and tag can tell apart. -/
theorem word_eq_of_line_tag {c : CacheConfig} {b : Nat} (hc : CacheConfig.valid c = true)
    (ha : CacheConfig.cacheable c a = true) (hb : CacheConfig.cacheable c b = true)
    (hline : CacheConfig.lineOf c b = CacheConfig.lineOf c a) (htag : CacheConfig.tagOf c b = CacheConfig.tagOf c a) :
    b / 4 = a / 4 := by
  simp only [CacheConfig.cacheable, Bool.and_eq_true, decide_eq_true_eq] at ha hb
  obtain ⟨⟨huse, hbase⟩, hhigh⟩ := ha
  obtain ⟨⟨-, hbase'⟩, hhigh'⟩ := hb
  have hblock : c.base / 2 ^ (c.tagBits + CacheConfig.lineBits c + 2)
      = c.high / 2 ^ (c.tagBits + CacheConfig.lineBits c + 2) := by
    simp only [CacheConfig.valid, huse, Bool.not_true, Bool.false_or, Bool.and_eq_true, beq_iff_eq] at hc
    exact hc.2
  unfold CacheConfig.lineOf at hline
  unfold CacheConfig.tagOf at htag
  generalize CacheConfig.lineBits c = L at hblock hline htag
  have hsplit (x : Nat) : x / 2 ^ (c.tagBits + L + 2) = x / 4 / 2 ^ L / 2 ^ c.tagBits := by
    rw [Nat.div_div_eq_div_mul (x / 4), ← Nat.pow_add, Nat.add_comm L, div_line]
  have htop (x : Nat) (h1 : c.base ≤ x) (h2 : x ≤ c.high) :
      x / 2 ^ (c.tagBits + L + 2) = c.high / 2 ^ (c.tagBits + L + 2) :=
    Nat.le_antisymm (Nat.div_le_div_right h2) (hblock ▸ Nat.div_le_div_right h1)
  have hhi : b / 4 / 2 ^ L / 2 ^ c.tagBits = a / 4 / 2 ^ L / 2 ^ c.tagBits := by
    rw [← hsplit, ← hsplit, htop b hbase' hhigh', htop a hbase hhigh]
  rw [div_line, div_line] at htag
  have hmid : b / 4 / 2 ^ L = a / 4 / 2 ^ L := by
    rw [← Nat.div_add_mod (b / 4 / 2 ^ L) (2 ^ c.tagBits), hhi, htag, Nat.div_add_mod]
  rw [← Nat.div_add_mod (b / 4) (2 ^ L), hmid, hline, Nat.div_add_mod]

/-- The word of an address has its line and tag. -/
theorem lineOf_word (c : CacheConfig) (a : Nat) : CacheConfig.lineOf c (a / 4 * 4) = CacheConfig.lineOf c a := by
  simp [CacheConfig.lineOf]

theorem tagOf_word (c : CacheConfig) (a : Nat) : CacheConfig.tagOf c (a / 4 * 4) = CacheConfig.tagOf c a := by
  simp [CacheConfig.tagOf, div_line]

/-- A window of whole words has an address with its whole word or not at all. -/
theorem cacheable_word {c : CacheConfig} (hbase : c.base % 4 = 0) (hhigh : c.high % 4 = 3) (a : Nat) :
    CacheConfig.cacheable c (a / 4 * 4) = CacheConfig.cacheable c a := by
  rw [Bool.eq_iff_iff]
  simp only [CacheConfig.cacheable, Bool.and_eq_true, decide_eq_true_eq]
  constructor <;> rintro ⟨⟨huse, h1⟩, h2⟩ <;> exact ⟨⟨huse, by omega⟩, by omega⟩

/-! ### Coherence of the data cache (R92, R93) -/

/-- Coherence speaks of the geometry, the lines and memory only. -/
theorem State.Coherent.congr (h : s.Coherent) (hcfg : t.cfg = s.cfg) (hdc : t.dcache = s.dcache)
    (hmem : t.mem = s.mem) : t.Coherent := by
  unfold State.Coherent
  rw [hcfg, hdc, hmem]
  exact h

theorem tag_of_hits {l : CacheLine} {tag : Nat} (h : l.hits tag = true) : l.tag = tag := by
  simp only [CacheLine.hits, Bool.and_eq_true, beq_iff_eq] at h
  exact h.2

/-- What R93's invariant needs to be kept, and the invariant: a window of whole words in one block, canonical memory, and an
enabled data cache whose enable bit reads so. -/
structure State.WritesThrough (s : State) : Prop where
  valid : CacheConfig.valid s.cfg.dcache = true
  base : s.cfg.dcache.base % 4 = 0
  high : s.cfg.dcache.high % 4 = 3
  mem : Memory.wf s.mem = true
  window : s.window = none
  dce : s.msr.dce = true
  coherent : s.Coherent

/-- An access at one address keeps coherence when memory keeps every other word and each line afterwards either holds the
word of the address, or stood there before and does not stand for that word. -/
theorem State.WritesThrough.coherent_of_access (h : s.WritesThrough)
    (ha : CacheConfig.cacheable s.cfg.dcache a = true) (hcfg : t.cfg = s.cfg)
    (hmem : ∀ b, b % 4 = 0 → b ≠ a / 4 * 4 → Memory.readWord t.mem b = Memory.readWord s.mem b)
    (hlines : ∀ k l, Assoc.find t.dcache k = some l →
      (k = CacheConfig.lineOf s.cfg.dcache a ∧ l.tag = CacheConfig.tagOf s.cfg.dcache a ∧
        l.data = Memory.readWord t.mem (a / 4 * 4)) ∨
      (Assoc.find s.dcache k = some l ∧
        (k = CacheConfig.lineOf s.cfg.dcache a → l.hits (CacheConfig.tagOf s.cfg.dcache a) = false))) :
    t.Coherent := by
  intro b l hb hcb hfind hhit
  rw [hcfg] at hcb hfind hhit
  rcases hlines _ l hfind with ⟨hline, htag, hdata⟩ | ⟨hold, hother⟩
  · have hword : b / 4 = a / 4 := word_eq_of_line_tag h.valid ha hcb hline (by rw [← tag_of_hits hhit, htag])
    rw [hdata, ← hword, Nat.div_mul_cancel (Nat.dvd_of_mod_eq_zero hb)]
  · have hne : b ≠ a / 4 * 4 := by
      rintro rfl
      rw [tagOf_word, hother (lineOf_word _ a)] at hhit
      cases hhit
    rw [hmem b hb hne]
    exact h.coherent b l hb hcb hold hhit

section
variable (h : s.WritesThrough) (ha : CacheConfig.cacheable s.cfg.dcache a = true) (hcfg : t.cfg = s.cfg)
  (hmem : ∀ b, b % 4 = 0 → b ≠ a / 4 * 4 → Memory.readWord t.mem b = Memory.readWord s.mem b)
include h ha hcfg hmem

/-- An access that puts the word of its address in its line keeps coherence. -/
theorem State.WritesThrough.coherent_of_put {l : CacheLine} (htag : l.tag = CacheConfig.tagOf s.cfg.dcache a)
    (hdata : l.data = Memory.readWord t.mem (a / 4 * 4))
    (hdc : t.dcache = Assoc.put s.dcache (CacheConfig.lineOf s.cfg.dcache a) l) : t.Coherent := by
  refine h.coherent_of_access ha hcfg hmem fun k l' hfind => ?_
  rw [hdc, find_put] at hfind
  split at hfind
  · next hk =>
    cases hfind
    exact .inl ⟨hk, htag, hdata⟩
  · next hk => exact .inr ⟨hfind, fun hk' => absurd hk' hk⟩

/-- An access that leaves the lines alone keeps coherence where no line stands for its word. -/
theorem State.WritesThrough.coherent_of_no_hit (hdc : t.dcache = s.dcache)
    (hmiss : ∀ l, Assoc.find s.dcache (CacheConfig.lineOf s.cfg.dcache a) = some l →
      l.hits (CacheConfig.tagOf s.cfg.dcache a) = false) : t.Coherent := by
  refine h.coherent_of_access ha hcfg hmem fun k l hfind => .inr ?_
  rw [hdc] at hfind
  exact ⟨hfind, fun hk => hmiss l (hk ▸ hfind)⟩

end

section
variable {v : Word} (h : s.WritesThrough) (hfits : n.fits a) (hmod : a % n.bytes = 0) (hcfg : t.cfg = s.cfg)
  (hmem : t.mem = Memory.writeSize s.mem n a v)
include h hfits hmod hcfg hmem

/-- A store outside the cacheable window shares no word with it. -/
theorem State.WritesThrough.coherent_of_uncached_store (ha : CacheConfig.cacheable s.cfg.dcache a = false)
    (hdc : t.dcache = s.dcache) : t.Coherent := by
  intro b l hb hcb hfind hhit
  rw [hcfg] at hcb hfind hhit
  rw [hdc] at hfind
  have hne : b ≠ a / 4 * 4 := by
    rintro rfl
    rw [cacheable_word h.base h.high, ha] at hcb
    cases hcb
  rw [hmem, readWord_writeSize_other v h.mem hfits hmod hb hne]
  exact h.coherent b l hb hcb hfind hhit

/-- A store through the data cache does to a line what it does to memory. -/
theorem State.WritesThrough.coherent_of_cached_store (ha : CacheConfig.cacheable s.cfg.dcache a = true)
    (hline : s.CachedWrite n a v t.dcache) : t.Coherent := by
  have hword : Memory.readWord t.mem (a / 4 * 4) = mergePart n a (Memory.readWord s.mem (a / 4 * 4)) v := by
    rw [hmem, readWord_writeSize v h.mem hfits]
  have hrest (b : Nat) (hb : b % 4 = 0) (hne : b ≠ a / 4 * 4) : Memory.readWord t.mem b = Memory.readWord s.mem b := by
    rw [hmem, readWord_writeSize_other v h.mem hfits hmod hb hne]
  unfold State.CachedWrite at hline
  cases hold : Assoc.find s.dcache (CacheConfig.lineOf s.cfg.dcache a) with
  | none =>
    have hdc : t.dcache = s.dcache := by simpa only [hold] using hline
    exact h.coherent_of_no_hit ha hcfg hrest hdc fun l hl => by simp [hold] at hl
  | some old =>
    simp only [hold] at hline
    split at hline
    · next hhit =>
      have hdata : old.data = Memory.readWord s.mem (a / 4 * 4) :=
        h.coherent (a / 4 * 4) old (Nat.mul_mod_left _ _) (by rw [cacheable_word h.base h.high, ha])
          (by rw [lineOf_word, hold]) (by rw [tagOf_word, hhit])
      exact h.coherent_of_put (l := { old with data := mergePart n a old.data v }) ha hcfg hrest (tag_of_hits hhit)
        (by rw [hword, ← hdata]) hline
    · next hmiss =>
      rcases hline with hdc | ⟨rfl, -, hdc⟩
      · refine h.coherent_of_no_hit ha hcfg hrest hdc fun l hl => ?_
        obtain rfl : old = l := Option.some.inj (hold.symm.trans hl)
        simpa using hmiss
      · exact h.coherent_of_put ha hcfg hrest rfl (by rw [hword, mergePart_word _ v hmod]) hdc

end

/-! ### Coherence under every instruction -/

/-- Memory, not a device, answers an access in the cacheable window. -/
def State.noCachedDevice (s : State) (n : Size) (a : Nat) : Prop :=
  CacheConfig.cacheable s.cfg.dcache a = true → ∀ r, Config.dataRegion s.cfg n a = some r → r.kind ≠ .device

section
variable {rd : RegNum} {base offset : Word} (h : s.WritesThrough)
  (hdev : s.noCachedDevice n (effective n base offset))
include h hdev

theorem State.WritesThrough.coherent_of_load (hl : s.load n rd base offset = .next t) : t.Coherent := by
  obtain ⟨v, u, hread, rfl⟩ := load_next s hl
  obtain ⟨-, dc, k, b, log, rfl, rfl | ⟨hc, w, hw, rfl⟩⟩ := memRead_next s hread
  · exact h.coherent.congr rfl rfl rfl
  · obtain rfl : w = _ := hw.memory (hdev hc)
    exact h.coherent_of_put hc rfl (fun _ _ _ => rfl) rfl rfl rfl

theorem State.WritesThrough.coherent_of_store (hs : s.store n rd base offset = .next t) : t.Coherent := by
  have hfits := effective_fits n base offset
  have hmod := effective_mod n base offset
  obtain ⟨u, hwrite, rfl⟩ := store_next s hs
  cases hc : CacheConfig.cacheable s.cfg.dcache (effective n base offset) with
  | true =>
    have hans : s.answers n (effective n base offset) := by
      obtain ⟨_, hbus, -⟩ := bind_next hwrite
      obtain ⟨r, -, -, hr, -⟩ := busWrite_next s hbus
      exact ⟨r, hr, hdev hc r hr⟩
    obtain ⟨dc, k, b, hwrite', -, ⟨hnot, -⟩ | ⟨-, hline⟩⟩ := memWrite_storage s (s.reg rd) hans
    · exact absurd ⟨hc, h.window, h.dce⟩ hnot
    · rw [hwrite'] at hwrite
      cases hwrite
      exact h.coherent_of_cached_store hfits hmod rfl rfl hc hline
  | false =>
    rw [memWrite_of_bypassesD _ (.inl hc)] at hwrite
    obtain ⟨_, _, _, -, -, ⟨-, rfl⟩ | ⟨-, rfl⟩⟩ := busWrite_next s hwrite
    · exact h.coherent_of_uncached_store hfits hmod rfl rfl hc rfl
    · exact h.coherent.congr rfl rfl rfl

end

theorem usesDCache_of_isStore (h : Instr.isStore i = true) : Instr.usesDCache i = true := by
  cases i <;> cases h <;> rfl

/-- `wdc` does not complete with the data cache enabled. -/
theorem wdc_not_next {ra rb : RegNum} (hw : s.window = none) (hdce : s.msr.dce = true) :
    exec (.wdc ra rb) s ≠ .next t := by
  intro he
  obtain ⟨-, he⟩ := needs_next t he
  simp [readFlag_closed s Msr.dce hw, hdce] at he

theorem State.WritesThrough.coherent_of_exec (h : s.WritesThrough)
    (hdev : ∀ n rd base offset, IsLoad s n rd i base offset ∨ IsStore s n rd i base offset →
      s.noCachedDevice n (effective n base offset))
    (he : exec i s = .next t) : t.Coherent := by
  by_cases huse : Instr.usesDCache i = true
  · rcases usesDCache_cases s huse with ⟨n, rd, base, offset, hl⟩ | ⟨n, rd, base, offset, hs⟩ | ⟨ra, rb, rfl⟩
    · exact h.coherent_of_load (hdev _ _ _ _ (.inl hl)) (exec_load hl ▸ he)
    · exact h.coherent_of_store (hdev _ _ _ _ (.inr hs)) (exec_store hs ▸ he)
    · exact absurd he (wdc_not_next h.window h.dce)
  · rcases exec_next he with rfl | ⟨u, hu, hend⟩
    · exact h.coherent
    · obtain ⟨hcfg, -, hmem, -, -, hdc, -⟩ := ending_frame hend
      have hudc : u.dcache = s.dcache := hu.dcache.resolve_right fun hx => huse hx.1
      have humem : u.mem = s.mem := hu.mem.resolve_right fun hx => huse (usesDCache_of_isStore hx.1)
      exact h.coherent.congr (hcfg.trans hu.cfg) (hdc.trans hudc) (hmem.trans humem)

/-- Every instruction keeps the configuration, and memory canonical. -/
theorem exec_cfg_mem (he : exec i s = .next t) :
    t.cfg = s.cfg ∧ (Memory.wf s.mem = true → Memory.wf t.mem = true) := by
  rcases exec_next he with rfl | ⟨u, hu, hend⟩
  · exact ⟨rfl, id⟩
  obtain ⟨hcfg, -, hmem, -⟩ := ending_frame hend
  refine ⟨hcfg.trans hu.cfg, fun hm => ?_⟩
  rw [hmem]
  rcases hu.mem with hsame | ⟨-, n, a, v, hfits, hwrite⟩
  · rwa [hsame]
  · rw [hwrite]
    exact writeSize_wf n v hm hfits

/-- Only the explicit MSR writes leave a write window open. -/
theorem Ending.window_of_not_writesMsr (he : Ending i u t) (hi : Instr.writesMsr i = false) : t.window = none := by
  cases he with
  | goOn ht => subst ht; rfl
  | jump target _ _ ht => subst ht; rfl
  | delay d _ _ ht => subst ht; rfl
  | msr m hwrites _ _ => simp [hi] at hwrites
  | lock v _ _ ht => subst ht; rfl

theorem exec_window (hw : s.window = none) (hi : Instr.writesMsr i = false) (he : exec i s = .next t) :
    t.window = none := by
  rcases exec_next he with rfl | ⟨u, -, hend⟩
  · exact hw
  · exact hend.window_of_not_writesMsr hi

/-! ### Coherence under every step -/

/-- Reset makes every line unwritten, so none is left to differ from memory. -/
theorem resetCore_coherent (s : State) : s.resetCore.Coherent := by
  intro a l _ _ hfind _
  simp [State.resetCore, Assoc.find] at hfind

theorem fetchExec_cfg_mem (h : s.fetchExec = .next t) :
    t.cfg = s.cfg ∧ (Memory.wf s.mem = true → Memory.wf t.mem = true) := by
  obtain ⟨w, u, i, hw, he⟩ := fetchExec_next h
  obtain ⟨-, -, ic, k, rfl, -⟩ := fetchWord_next s hw
  obtain ⟨hcfg, hmem⟩ := exec_cfg_mem he
  exact ⟨hcfg, hmem⟩

/-- An instruction that a reset meets was done in full, or not at all. -/
theorem abandon_cases (s : State) :
    (∃ k, s.abandon = { s with draws := k }) ∨ s.drawBit.2.fetchExec = .next s.abandon := by
  unfold State.abandon
  split
  · exact .inl ⟨s.draws, rfl⟩
  · dsimp only
    split
    · split
      · next t ht => exact .inr ht
      · exact .inl ⟨_, rfl⟩
      · exact .inl ⟨_, rfl⟩
    · exact .inl ⟨_, rfl⟩

theorem abandon_cfg_mem (s : State) :
    s.abandon.cfg = s.cfg ∧ (Memory.wf s.mem = true → Memory.wf s.abandon.mem = true) := by
  rcases abandon_cases s with ⟨k, h⟩ | h
  · rw [h]
    exact ⟨rfl, id⟩
  · obtain ⟨hcfg, hmem⟩ := fetchExec_cfg_mem h
    exact ⟨hcfg, hmem⟩

theorem State.WritesThrough.coherent_of_fetchExec (h : s.WritesThrough) (hdev : ∀ n a, s.noCachedDevice n a)
    (hf : s.fetchExec = .next t) : t.Coherent := by
  obtain ⟨w, u, i, hw, he⟩ := fetchExec_next hf
  obtain ⟨-, -, ic, k, rfl, -⟩ := fetchWord_next s hw
  have hu : State.WritesThrough { s with icache := ic, draws := k } :=
    { h with coherent := h.coherent.congr rfl rfl rfl }
  exact hu.coherent_of_exec (fun n _ base offset _ => hdev n (effective n base offset)) he

theorem State.WritesThrough.of_step (h : s.WritesThrough) (hdev : ∀ n a, s.noCachedDevice n a)
    (hs : step s = .next t) : t.Coherent ∧ Memory.wf t.mem = true ∧ t.cfg = s.cfg := by
  obtain ⟨hpcfg, hpmem, hpdc, -⟩ := pollEvents_frame s
  obtain ⟨-, ⟨-, rfl⟩ | ⟨-, rfl⟩ | ⟨-, rfl⟩ | ⟨-, hev, hf⟩⟩ := step_next hs
  · obtain ⟨hcfg, hmem⟩ := abandon_cfg_mem s
    exact ⟨resetCore_coherent _, hmem h.mem, hcfg⟩
  · exact ⟨h.coherent, h.mem, rfl⟩
  · exact ⟨h.coherent.congr hpcfg hpdc hpmem, hpmem ▸ h.mem, hpcfg⟩
  · obtain ⟨k, hpoll⟩ := pollEvents_none hev
    rw [hpoll] at hf
    have hk : State.WritesThrough { s with draws := k } := { h with coherent := h.coherent.congr rfl rfl rfl }
    obtain ⟨hcfg, hmem⟩ := fetchExec_cfg_mem hf
    exact ⟨hk.coherent_of_fetchExec hdev hf, hmem h.mem, hcfg⟩

theorem dcache_valid {c : Config} (h : Config.valid c = true) : CacheConfig.valid c.dcache = true := by
  simp only [Config.valid, Bool.and_eq_true] at h
  obtain ⟨⟨⟨⟨-, hdcache⟩, -⟩, -⟩, -⟩ := h
  exact hdcache

/-- Settles O24: an instruction that may change the data cache is a load, a store or the refused `wdc`; a step is an
instruction, an event, a stop or a reset that empties the cache. -/
theorem writeThroughKeepsCacheCoherent : Obligations.WriteThroughKeepsCacheCoherent := by
  refine ⟨fun i s t hvalid hm hbase hhigh hw hdce hdev hcoh he => ?_, fun s t hm hbase hhigh hw hdce hdev hcoh hs => ?_⟩
  · have h : s.WritesThrough := ⟨dcache_valid hvalid, hbase, hhigh, hm, hw, hdce, hcoh⟩
    obtain ⟨hcfg, hmem⟩ := exec_cfg_mem he
    have hcoh' : t.Coherent := h.coherent_of_exec (fun n rd base offset hi hc r => hdev n rd base offset r hi hc) he
    refine ⟨hcoh', hmem hm, hcfg, fun hi => ?_⟩
    obtain ⟨hdce', -⟩ := msrWriters i s t he hi
    exact ⟨exec_window hw hi he, hdce'.trans hdce⟩
  · obtain ⟨hvalid, -⟩ := step_next hs
    have h : s.WritesThrough := ⟨dcache_valid hvalid, hbase, hhigh, hm, hw, hdce, hcoh⟩
    exact h.of_step (fun n a hc r => hdev n a r hc) hs

end Sys2Proof.Machine
end

section
/-! PROOFS. The encoding family: the word of an instruction and the instruction of a word (30_encoding), the immediate operand
and the arithmetic that uses it, and the refusal of absent options. Each decoder is read in both directions: from a word
built of its fields to the instruction, and from an instruction it answers back to the word. -/

namespace Sys2Proof

variable {c : Config} {w : Word} {i : Instr}

/-! ### Operand fields of built words (R106, R110, R112, R114) -/

@[simp] theorem specOf_specBit (r : SpecReg) : specOf (specBit r) = r := by cases r <;> rfl

theorem specBit_specOf (b : BitVec 1) : specBit (specOf b) = b := by
  revert b
  decide

section
variable (st : BitVec 2) (amount : BitVec 5)

@[simp] theorem shiftField_kind : (shiftField st amount).extractLsb' 9 2 = st := by
  rw [shiftField, field_high (by decide), field_high (by decide)]
  exact BitVec.extractLsb'_eq_self

@[simp] theorem shiftField_zeros : (shiftField st amount).extractLsb' 5 4 = 0#4 := by
  rw [shiftField, field_high (by decide), field_low (by decide)]
  exact BitVec.extractLsb'_eq_self

@[simp] theorem shiftField_amount : (shiftField st amount).extractLsb' 0 5 = amount := by
  rw [shiftField, field_low (by decide)]
  exact BitVec.extractLsb'_eq_self

end

section
variable (kind : BitVec 3) (ch : Channel)

@[simp] theorem fslField_kind : (fslField kind ch).extractLsb' 13 3 = kind := by
  rw [fslField, field_high (by decide), field_high (by decide)]
  exact BitVec.extractLsb'_eq_self

@[simp] theorem fslField_zeros : (fslField kind ch).extractLsb' 3 10 = 0#10 := by
  rw [fslField, field_high (by decide), field_low (by decide)]
  exact BitVec.extractLsb'_eq_self

@[simp] theorem fslField_channel : (fslField kind ch).extractLsb' 0 3 = ch := by
  rw [fslField, field_low (by decide)]
  exact BitVec.extractLsb'_eq_self

end

section
variable (kind : BitVec 2) (r : SpecReg)

@[simp] theorem specField_kind : (specField kind r).extractLsb' 14 2 = kind := by
  rw [specField, field_high (by decide), field_high (by decide)]
  exact BitVec.extractLsb'_eq_self

@[simp] theorem specField_zeros : (specField kind r).extractLsb' 1 13 = 0#13 := by
  rw [specField, field_high (by decide), field_low (by decide)]
  exact BitVec.extractLsb'_eq_self

@[simp] theorem specField_selector : (specField kind r).extractLsb' 0 1 = specBit r := by
  rw [specField, field_low (by decide)]
  exact BitVec.extractLsb'_eq_self

@[simp] theorem specField_msb : (specField kind r).msb = kind.msb := by
  rw [specField, BitVec.msb_append, if_neg (by decide), BitVec.msb_append, if_neg (by decide)]

end

/-! ### Operand fields rebuilt from their parts -/

theorem shiftField_of_parts {f : BitVec 11} {st : BitVec 2} (hst : f.extractLsb' 9 2 = st)
    (hz : f.extractLsb' 5 4 = 0#4) : shiftField st (f.extractLsb' 0 5) = f := by
  rw [shiftField, ← hst, ← hz, BitVec.extractLsb'_append_extractLsb'_eq_extractLsb' (by decide),
    BitVec.extractLsb'_append_extractLsb'_eq_extractLsb' (by decide)]
  exact BitVec.extractLsb'_eq_self

theorem fslField_of_parts {v : Imm16} {kind : BitVec 3} (hk : v.extractLsb' 13 3 = kind)
    (hz : v.extractLsb' 3 10 = 0#10) : fslField kind (v.extractLsb' 0 3) = v := by
  rw [fslField, ← hk, ← hz, BitVec.extractLsb'_append_extractLsb'_eq_extractLsb' (by decide),
    BitVec.extractLsb'_append_extractLsb'_eq_extractLsb' (by decide)]
  exact BitVec.extractLsb'_eq_self

theorem specField_of_parts {v : Imm16} {kind : BitVec 2} (hk : v.extractLsb' 14 2 = kind)
    (hz : v.extractLsb' 1 13 = 0#13) : specField kind (specOf (v.extractLsb' 0 1)) = v := by
  rw [specField, specBit_specOf, ← hk, ← hz, BitVec.extractLsb'_append_extractLsb'_eq_extractLsb' (by decide),
    BitVec.extractLsb'_append_extractLsb'_eq_extractLsb' (by decide)]
  exact BitVec.extractLsb'_eq_self

/-! ### The two placements of `msrset` and `msrclr` (R119) -/

theorem not_msrPrinted_of_msrGnu (h : c.msrGnu = true) : c.msrPrinted = false := by
  simp only [Config.msrGnu, Config.msrPrinted] at h ⊢
  cases he : c.msrEncoding <;> simp_all

theorem encodeMsr_of_msrPrinted (h : c.msrPrinted = true) (kind rd : RegNum) (imm : Imm16) :
    encodeMsr c kind rd imm = typeB 0b011000#6 rd kind imm := by
  have hg : c.msrGnu ≠ true := fun hg => by simp [not_msrPrinted_of_msrGnu hg] at h
  exact if_neg hg

theorem encodeMsr_of_msrGnu (h : c.msrGnu = true) (kind rd : RegNum) (imm : Imm16) :
    encodeMsr c kind rd imm = typeB 0b100101#6 rd kind imm := if_pos h

theorem msrEncodable_iff (imm : Imm16) :
    msrEncodable c imm = true ↔ c.msrPrinted = true ∨ (c.msrGnu = true ∧ imm.msb = false) := by
  simp [msrEncodable]

theorem muliEncodable_iff (ra : RegNum) :
    muliEncodable c ra = true ↔ ¬(c.msrPrinted = true ∧ ra = 16#5) ∧ ¬(c.msrPrinted = true ∧ ra = 17#5) := by
  simp only [muliEncodable]
  cases c.msrPrinted <;> simp

theorem idivuCode_ne_zero (c : Config) : idivuCode c ≠ 0#11 := by
  unfold idivuCode
  split <;> decide

/-! ### The primary opcodes whose rows have a decoder of their own (R107) -/

theorem decodeWord_eq_decodeRsubk (h : opcodeOf w = 0b000101#6) : decodeWord c w = decodeRsubk w := by
  rw [decodeWord, h]
  rfl

theorem decodeWord_eq_decodeBarrel (h : opcodeOf w = 0b010001#6) : decodeWord c w = decodeBarrel w := by
  rw [decodeWord, h]
  rfl

theorem decodeWord_eq_decodeDivide (h : opcodeOf w = 0b010010#6) : decodeWord c w = decodeDivide c w := by
  rw [decodeWord, h]
  rfl

theorem decodeWord_eq_decodeMuli (h : opcodeOf w = 0b011000#6) : decodeWord c w = decodeMuli c w := by
  rw [decodeWord, h]
  rfl

theorem decodeWord_eq_decodeBarrelImm (h : opcodeOf w = 0b011001#6) : decodeWord c w = decodeBarrelImm w := by
  rw [decodeWord, h]
  rfl

theorem decodeWord_eq_decodeFsl (h : opcodeOf w = 0b011011#6) : decodeWord c w = decodeFsl w := by
  rw [decodeWord, h]
  rfl

theorem decodeWord_eq_decodeShift (h : opcodeOf w = 0b100100#6) : decodeWord c w = decodeShift w := by
  rw [decodeWord, h]
  rfl

theorem decodeWord_eq_decodeSpecial (h : opcodeOf w = 0b100101#6) : decodeWord c w = decodeSpecial c w := by
  rw [decodeWord, h]
  rfl

theorem decodeWord_eq_decodeBr (h : opcodeOf w = 0b100110#6) : decodeWord c w = decodeBr w := by
  rw [decodeWord, h]
  rfl

theorem decodeWord_eq_decodeCond (h : opcodeOf w = 0b100111#6) : decodeWord c w = decodeCond w := by
  rw [decodeWord, h]
  rfl

theorem decodeWord_eq_decodeImm (h : opcodeOf w = 0b101100#6) : decodeWord c w = decodeImm w := by
  rw [decodeWord, h]
  rfl

theorem decodeWord_eq_decodeReturn (h : opcodeOf w = 0b101101#6) : decodeWord c w = decodeReturn w := by
  rw [decodeWord, h]
  rfl

theorem decodeWord_eq_decodeBri (h : opcodeOf w = 0b101110#6) : decodeWord c w = decodeBri w := by
  rw [decodeWord, h]
  rfl

theorem decodeWord_eq_decodeCondImm (h : opcodeOf w = 0b101111#6) : decodeWord c w = decodeCondImm w := by
  rw [decodeWord, h]
  rfl

theorem plainA_typeA (op : BitVec 6) (rd ra rb : RegNum) (k : RegNum → RegNum → RegNum → Instr) :
    plainA (typeA op rd ra rb 0#11) k = .ok (k rd ra rb) := by
  simp [plainA]

theorem plainB_typeB (op : BitVec 6) (rd ra : RegNum) (imm : Imm16) (k : RegNum → RegNum → Imm16 → Instr) :
    plainB (typeB op rd ra imm) k = .ok (k rd ra imm) := by
  simp [plainB]

/-! ### From the instruction to its word and back -/

/-- The cache writes are told from the shifts and sign extensions, whose rows fix all 16 bits, by their function (R113). -/
theorem append_func_eq_iff (rb : RegNum) (f : BitVec 11) (v : Imm16) :
    rb ++ f = v ↔ rb = v.extractLsb' 11 5 ∧ f = v.extractLsb' 0 11 := by
  constructor
  · rintro rfl
    rw [field_high (by decide), field_low (by decide)]
    exact ⟨BitVec.extractLsb'_eq_self.symm, BitVec.extractLsb'_eq_self.symm⟩
  · rintro ⟨rfl, rfl⟩
    rw [BitVec.extractLsb'_append_extractLsb'_eq_extractLsb' (by decide)]
    exact BitVec.extractLsb'_eq_self

/-- Settles O57, along the groups of rows that share a decoder: each reads back the fields its row wrote. -/
theorem decodeInvertsEncode : Obligations.DecodeInvertsEncode := by
  intro c i h
  cases i with
  | add | rsub | addc | rsubc | addk | addkc | rsubkc | mul | or | and | xor | andn | lbu | lhu | lw | sb | sh | sw =>
    rw [encode, decodeWord, opcodeOf_typeA]
    exact plainA_typeA ..
  | addi | rsubi | addic | rsubic | addik | rsubik | addikc | rsubikc | ori | andi | xori | andni | lbui | lhui | lwi | sbi
    | shi | swi =>
    rw [encode, decodeWord, opcodeOf_typeB]
    exact plainB_typeB ..
  | rsubk | cmp | cmpu => simp [encode, decodeWord_eq_decodeRsubk, decodeRsubk]
  | bsrl | bsra | bsll => simp [encode, decodeWord_eq_decodeBarrel, decodeBarrel]
  | bsrli | bsrai | bslli => simp [encode, decodeWord_eq_decodeBarrelImm, decodeBarrelImm]
  | idiv | idivu => simp [encode, decodeWord_eq_decodeDivide, decodeDivide, idivuCode_ne_zero]
  | muli rd ra imm =>
    obtain ⟨hset, hclr⟩ := (muliEncodable_iff ra).1 h
    simp [encode, decodeWord_eq_decodeMuli, decodeMuli, hset, hclr]
  | get | nget | cget | ncget => simp [encode, decodeWord_eq_decodeFsl, decodeFsl, getRow]
  | put | nput | cput | ncput => simp [encode, decodeWord_eq_decodeFsl, decodeFsl, putRow]
  | sra | src | srl | sext8 | sext16 => simp [encode, decodeWord_eq_decodeShift, decodeShift]
  | wic | wdc => simp [encode, decodeWord_eq_decodeShift, decodeShift, append_func_eq_iff]
  | mfs => simp [encode, decodeWord_eq_decodeSpecial, decodeSpecial]
  | mts =>
    have hbit15 : (0b11#2).msb = true := rfl
    simp [encode, decodeWord_eq_decodeSpecial, decodeSpecial, hbit15]
  | msrset rd imm | msrclr rd imm =>
    rcases (msrEncodable_iff imm).1 h with hp | ⟨hg, hbit15⟩
    · simp [encode, encodeMsr_of_msrPrinted hp, decodeWord_eq_decodeMuli, decodeMuli, hp]
    · simp [encode, encodeMsr_of_msrGnu hg, decodeWord_eq_decodeSpecial, decodeSpecial, hg, hbit15]
  | br | brd | bra | brad => simp [encode, decodeWord_eq_decodeBr, decodeBr, noLink]
  | brld | brald | brk => simp [encode, decodeWord_eq_decodeBr, decodeBr]
  | bri | brid | brai | braid => simp [encode, decodeWord_eq_decodeBri, decodeBri, noLink]
  | brlid | bralid | brki => simp [encode, decodeWord_eq_decodeBri, decodeBri]
  | beq | bne | blt | ble | bgt | bge | beqd | bned | bltd | bled | bgtd | bged =>
    simp [encode, decodeWord_eq_decodeCond, decodeCond]
  | beqi | bnei | blti | blei | bgti | bgei | beqid | bneid | bltid | bleid | bgtid | bgeid =>
    simp [encode, decodeWord_eq_decodeCondImm, decodeCondImm]
  | imm => simp [encode, decodeWord_eq_decodeImm, decodeImm]
  | rtsd | rtid | rtbd => simp [encode, decodeWord_eq_decodeReturn, decodeReturn]

/-! ### From a word to its instruction and back -/

theorem typeA_of_fields {op : BitVec 6} {rd ra rb : RegNum} {f : BitVec 11} (hop : opcodeOf w = op) (hrd : rdOf w = rd)
    (hra : raOf w = ra) (hrb : rbOf w = rb) (hf : funcOf w = f) : typeA op rd ra rb f = w := by
  subst hop hrd hra hrb hf
  exact typeA_fields w

theorem typeB_of_fields {op : BitVec 6} {rd ra : RegNum} {imm : Imm16} (hop : opcodeOf w = op) (hrd : rdOf w = rd)
    (hra : raOf w = ra) (himm : immOf w = imm) : typeB op rd ra imm = w := by
  subst hop hrd hra himm
  exact typeB_fields w

/-- The word is the encoding of the well-formed instruction. -/
def Encodes (c : Config) (w : Word) (i : Instr) : Prop := WellFormed c i = true ∧ encode c i = w

theorem plainA_encodes {op : Nat} {k : RegNum → RegNum → RegNum → Instr} (h : plainA w k = .ok i)
    (hop : (opcodeOf w).toNat = op) (hwf : ∀ rd ra rb, WellFormed c (k rd ra rb) = true)
    (henc : ∀ rd ra rb, encode c (k rd ra rb) = typeA (BitVec.ofNat 6 op) rd ra rb 0#11) : Encodes c w i := by
  subst hop
  unfold plainA at h
  split at h <;> cases h
  next hf => exact ⟨hwf .., (henc ..).trans (typeA_of_fields (by simp) rfl rfl rfl hf)⟩

theorem plainB_encodes {op : Nat} {k : RegNum → RegNum → Imm16 → Instr} (h : plainB w k = .ok i)
    (hop : (opcodeOf w).toNat = op) (hwf : ∀ rd ra imm, WellFormed c (k rd ra imm) = true)
    (henc : ∀ rd ra imm, encode c (k rd ra imm) = typeB (BitVec.ofNat 6 op) rd ra imm) : Encodes c w i := by
  subst hop
  cases h
  exact ⟨hwf .., (henc ..).trans (typeB_of_fields (by simp) rfl rfl rfl)⟩

theorem decodeRsubk_encodes (hop : opcodeOf w = 0b000101#6) (h : decodeRsubk w = .ok i) : Encodes c w i := by
  unfold decodeRsubk at h
  split_ifs at h with hrsubk hcmp hcmpu <;> cases h
  · exact ⟨rfl, typeA_of_fields hop rfl rfl rfl hrsubk⟩
  · exact ⟨rfl, typeA_of_fields hop rfl rfl rfl hcmp⟩
  · exact ⟨rfl, typeA_of_fields hop rfl rfl rfl hcmpu⟩

theorem decodeBarrel_encodes (hop : opcodeOf w = 0b010001#6) (h : decodeBarrel w = .ok i) : Encodes c w i := by
  unfold decodeBarrel at h
  split_ifs at h with hbsrl hbsra hbsll <;> cases h
  · exact ⟨rfl, typeA_of_fields hop rfl rfl rfl hbsrl⟩
  · exact ⟨rfl, typeA_of_fields hop rfl rfl rfl hbsra⟩
  · exact ⟨rfl, typeA_of_fields hop rfl rfl rfl hbsll⟩

theorem decodeDivide_encodes (hop : opcodeOf w = 0b010010#6) (h : decodeDivide c w = .ok i) : Encodes c w i := by
  unfold decodeDivide at h
  split_ifs at h with hidiv hidivu <;> cases h
  · exact ⟨rfl, typeA_of_fields hop rfl rfl rfl hidiv⟩
  · exact ⟨rfl, typeA_of_fields hop rfl rfl rfl hidivu⟩

theorem decodeMuli_encodes (hop : opcodeOf w = 0b011000#6) (h : decodeMuli c w = .ok i) : Encodes c w i := by
  unfold decodeMuli at h
  split_ifs at h with hset hclr <;> cases h
  · obtain ⟨hp, hra⟩ := hset
    exact ⟨(msrEncodable_iff _).2 (.inl hp), (encodeMsr_of_msrPrinted hp ..).trans (typeB_of_fields hop rfl hra rfl)⟩
  · obtain ⟨hp, hra⟩ := hclr
    exact ⟨(msrEncodable_iff _).2 (.inl hp), (encodeMsr_of_msrPrinted hp ..).trans (typeB_of_fields hop rfl hra rfl)⟩
  · exact ⟨(muliEncodable_iff _).2 ⟨hset, hclr⟩, typeB_of_fields hop rfl rfl rfl⟩

theorem decodeBarrelImm_encodes (hop : opcodeOf w = 0b011001#6) (h : decodeBarrelImm w = .ok i) : Encodes c w i := by
  have row {st : BitVec 2} (hz : ¬(rbOf w ≠ 0#5 ∨ (funcOf w).extractLsb' 5 4 ≠ 0#4))
      (hst : (funcOf w).extractLsb' 9 2 = st) :
      typeA 0b011001#6 (rdOf w) (raOf w) 0#5 (shiftField st ((funcOf w).extractLsb' 0 5)) = w := by
    obtain ⟨hrb, hzeros⟩ := not_or.1 hz
    exact typeA_of_fields hop rfl rfl (not_not.1 hrb) (shiftField_of_parts hst (not_not.1 hzeros)).symm
  unfold decodeBarrelImm at h
  split_ifs at h with hz hbsrli hbsrai hbslli <;> cases h
  · exact ⟨rfl, row hz hbsrli⟩
  · exact ⟨rfl, row hz hbsrai⟩
  · exact ⟨rfl, row hz hbslli⟩

theorem getRow_encodes {kind : BitVec 3} {k : RegNum → Channel → Instr} (h : getRow w k = .ok i)
    (hop : opcodeOf w = 0b011011#6) (hz : (immOf w).extractLsb' 3 10 = 0#10)
    (hkind : ((immOf w).extractLsb' 13 3).toNat = kind.toNat) (hwf : ∀ rd ch, WellFormed c (k rd ch) = true)
    (henc : ∀ rd ch, encode c (k rd ch) = typeB 0b011011#6 rd 0#5 (fslField kind ch)) : Encodes c w i := by
  unfold getRow at h
  split at h <;> cases h
  next hra =>
    have himm := fslField_of_parts (BitVec.eq_of_toNat_eq hkind) hz
    exact ⟨hwf .., (henc ..).trans (typeB_of_fields hop rfl hra himm.symm)⟩

theorem putRow_encodes {kind : BitVec 3} {k : RegNum → Channel → Instr} (h : putRow w k = .ok i)
    (hop : opcodeOf w = 0b011011#6) (hz : (immOf w).extractLsb' 3 10 = 0#10)
    (hkind : ((immOf w).extractLsb' 13 3).toNat = kind.toNat) (hwf : ∀ ra ch, WellFormed c (k ra ch) = true)
    (henc : ∀ ra ch, encode c (k ra ch) = typeB 0b011011#6 0#5 ra (fslField kind ch)) : Encodes c w i := by
  unfold putRow at h
  split at h <;> cases h
  next hrd =>
    have himm := fslField_of_parts (BitVec.eq_of_toNat_eq hkind) hz
    exact ⟨hwf .., (henc ..).trans (typeB_of_fields hop hrd rfl himm.symm)⟩

theorem toNat_eq_seven {b : BitVec 3} (h0 : b.toNat ≠ 0) (h1 : b.toNat ≠ 1) (h2 : b.toNat ≠ 2) (h3 : b.toNat ≠ 3)
    (h4 : b.toNat ≠ 4) (h5 : b.toNat ≠ 5) (h6 : b.toNat ≠ 6) : b.toNat = 7 := by
  have hlt := b.isLt
  omega

theorem decodeFsl_encodes (hop : opcodeOf w = 0b011011#6) (h : decodeFsl w = .ok i) : Encodes c w i := by
  unfold decodeFsl at h
  split at h
  · cases h
  next hz =>
    have hz := not_not.1 hz
    split at h
    next hk => exact getRow_encodes (kind := 0b000#3) h hop hz hk (fun _ _ => rfl) (fun _ _ => rfl)
    next hk => exact getRow_encodes (kind := 0b001#3) h hop hz hk (fun _ _ => rfl) (fun _ _ => rfl)
    next hk => exact getRow_encodes (kind := 0b010#3) h hop hz hk (fun _ _ => rfl) (fun _ _ => rfl)
    next hk => exact getRow_encodes (kind := 0b011#3) h hop hz hk (fun _ _ => rfl) (fun _ _ => rfl)
    next hk => exact putRow_encodes (kind := 0b100#3) h hop hz hk (fun _ _ => rfl) (fun _ _ => rfl)
    next hk => exact putRow_encodes (kind := 0b101#3) h hop hz hk (fun _ _ => rfl) (fun _ _ => rfl)
    next hk => exact putRow_encodes (kind := 0b110#3) h hop hz hk (fun _ _ => rfl) (fun _ _ => rfl)
    next h0 h1 h2 h3 h4 h5 h6 =>
      have hk := toNat_eq_seven h0 h1 h2 h3 h4 h5 h6
      exact putRow_encodes (kind := 0b111#3) h hop hz hk (fun _ _ => rfl) (fun _ _ => rfl)

theorem decodeShift_encodes (hop : opcodeOf w = 0b100100#6) (h : decodeShift w = .ok i) : Encodes c w i := by
  unfold decodeShift at h
  split_ifs at h with hsra hsrc hsrl hsext8 hsext16 hwic hsame hwdc hsame <;> cases h
  · exact ⟨rfl, typeB_of_fields hop rfl rfl hsra⟩
  · exact ⟨rfl, typeB_of_fields hop rfl rfl hsrc⟩
  · exact ⟨rfl, typeB_of_fields hop rfl rfl hsrl⟩
  · exact ⟨rfl, typeB_of_fields hop rfl rfl hsext8⟩
  · exact ⟨rfl, typeB_of_fields hop rfl rfl hsext16⟩
  · exact ⟨rfl, typeA_of_fields hop hsame rfl rfl hwic⟩
  · exact ⟨rfl, typeA_of_fields hop hsame rfl rfl hwdc⟩

theorem decodeSpecial_encodes (hop : opcodeOf w = 0b100101#6) (h : decodeSpecial c w = .ok i) : Encodes c w i := by
  unfold decodeSpecial at h
  split_ifs at h with hset hclr hz hmfs hra hmts hrd <;> cases h
  · obtain ⟨hg, hm, hra⟩ := hset
    exact ⟨(msrEncodable_iff _).2 (.inr ⟨hg, hm⟩), (encodeMsr_of_msrGnu hg ..).trans (typeB_of_fields hop rfl hra rfl)⟩
  · obtain ⟨hg, hm, hra⟩ := hclr
    exact ⟨(msrEncodable_iff _).2 (.inr ⟨hg, hm⟩), (encodeMsr_of_msrGnu hg ..).trans (typeB_of_fields hop rfl hra rfl)⟩
  · exact ⟨rfl, typeB_of_fields hop rfl hra (specField_of_parts hmfs (not_not.1 hz)).symm⟩
  · exact ⟨rfl, typeB_of_fields hop hrd rfl (specField_of_parts hmts (not_not.1 hz)).symm⟩

theorem noLink_encodes {j : Instr} (h : noLink w j = .ok i) (hj : rdOf w = 0#5 → Encodes c w j) : Encodes c w i := by
  unfold noLink at h
  split at h <;> cases h
  next hrd => exact hj hrd

theorem decodeBr_encodes (hop : opcodeOf w = 0b100110#6) (h : decodeBr w = .ok i) : Encodes c w i := by
  unfold decodeBr at h
  split at h
  · cases h
  next hf =>
    have row {rd ra : RegNum} (hrd : rdOf w = rd) (hra : (raOf w).toNat = ra.toNat) :
        typeA 0b100110#6 rd ra (rbOf w) 0#11 = w :=
      typeA_of_fields hop hrd (BitVec.eq_of_toNat_eq hra) rfl (not_not.1 hf)
    split at h
    next hra => exact noLink_encodes h fun hrd => ⟨rfl, row hrd hra⟩
    next hra => exact noLink_encodes h fun hrd => ⟨rfl, row hrd hra⟩
    next hra => cases h; exact ⟨rfl, row rfl hra⟩
    next hra => exact noLink_encodes h fun hrd => ⟨rfl, row hrd hra⟩
    next hra => exact noLink_encodes h fun hrd => ⟨rfl, row hrd hra⟩
    next hra => cases h; exact ⟨rfl, row rfl hra⟩
    next hra => cases h; exact ⟨rfl, row rfl hra⟩
    next => cases h

theorem decodeBri_encodes (hop : opcodeOf w = 0b101110#6) (h : decodeBri w = .ok i) : Encodes c w i := by
  have row {rd ra : RegNum} (hrd : rdOf w = rd) (hra : (raOf w).toNat = ra.toNat) :
      typeB 0b101110#6 rd ra (immOf w) = w := typeB_of_fields hop hrd (BitVec.eq_of_toNat_eq hra) rfl
  unfold decodeBri at h
  split at h
  next hra => exact noLink_encodes h fun hrd => ⟨rfl, row hrd hra⟩
  next hra => exact noLink_encodes h fun hrd => ⟨rfl, row hrd hra⟩
  next hra => cases h; exact ⟨rfl, row rfl hra⟩
  next hra => exact noLink_encodes h fun hrd => ⟨rfl, row hrd hra⟩
  next hra => exact noLink_encodes h fun hrd => ⟨rfl, row hrd hra⟩
  next hra => cases h; exact ⟨rfl, row rfl hra⟩
  next hra => cases h; exact ⟨rfl, row rfl hra⟩
  next => cases h

theorem decodeCond_encodes (hop : opcodeOf w = 0b100111#6) (h : decodeCond w = .ok i) : Encodes c w i := by
  unfold decodeCond at h
  split at h
  · cases h
  next hf =>
    split at h <;> cases h
    all_goals
      rename_i hrd
      exact ⟨rfl, typeA_of_fields hop (BitVec.eq_of_toNat_eq hrd) rfl rfl (not_not.1 hf)⟩

theorem decodeCondImm_encodes (hop : opcodeOf w = 0b101111#6) (h : decodeCondImm w = .ok i) : Encodes c w i := by
  unfold decodeCondImm at h
  split at h <;> cases h
  all_goals
    rename_i hrd
    exact ⟨rfl, typeB_of_fields hop (BitVec.eq_of_toNat_eq hrd) rfl rfl⟩

theorem decodeImm_encodes (hop : opcodeOf w = 0b101100#6) (h : decodeImm w = .ok i) : Encodes c w i := by
  unfold decodeImm at h
  split at h <;> cases h
  next hz => exact ⟨rfl, typeB_of_fields hop hz.1 hz.2 rfl⟩

theorem decodeReturn_encodes (hop : opcodeOf w = 0b101101#6) (h : decodeReturn w = .ok i) : Encodes c w i := by
  unfold decodeReturn at h
  split_ifs at h with hrtsd hrtid hrtbd <;> cases h
  · exact ⟨rfl, typeB_of_fields hop hrtsd rfl rfl⟩
  · exact ⟨rfl, typeB_of_fields hop hrtid rfl rfl⟩
  · exact ⟨rfl, typeB_of_fields hop hrtbd rfl rfl⟩

/-- The primary opcode map, row by row (R107). -/
theorem decodeWord_encodes (h : decodeWord c w = .ok i) : Encodes c w i := by
  unfold decodeWord at h
  split at h
  next hop => exact plainA_encodes h hop (fun _ _ _ => rfl) (fun _ _ _ => rfl)
  next hop => exact plainA_encodes h hop (fun _ _ _ => rfl) (fun _ _ _ => rfl)
  next hop => exact plainA_encodes h hop (fun _ _ _ => rfl) (fun _ _ _ => rfl)
  next hop => exact plainA_encodes h hop (fun _ _ _ => rfl) (fun _ _ _ => rfl)
  next hop => exact plainA_encodes h hop (fun _ _ _ => rfl) (fun _ _ _ => rfl)
  next hop => exact decodeRsubk_encodes (BitVec.eq_of_toNat_eq hop) h
  next hop => exact plainA_encodes h hop (fun _ _ _ => rfl) (fun _ _ _ => rfl)
  next hop => exact plainA_encodes h hop (fun _ _ _ => rfl) (fun _ _ _ => rfl)
  next hop => exact plainB_encodes h hop (fun _ _ _ => rfl) (fun _ _ _ => rfl)
  next hop => exact plainB_encodes h hop (fun _ _ _ => rfl) (fun _ _ _ => rfl)
  next hop => exact plainB_encodes h hop (fun _ _ _ => rfl) (fun _ _ _ => rfl)
  next hop => exact plainB_encodes h hop (fun _ _ _ => rfl) (fun _ _ _ => rfl)
  next hop => exact plainB_encodes h hop (fun _ _ _ => rfl) (fun _ _ _ => rfl)
  next hop => exact plainB_encodes h hop (fun _ _ _ => rfl) (fun _ _ _ => rfl)
  next hop => exact plainB_encodes h hop (fun _ _ _ => rfl) (fun _ _ _ => rfl)
  next hop => exact plainB_encodes h hop (fun _ _ _ => rfl) (fun _ _ _ => rfl)
  next hop => exact plainA_encodes h hop (fun _ _ _ => rfl) (fun _ _ _ => rfl)
  next hop => exact decodeBarrel_encodes (BitVec.eq_of_toNat_eq hop) h
  next hop => exact decodeDivide_encodes (BitVec.eq_of_toNat_eq hop) h
  next hop => exact decodeMuli_encodes (BitVec.eq_of_toNat_eq hop) h
  next hop => exact decodeBarrelImm_encodes (BitVec.eq_of_toNat_eq hop) h
  next hop => exact decodeFsl_encodes (BitVec.eq_of_toNat_eq hop) h
  next hop => exact plainA_encodes h hop (fun _ _ _ => rfl) (fun _ _ _ => rfl)
  next hop => exact plainA_encodes h hop (fun _ _ _ => rfl) (fun _ _ _ => rfl)
  next hop => exact plainA_encodes h hop (fun _ _ _ => rfl) (fun _ _ _ => rfl)
  next hop => exact plainA_encodes h hop (fun _ _ _ => rfl) (fun _ _ _ => rfl)
  next hop => exact decodeShift_encodes (BitVec.eq_of_toNat_eq hop) h
  next hop => exact decodeSpecial_encodes (BitVec.eq_of_toNat_eq hop) h
  next hop => exact decodeBr_encodes (BitVec.eq_of_toNat_eq hop) h
  next hop => exact decodeCond_encodes (BitVec.eq_of_toNat_eq hop) h
  next hop => exact plainB_encodes h hop (fun _ _ _ => rfl) (fun _ _ _ => rfl)
  next hop => exact plainB_encodes h hop (fun _ _ _ => rfl) (fun _ _ _ => rfl)
  next hop => exact plainB_encodes h hop (fun _ _ _ => rfl) (fun _ _ _ => rfl)
  next hop => exact plainB_encodes h hop (fun _ _ _ => rfl) (fun _ _ _ => rfl)
  next hop => exact decodeImm_encodes (BitVec.eq_of_toNat_eq hop) h
  next hop => exact decodeReturn_encodes (BitVec.eq_of_toNat_eq hop) h
  next hop => exact decodeBri_encodes (BitVec.eq_of_toNat_eq hop) h
  next hop => exact decodeCondImm_encodes (BitVec.eq_of_toNat_eq hop) h
  next hop => exact plainA_encodes h hop (fun _ _ _ => rfl) (fun _ _ _ => rfl)
  next hop => exact plainA_encodes h hop (fun _ _ _ => rfl) (fun _ _ _ => rfl)
  next hop => exact plainA_encodes h hop (fun _ _ _ => rfl) (fun _ _ _ => rfl)
  next hop => exact plainA_encodes h hop (fun _ _ _ => rfl) (fun _ _ _ => rfl)
  next hop => exact plainA_encodes h hop (fun _ _ _ => rfl) (fun _ _ _ => rfl)
  next hop => exact plainA_encodes h hop (fun _ _ _ => rfl) (fun _ _ _ => rfl)
  next hop => exact plainB_encodes h hop (fun _ _ _ => rfl) (fun _ _ _ => rfl)
  next hop => exact plainB_encodes h hop (fun _ _ _ => rfl) (fun _ _ _ => rfl)
  next hop => exact plainB_encodes h hop (fun _ _ _ => rfl) (fun _ _ _ => rfl)
  next hop => exact plainB_encodes h hop (fun _ _ _ => rfl) (fun _ _ _ => rfl)
  next hop => exact plainB_encodes h hop (fun _ _ _ => rfl) (fun _ _ _ => rfl)
  next hop => exact plainB_encodes h hop (fun _ _ _ => rfl) (fun _ _ _ => rfl)
  next => cases h

/-- The word of every well-formed instruction has its row's match value under its row's mask (R108). -/
theorem encode_and_rowMask (i : Instr) : Laws.RowBits.Statement i :=
  match i with
  | .add _ _ _ => Laws.RowBits.add _ _ _
  | .rsub _ _ _ => Laws.RowBits.rsub _ _ _
  | .addc _ _ _ => Laws.RowBits.addc _ _ _
  | .rsubc _ _ _ => Laws.RowBits.rsubc _ _ _
  | .addk _ _ _ => Laws.RowBits.addk _ _ _
  | .rsubk _ _ _ => Laws.RowBits.rsubk _ _ _
  | .addkc _ _ _ => Laws.RowBits.addkc _ _ _
  | .rsubkc _ _ _ => Laws.RowBits.rsubkc _ _ _
  | .cmp _ _ _ => Laws.RowBits.cmp _ _ _
  | .cmpu _ _ _ => Laws.RowBits.cmpu _ _ _
  | .addi _ _ _ => Laws.RowBits.addi _ _ _
  | .rsubi _ _ _ => Laws.RowBits.rsubi _ _ _
  | .addic _ _ _ => Laws.RowBits.addic _ _ _
  | .rsubic _ _ _ => Laws.RowBits.rsubic _ _ _
  | .addik _ _ _ => Laws.RowBits.addik _ _ _
  | .rsubik _ _ _ => Laws.RowBits.rsubik _ _ _
  | .addikc _ _ _ => Laws.RowBits.addikc _ _ _
  | .rsubikc _ _ _ => Laws.RowBits.rsubikc _ _ _
  | .mul _ _ _ => Laws.RowBits.mul _ _ _
  | .bsrl _ _ _ => Laws.RowBits.bsrl _ _ _
  | .bsra _ _ _ => Laws.RowBits.bsra _ _ _
  | .bsll _ _ _ => Laws.RowBits.bsll _ _ _
  | .muli _ _ _ => Laws.RowBits.muli _ _ _
  | .bsrli _ _ _ => Laws.RowBits.bsrli _ _ _
  | .bsrai _ _ _ => Laws.RowBits.bsrai _ _ _
  | .bslli _ _ _ => Laws.RowBits.bslli _ _ _
  | .idiv _ _ _ => Laws.RowBits.idiv _ _ _
  | .idivu _ _ _ => Laws.RowBits.idivu _ _ _
  | .get _ _ => Laws.RowBits.get _ _
  | .put _ _ => Laws.RowBits.put _ _
  | .nget _ _ => Laws.RowBits.nget _ _
  | .nput _ _ => Laws.RowBits.nput _ _
  | .cget _ _ => Laws.RowBits.cget _ _
  | .cput _ _ => Laws.RowBits.cput _ _
  | .ncget _ _ => Laws.RowBits.ncget _ _
  | .ncput _ _ => Laws.RowBits.ncput _ _
  | .or _ _ _ => Laws.RowBits.or _ _ _
  | .and _ _ _ => Laws.RowBits.and _ _ _
  | .xor _ _ _ => Laws.RowBits.xor _ _ _
  | .andn _ _ _ => Laws.RowBits.andn _ _ _
  | .sra _ _ => Laws.RowBits.sra _ _
  | .src _ _ => Laws.RowBits.src _ _
  | .srl _ _ => Laws.RowBits.srl _ _
  | .sext8 _ _ => Laws.RowBits.sext8 _ _
  | .sext16 _ _ => Laws.RowBits.sext16 _ _
  | .wic _ _ => Laws.RowBits.wic _ _
  | .wdc _ _ => Laws.RowBits.wdc _ _
  | .mts _ _ => Laws.RowBits.mts _ _
  | .mfs _ _ => Laws.RowBits.mfs _ _
  | .br _ => Laws.RowBits.br _
  | .brd _ => Laws.RowBits.brd _
  | .brld _ _ => Laws.RowBits.brld _ _
  | .bra _ => Laws.RowBits.bra _
  | .brad _ => Laws.RowBits.brad _
  | .brald _ _ => Laws.RowBits.brald _ _
  | .brk _ _ => Laws.RowBits.brk _ _
  | .beq _ _ => Laws.RowBits.beq _ _
  | .bne _ _ => Laws.RowBits.bne _ _
  | .blt _ _ => Laws.RowBits.blt _ _
  | .ble _ _ => Laws.RowBits.ble _ _
  | .bgt _ _ => Laws.RowBits.bgt _ _
  | .bge _ _ => Laws.RowBits.bge _ _
  | .beqd _ _ => Laws.RowBits.beqd _ _
  | .bned _ _ => Laws.RowBits.bned _ _
  | .bltd _ _ => Laws.RowBits.bltd _ _
  | .bled _ _ => Laws.RowBits.bled _ _
  | .bgtd _ _ => Laws.RowBits.bgtd _ _
  | .bged _ _ => Laws.RowBits.bged _ _
  | .ori _ _ _ => Laws.RowBits.ori _ _ _
  | .andi _ _ _ => Laws.RowBits.andi _ _ _
  | .xori _ _ _ => Laws.RowBits.xori _ _ _
  | .andni _ _ _ => Laws.RowBits.andni _ _ _
  | .imm _ => Laws.RowBits.imm _
  | .rtsd _ _ => Laws.RowBits.rtsd _ _
  | .rtid _ _ => Laws.RowBits.rtid _ _
  | .rtbd _ _ => Laws.RowBits.rtbd _ _
  | .bri _ => Laws.RowBits.bri _
  | .brid _ => Laws.RowBits.brid _
  | .brlid _ _ => Laws.RowBits.brlid _ _
  | .brai _ => Laws.RowBits.brai _
  | .braid _ => Laws.RowBits.braid _
  | .bralid _ _ => Laws.RowBits.bralid _ _
  | .brki _ _ => Laws.RowBits.brki _ _
  | .beqi _ _ => Laws.RowBits.beqi _ _
  | .bnei _ _ => Laws.RowBits.bnei _ _
  | .blti _ _ => Laws.RowBits.blti _ _
  | .blei _ _ => Laws.RowBits.blei _ _
  | .bgti _ _ => Laws.RowBits.bgti _ _
  | .bgei _ _ => Laws.RowBits.bgei _ _
  | .beqid _ _ => Laws.RowBits.beqid _ _
  | .bneid _ _ => Laws.RowBits.bneid _ _
  | .bltid _ _ => Laws.RowBits.bltid _ _
  | .bleid _ _ => Laws.RowBits.bleid _ _
  | .bgtid _ _ => Laws.RowBits.bgtid _ _
  | .bgeid _ _ => Laws.RowBits.bgeid _ _
  | .lbu _ _ _ => Laws.RowBits.lbu _ _ _
  | .lhu _ _ _ => Laws.RowBits.lhu _ _ _
  | .lw _ _ _ => Laws.RowBits.lw _ _ _
  | .sb _ _ _ => Laws.RowBits.sb _ _ _
  | .sh _ _ _ => Laws.RowBits.sh _ _ _
  | .sw _ _ _ => Laws.RowBits.sw _ _ _
  | .lbui _ _ _ => Laws.RowBits.lbui _ _ _
  | .lhui _ _ _ => Laws.RowBits.lhui _ _ _
  | .lwi _ _ _ => Laws.RowBits.lwi _ _ _
  | .sbi _ _ _ => Laws.RowBits.sbi _ _ _
  | .shi _ _ _ => Laws.RowBits.shi _ _ _
  | .swi _ _ _ => Laws.RowBits.swi _ _ _
  | .msrset _ _ => Laws.RowBits.msrset _ _
  | .msrclr _ _ => Laws.RowBits.msrclr _ _

/-- Settles O58: the decoders drop no bit of the word, and its row's mask finds the match value in the encoding. -/
theorem decodedWordMatchesItsRow : Obligations.DecodedWordMatchesItsRow := by
  intro c w i h
  obtain ⟨hwf, rfl⟩ := decodeWord_encodes h
  exact ⟨hwf, rfl, encode_and_rowMask i c hwf⟩

/-- Settles O59: one word of each family. -/
theorem writtenOutWordsDecode : Obligations.WrittenOutWordsDecode := by
  unfold Obligations.WrittenOutWordsDecode
  decide

end Sys2Proof

namespace Sys2Proof.Machine

/-! ### The immediate operand (R104) -/

/-- Settles O6: the two branches of `imm32`. -/
theorem immediateOperand : Obligations.ImmediateOperand := by
  intro s imm
  refine ⟨fun hi h => ?_, fun h => ?_⟩
  · have happ : s.imm32 imm = hi ++ imm := by simp only [State.imm32, h]
    have hlt := imm.isLt
    rw [happ, BitVec.toNat_append, ← Nat.shiftLeft_add_eq_or_of_lt hlt, Nat.shiftLeft_eq]
  · have hext : s.imm32 imm = imm.signExtend 32 := by simp only [State.imm32, h]
    rw [hext, BitVec.toInt_signExtend_of_le (by decide)]

/-! ### Additions and subtractions of any two operands (R140) -/

section
variable (s : State) (rd : RegNum) (x y : Word)

theorem addInto_add : ∃ t, s.addInto rd x y .zero false = .next t ∧
    s.Wrote t rd (x + y) { s.msr with c := decide (2 ^ 32 ≤ x.toNat + y.toNat) } := by
  simpa [State.carryIn, addCarry_fst, addCarry_snd] using addInto_wrote s rd x y .zero false

theorem addInto_addk : ∃ t, s.addInto rd x y .zero true = .next t ∧ s.Wrote t rd (x + y) s.msr := by
  simpa [State.carryIn, addCarry_fst] using addInto_wrote s rd x y .zero true

theorem addInto_addc : ∃ t c, s.MayRead Msr.c c ∧ s.addInto rd x y .msrC false = .next t ∧
    s.Wrote t rd (x + y + BitVec.ofNat 32 c.toNat)
      { s.msr with c := decide (2 ^ 32 ≤ x.toNat + y.toNat + c.toNat) } := by
  obtain ⟨t, ht, hw⟩ := addInto_wrote s rd x y .msrC false
  rw [addCarry_fst, addCarry_snd] at hw
  exact ⟨t, _, carryIn_mayRead s, ht, hw⟩

theorem addInto_addkc : ∃ t c, s.MayRead Msr.c c ∧ s.addInto rd x y .msrC true = .next t ∧
    s.Wrote t rd (x + y + BitVec.ofNat 32 c.toNat) s.msr := by
  obtain ⟨t, ht, hw⟩ := addInto_wrote s rd x y .msrC true
  rw [addCarry_fst] at hw
  exact ⟨t, _, carryIn_mayRead s, ht, hw⟩

/-- The complement of the subtrahend is its negation less one. -/
theorem addCarry_not_fst (c : Bool) : (addCarry x (~~~y) c).1 = x - y - 1#32 + BitVec.ofNat 32 c.toNat := by
  rw [addCarry_fst, BitVec.not_eq_neg_add, BitVec.sub_eq_add_neg x y]
  simp only [BitVec.sub_eq_add_neg, BitVec.add_assoc]

/-- A carry out of the complement's addition is no borrow. -/
theorem addCarry_not_snd (c : Bool) : (addCarry x (~~~y) c).2 = decide (y.toNat < x.toNat + c.toNat) := by
  rw [addCarry_snd, BitVec.toNat_not]
  have := y.isLt
  apply decide_eq_decide.2
  omega

theorem addInto_rsub : ∃ t, s.addInto rd x (~~~y) .one false = .next t ∧
    s.Wrote t rd (x - y) { s.msr with c := decide (y.toNat ≤ x.toNat) } := by
  simpa [State.carryIn, addCarry_not_fst, addCarry_not_snd, Nat.lt_succ_iff] using addInto_wrote s rd x (~~~y) .one false

theorem addInto_rsubk : ∃ t, s.addInto rd x (~~~y) .one true = .next t ∧ s.Wrote t rd (x - y) s.msr := by
  simpa [State.carryIn, addCarry_not_fst] using addInto_wrote s rd x (~~~y) .one true

theorem addInto_rsubc : ∃ t c, s.MayRead Msr.c c ∧ s.addInto rd x (~~~y) .msrC false = .next t ∧
    s.Wrote t rd (x - y - 1#32 + BitVec.ofNat 32 c.toNat)
      { s.msr with c := decide (y.toNat < x.toNat + c.toNat) } := by
  obtain ⟨t, ht, hw⟩ := addInto_wrote s rd x (~~~y) .msrC false
  rw [addCarry_not_fst, addCarry_not_snd] at hw
  exact ⟨t, _, carryIn_mayRead s, ht, hw⟩

theorem addInto_rsubkc : ∃ t c, s.MayRead Msr.c c ∧ s.addInto rd x (~~~y) .msrC true = .next t ∧
    s.Wrote t rd (x - y - 1#32 + BitVec.ofNat 32 c.toNat) s.msr := by
  obtain ⟨t, ht, hw⟩ := addInto_wrote s rd x (~~~y) .msrC true
  rw [addCarry_not_fst] at hw
  exact ⟨t, _, carryIn_mayRead s, ht, hw⟩

end

/-- Settles O4: the additions of rA and the immediate operand. -/
theorem addImmediateForms : Obligations.AddImmediateForms := fun s rd ra imm =>
  ⟨addInto_add s rd (s.reg ra) (s.imm32 imm), addInto_addk s rd (s.reg ra) (s.imm32 imm),
    addInto_addc s rd (s.reg ra) (s.imm32 imm), addInto_addkc s rd (s.reg ra) (s.imm32 imm)⟩

/-- Settles O5: the subtractions of rA from the immediate operand. -/
theorem reverseSubtractImmediateForms : Obligations.ReverseSubtractImmediateForms := fun s rd ra imm =>
  ⟨addInto_rsub s rd (s.imm32 imm) (s.reg ra), addInto_rsubk s rd (s.imm32 imm) (s.reg ra),
    addInto_rsubc s rd (s.imm32 imm) (s.reg ra), addInto_rsubkc s rd (s.imm32 imm) (s.reg ra)⟩

/-! ### Absent options (R120) -/

theorem exec_of_absent {i : Instr} {s : State} {present : Bool} {o : Res State} (he : exec i s = needs present o)
    (hp : present = false) : exec i s = .refused .illegalEncoding := by
  rw [he, hp, needs_false]

theorem hasChannel_of_le {s : State} {ch : Channel} (h : s.cfg.fslLinks ≤ ch.toNat) : s.hasChannel ch = false :=
  decide_eq_false (Nat.not_lt.2 h)

theorem cacheWritable_of_absent {c : CacheConfig} (h : c.use = false ∨ c.allowWrite = false) :
    (c.use && c.allowWrite) = false := Bool.and_eq_false_iff.2 h

/-- Settles O40: each of these instructions is its option's guard, `needs`, around its meaning. -/
theorem absentOptionsRefused : Obligations.AbsentOptionsRefused := by
  intro s rd ra rb imm n ch i h
  rcases h with ⟨hmul, rfl | rfl⟩ | ⟨hdiv, rfl | rfl⟩ | ⟨hbarrel, rfl | rfl | rfl | rfl | rfl | rfl⟩ |
    ⟨hfsl, rfl | rfl | rfl | rfl | rfl | rfl | rfl | rfl⟩ | ⟨hicache, rfl⟩ | ⟨hdcache, rfl⟩ | ⟨hmsr, rfl | rfl⟩
  · exact exec_of_absent rfl hmul
  · exact exec_of_absent rfl hmul
  · exact exec_of_absent rfl hdiv
  · exact exec_of_absent rfl hdiv
  iterate 6 exact exec_of_absent rfl hbarrel
  iterate 8 exact exec_of_absent rfl (hasChannel_of_le hfsl)
  · exact exec_of_absent rfl (cacheWritable_of_absent hicache)
  · exact exec_of_absent rfl (cacheWritable_of_absent hdcache)
  · exact exec_of_absent rfl hmsr
  · exact exec_of_absent rfl hmsr

end Sys2Proof.Machine
end

section
/-! PROOFS. The arithmetic family: additions, subtractions and comparisons of two registers, products and quotients
(40_arithmetic). Each statement is what the shared instruction end does with the value the instruction computes, so what is
proved here is that value. -/

namespace Sys2Proof.Machine

/-! ### Additions and subtractions of two registers (R140 to R148) -/

/-- Settles O1: the additions of rA and rB. -/
theorem addRegisterForms : Obligations.AddRegisterForms := fun s rd ra rb =>
  ⟨addInto_add s rd (s.reg ra) (s.reg rb), addInto_addk s rd (s.reg ra) (s.reg rb),
    addInto_addc s rd (s.reg ra) (s.reg rb), addInto_addkc s rd (s.reg ra) (s.reg rb)⟩

/-- Settles O2: the subtractions of rA from rB. -/
theorem reverseSubtractRegisterForms : Obligations.ReverseSubtractRegisterForms := fun s rd ra rb =>
  ⟨addInto_rsub s rd (s.reg rb) (s.reg ra), addInto_rsubk s rd (s.reg rb) (s.reg ra),
    addInto_rsubc s rd (s.reg rb) (s.reg ra), addInto_rsubkc s rd (s.reg rb) (s.reg ra)⟩

/-! ### Comparisons (R149, R150) -/

section
variable (a b : Word) (greater : Bool)

theorem compareWord_eq : compareWord a b greater = BitVec.ofBool greater ++ (b - a).extractLsb' 0 31 := by
  have hdiff : (addCarry b (~~~a) true).1 = b - a := by
    rw [addCarry_not_fst]
    exact BitVec.sub_add_cancel _ _
  rw [compareWord, hdiff]

theorem compareWord_setWidth : (compareWord a b greater).setWidth 31 = (b - a).setWidth 31 := by
  rw [compareWord_eq, BitVec.setWidth_append_eq_right, BitVec.setWidth_eq_extractLsb' (by decide)]

theorem compareWord_msb : (compareWord a b greater).msb = greater := by
  rw [compareWord_eq, BitVec.msb_append]
  simp

theorem compareWord_toInt_neg : (compareWord a b greater).toInt < 0 ↔ greater = true :=
  decide_eq_true_iff.symm.trans (by rw [← BitVec.msb_eq_toInt, compareWord_msb])

theorem compareWord_self : compareWord a a false = 0#32 := by
  rw [compareWord_eq, BitVec.sub_self]
  rfl

/-- A comparison by an irreflexive relation: the low bits, the top bit and equal operands. -/
theorem compareWord_spec {lt : Word → Word → Prop} [DecidableRel lt] (hlt : ¬lt a a) :
    (compareWord a b (decide (lt b a))).setWidth 31 = (b - a).setWidth 31 ∧
      ((compareWord a b (decide (lt b a))).toInt < 0 ↔ lt b a) ∧
      (a = b → compareWord a b (decide (lt b a)) = 0#32) := by
  refine ⟨compareWord_setWidth _ _ _, (compareWord_toInt_neg _ _ _).trans decide_eq_true_iff, ?_⟩
  rintro rfl
  rw [decide_eq_false hlt, compareWord_self]

end

/-- Settles O3: both comparisons write back `compareWord`, one under the signed order and one under the unsigned. -/
theorem compareForms : Obligations.CompareForms := by
  intro s rd ra rb
  constructor
  · obtain ⟨t, ht, hw⟩ := writeBack_wrote s rd
      (compareWord (s.reg ra) (s.reg rb) (decide ((s.reg rb).toInt < (s.reg ra).toInt)))
    exact ⟨t, _, ht, hw, compareWord_spec (lt := fun x y => x.toInt < y.toInt) _ _ (lt_irrefl _)⟩
  · obtain ⟨t, ht, hw⟩ := writeBack_wrote s rd
      (compareWord (s.reg ra) (s.reg rb) (decide ((s.reg rb).toNat < (s.reg ra).toNat)))
    exact ⟨t, _, ht, hw, compareWord_spec (lt := fun x y => x.toNat < y.toNat) _ _ (lt_irrefl _)⟩

/-! ### Instructions of an option that exists (R120) -/

/-- With its option, an instruction that writes one value back completes. -/
theorem needs_writeBack_wrote {s : State} {present : Bool} (h : present = true) (rd : RegNum) (v : Word) :
    ∃ t, needs present (s.writeBack rd v) = .next t ∧ s.Wrote t rd v s.msr := by
  rw [h, needs_true]
  exact writeBack_wrote s rd v

/-! ### Products (R159, R160) -/

theorem mulLow_toNat (x y : Word) : (mulLow x y).toNat = x.toNat * y.toNat % 2 ^ 32 := BitVec.toNat_ofNat _ _

/-- Settles O7: both products are written back under the multiplier's guard. -/
theorem multiplyForms : Obligations.MultiplyForms := by
  intro s rd ra rb imm hmul
  constructor
  · obtain ⟨t, ht, hw⟩ := needs_writeBack_wrote hmul rd (mulLow (s.reg ra) (s.reg rb))
    exact ⟨t, _, ht, hw, mulLow_toNat _ _⟩
  · obtain ⟨t, ht, hw⟩ := needs_writeBack_wrote hmul rd (mulLow (s.reg ra) (s.imm32 imm))
    exact ⟨t, _, ht, hw, mulLow_toNat _ _⟩

/-! ### Quotients (R161, R162) -/

theorem quotientU_toNat (b a : Word) : (quotientU b a).toNat = b.toNat / a.toNat :=
  (BitVec.toNat_ofNat _ _).trans (Nat.mod_eq_of_lt (Nat.div_lt_of_lt b.isLt))

/-- The model's quotient is the library's signed division. -/
theorem quotient_eq_sdiv (b a : Word) : quotient b a = b.sdiv a := by
  apply BitVec.eq_of_toInt_eq
  rw [quotient, BitVec.toInt_ofInt, BitVec.toInt_sdiv]

/-- Only -2^31 / -1 leaves the range of a word. -/
theorem quotient_toInt {b a : Word} (h : ¬(b = 0x80000000#32 ∧ a = 0xFFFFFFFF#32)) :
    (quotient b a).toInt = Int.tdiv b.toInt a.toInt := by
  rw [quotient_eq_sdiv]
  exact BitVec.toInt_sdiv_of_ne_or_ne b a (not_and_or.1 h)

section
variable {s : State} (rd : RegNum) {ra : RegNum} (rb : RegNum) (hdiv : s.cfg.useDiv = true)
include hdiv

theorem exec_idiv_zero (h : s.reg ra = 0#32) : exec (.idiv rd ra rb) s = s.divideByZero rd := by
  show execIdiv rd ra rb s = _
  rw [execIdiv, hdiv, needs_true, if_pos h]

theorem exec_idivu_zero (h : s.reg ra = 0#32) : exec (.idivu rd ra rb) s = s.divideByZero rd := by
  show execIdivu rd ra rb s = _
  rw [execIdivu, hdiv, needs_true, if_pos h]

theorem exec_idivu_quotient (h : s.reg ra ≠ 0#32) :
    exec (.idivu rd ra rb) s = s.writeBack rd (quotientU (s.reg rb) (s.reg ra)) := by
  show execIdivu rd ra rb s = _
  rw [execIdivu, hdiv, needs_true, if_neg h]

theorem exec_idiv_overflow (h : s.reg rb = 0x80000000#32 ∧ s.reg ra = 0xFFFFFFFF#32) :
    exec (.idiv rd ra rb) s = s.drawWord.2.writeBack rd s.drawWord.1 := by
  have hne : s.reg ra ≠ 0#32 := by rw [h.2]; decide
  show execIdiv rd ra rb s = _
  rw [execIdiv, hdiv, needs_true, if_neg hne, if_pos h]

theorem exec_idiv_quotient (h : s.reg ra ≠ 0#32) (ho : ¬(s.reg rb = 0x80000000#32 ∧ s.reg ra = 0xFFFFFFFF#32)) :
    exec (.idiv rd ra rb) s = s.writeBack rd (quotient (s.reg rb) (s.reg ra)) := by
  show execIdiv rd ra rb s = _
  rw [execIdiv, hdiv, needs_true, if_neg h, if_neg ho]

end

/-- Settles O8: a zero divisor, the unsigned quotient, and the signed quotient apart from its overflow, whose value is
drawn. -/
theorem divideForms : Obligations.DivideForms := by
  intro s rd ra rb hdiv
  refine ⟨fun hzero => ?_, fun hne => ⟨?unsigned, ?signed⟩⟩
  · rw [exec_idiv_zero rd rb hdiv hzero, exec_idivu_zero rd rb hdiv hzero]
    exact ⟨divideByZero_wrote s rd, divideByZero_wrote s rd⟩
  case unsigned =>
    obtain ⟨t, ht, hw⟩ := writeBack_wrote s rd (quotientU (s.reg rb) (s.reg ra))
    exact ⟨t, _, (exec_idivu_quotient rd rb hdiv hne).trans ht, hw, quotientU_toNat _ _⟩
  case signed =>
    by_cases hover : s.reg rb = 0x80000000#32 ∧ s.reg ra = 0xFFFFFFFF#32
    · obtain ⟨t, ht, hw⟩ := drawWord_wrote s rd
      refine ⟨t, _, (exec_idiv_overflow rd rb hdiv hover).trans ht, hw, fun hfree => absurd ?_ hfree⟩
      rw [hover.1, hover.2]
      decide
    · obtain ⟨t, ht, hw⟩ := writeBack_wrote s rd (quotient (s.reg rb) (s.reg ra))
      exact ⟨t, _, (exec_idiv_quotient rd rb hdiv hne hover).trans ht, hw, fun _ => quotient_toInt hover⟩

end Sys2Proof.Machine
end

section
/-! PROOFS. The logical family: bitwise operations, sign extensions, single-bit and barrel shifts (41_logical). Each statement
is what the shared instruction end does with the value the instruction computes, so what is proved here is that value. -/

namespace Sys2Proof.Machine

/-! ### A value written back, and what is said of it -/

section
variable {s : State} (rd : RegNum) {v : Word} {P : Word → Prop}

theorem writeBack_wrote_of (hv : P v) : ∃ t w, s.writeBack rd v = .next t ∧ s.Wrote t rd w s.msr ∧ P w := by
  obtain ⟨t, ht, hw⟩ := writeBack_wrote s rd v
  exact ⟨t, v, ht, hw, hv⟩

/-- The same for an instruction of an option that exists (R120). -/
theorem needs_writeBack_wrote_of {present : Bool} (h : present = true) (hv : P v) :
    ∃ t w, needs present (s.writeBack rd v) = .next t ∧ s.Wrote t rd w s.msr ∧ P w := by
  obtain ⟨t, ht, hw⟩ := needs_writeBack_wrote h rd v
  exact ⟨t, v, ht, hw, hv⟩

end

/-! ### Bitwise operations (R181 to R186, R199, R200) -/

/-- And-not at every bit number: past the width both sides are 0. -/
theorem getLsbD_and_not (x y : Word) (i : Nat) : (x &&& ~~~y).getLsbD i = (x.getLsbD i && !y.getLsbD i) := by
  rw [BitVec.getLsbD_and, BitVec.getLsbD_not]
  by_cases hi : i < 32
  · rw [decide_eq_true hi, Bool.true_and]
  · rw [BitVec.getLsbD_of_ge x i (Nat.le_of_not_lt hi), Bool.false_and, Bool.false_and]

/-- Settles O9: each form writes back the bitwise operation of its two operands. -/
theorem logicalForms : Obligations.LogicalForms := fun _ rd _ _ _ =>
  ⟨writeBack_wrote_of rd fun _ => BitVec.getLsbD_or, writeBack_wrote_of rd fun _ => BitVec.getLsbD_and,
    writeBack_wrote_of rd fun _ => BitVec.getLsbD_xor, writeBack_wrote_of rd (getLsbD_and_not _ _),
    writeBack_wrote_of rd fun _ => BitVec.getLsbD_or, writeBack_wrote_of rd fun _ => BitVec.getLsbD_and,
    writeBack_wrote_of rd fun _ => BitVec.getLsbD_xor, writeBack_wrote_of rd (getLsbD_and_not _ _)⟩

/-! ### Sign extensions (R187, R188) -/

theorem sext8_toInt (a : Word) : (sext8 a).toInt = (a.setWidth 8).toInt := by
  rw [sext8, BitVec.toInt_signExtend_of_le (by decide), BitVec.setWidth_eq_extractLsb' (by decide)]

theorem sext16_toInt (a : Word) : (sext16 a).toInt = (a.setWidth 16).toInt := by
  rw [sext16, BitVec.toInt_signExtend_of_le (by decide), BitVec.setWidth_eq_extractLsb' (by decide)]

/-! ### Single-bit shifts (R189 to R191) -/

theorem shiftInto_msb (top : Bool) (a : Word) : (shiftInto top a).msb = top := by
  rw [shiftInto, BitVec.msb_append]
  simp

/-- With the sign bit entering, the shift halves the signed number, rounding down. -/
theorem shiftInto_sign_toInt (a : Word) : (shiftInto a.msb a).toInt = a.toInt / 2 := by
  rw [BitVec.toInt_eq_msb_cond, BitVec.toInt_eq_msb_cond a, shiftInto_msb, shiftInto_toNat]
  cases a.msb with
  | false => simp
  | true =>
    simp only [Bool.toNat_true, if_true]
    omega

/-- With zero entering, the shift halves the unsigned number. -/
theorem shiftInto_false_toNat (a : Word) : (shiftInto false a).toNat = a.toNat / 2 := by
  rw [shiftInto_toNat, Bool.toNat_false, Nat.zero_mul, Nat.zero_add]

/-- A single-bit shift after a read of C or none, its carry as arithmetic says it. -/
theorem shiftOne_wrote_parity {s u : State} (hu : u = s ∨ u = (s.readFlag Msr.c).2) (rd : RegNum) (top : Bool) (a : Word) :
    ∃ t, u.shiftOne rd top a = .next t ∧
      s.Wrote t rd (shiftInto top a) { s.msr with c := decide (a.toNat % 2 = 1) } := by
  rw [← lowBit_eq]
  exact shiftOne_wrote s u hu rd top a

/-- Settles O10: the sign extensions are written back; the shifts differ in the bit that enters, for `src` the C it read. -/
theorem signExtensionsAndSingleBitShifts : Obligations.SignExtensionsAndSingleBitShifts := by
  intro s rd ra
  refine ⟨writeBack_wrote_of rd (sext8_toInt _), writeBack_wrote_of rd (sext16_toInt _), ?sra, ?srl, ?src⟩
  case sra =>
    obtain ⟨t, ht, hw⟩ := shiftOne_wrote_parity (.inl rfl) rd (s.reg ra).msb (s.reg ra)
    exact ⟨t, _, ht, hw, shiftInto_sign_toInt _⟩
  case srl =>
    obtain ⟨t, ht, hw⟩ := shiftOne_wrote_parity (.inl rfl) rd false (s.reg ra)
    exact ⟨t, _, ht, hw, shiftInto_false_toNat _⟩
  case src =>
    obtain ⟨t, ht, hw⟩ := shiftOne_wrote_parity (.inr rfl) rd (s.readFlag Msr.c).1 (s.reg ra)
    exact ⟨t, _, _, readFlag_mayRead s Msr.c, ht, hw, shiftInto_toNat _ _⟩

/-! ### Barrel shifts (R192 to R198) -/

theorem shiftAmount_eq (b : Word) : shiftAmount b = b.toNat % 32 := by
  rw [shiftAmount, BitVec.extractLsb'_toNat, Nat.shiftRight_zero]

theorem shiftRL_toNat (x : Word) (n : Nat) : (shiftRL x n).toNat = x.toNat / 2 ^ n := by
  rw [shiftRL, BitVec.toNat_ushiftRight, Nat.shiftRight_eq_div_pow]

theorem shiftRA_toInt (x : Word) (n : Nat) : (shiftRA x n).toInt = x.toInt / 2 ^ n := by
  rw [shiftRA, BitVec.toInt_sshiftRight, Int.shiftRight_eq_div_pow, Int.natCast_pow, Nat.cast_ofNat]

theorem shiftL_toNat (x : Word) (n : Nat) : (shiftL x n).toNat = x.toNat * 2 ^ n % 2 ^ 32 := by
  rw [shiftL, BitVec.toNat_shiftLeft, Nat.shiftLeft_eq]

/-- Settles O11: the three shifts, by the low five bits of rB and by the field, under the barrel shifter's guard. -/
theorem barrelShifts : Obligations.BarrelShifts := by
  intro s rd ra rb amount hbarrel
  rw [← shiftAmount_eq]
  exact ⟨needs_writeBack_wrote_of rd hbarrel (shiftRL_toNat _ _), needs_writeBack_wrote_of rd hbarrel (shiftRA_toInt _ _),
    needs_writeBack_wrote_of rd hbarrel (shiftL_toNat _ _), needs_writeBack_wrote_of rd hbarrel (shiftRL_toNat _ _),
    needs_writeBack_wrote_of rd hbarrel (shiftRA_toInt _ _), needs_writeBack_wrote_of rd hbarrel (shiftL_toNat _ _)⟩

end Sys2Proof.Machine
end

section
/-! PROOFS. The branch family: jumps, links, conditional branches, returns and the delay slot (42_branch). Every transfer is
one of four shared operations, `jump`, `jumpDelayed`, `branchIf` and `lockImm`; what each of them does outside and inside a
delay slot is proved once. -/

namespace Sys2Proof.Machine

/-! ### Transfers inside a delay slot (R221) -/

section
variable {s : State} (h : s.ds.isSome = true)
include h

theorem jump_in_slot (target : Word) : s.jump target = .refused .branchInDelaySlot := if_pos h

theorem jumpDelayed_in_slot (target : Word) (act : SlotMsr) :
    s.jumpDelayed target act = .refused .branchInDelaySlot := if_pos h

theorem notTaken_in_slot : s.notTaken = .refused .branchInDelaySlot := if_pos h

/-- Taken or not, with or without a slot of its own. -/
theorem branchIf_in_slot (taken delayed : Bool) (offset : Word) :
    s.branchIf taken delayed offset = .refused .branchInDelaySlot := by
  rcases branchIf_cases s taken delayed offset with ⟨-, -, hb⟩ | ⟨-, -, hb⟩ | ⟨-, hb⟩ <;> rw [hb]
  · exact jumpDelayed_in_slot h _ _
  · exact jump_in_slot h _
  · exact notTaken_in_slot h

theorem lockImm_in_slot (v : Imm16) : s.lockImm v = .refused .branchInDelaySlot := if_pos h

end

/-- Settles O18: each of the instructions is one of the four operations, on `s` or on `s` with the link (and BIP) written,
which keeps the pending transfer. -/
theorem transferInDelaySlotRefused : Obligations.TransferInDelaySlotRefused := by
  intro i s hi h
  cases i <;> cases hi
  case br | bra | bri | brai => exact jump_in_slot h _
  case brk | brki => exact jump_in_slot (s := (s.setReg _ s.pc).setBIP) h _
  case brd | brad | brid | braid | rtsd | rtid | rtbd => exact jumpDelayed_in_slot h _ _
  case brld | brald | brlid | bralid => exact jumpDelayed_in_slot (s := s.setReg _ s.pc) h _ _
  case beq | bne | blt | ble | bgt | bge | beqi | bnei | blti | blei | bgti | bgei => exact branchIf_in_slot h _ false _
  case beqd | bned | bltd | bled | bgtd | bged | beqid | bneid | bltid | bleid | bgtid | bgeid =>
    exact branchIf_in_slot h _ true _
  case imm v => exact lockImm_in_slot h v

/-! ### The end of a delay slot (R221, R317, R318) -/

/-- An ending in a delay slot: the transfers need none pending, so execution goes on at the target with the pending MSR
change, or the instruction writes MSR itself, which the slots of `rtid` and `rtbd` do not allow. -/
theorem Ending.in_slot {i : Instr} {u t : State} {d : Delayed} (he : Ending i u t) (hd : u.ds = some d) :
    t.pc = d.target ∧ t.ds = none ∧ (t.msr = d.act.apply u.msr ∨ d.act = .none) := by
  have hpc : u.nextPc = d.target := by rw [State.nextPc, hd]
  have hmsr : u.slotMsr = d.act.apply u.msr := by rw [State.slotMsr, hd]
  cases he with
  | goOn ht => subst ht; exact ⟨hpc, rfl, .inl hmsr⟩
  | jump _ hnone _ _ => cases hd.symm.trans hnone
  | delay _ hnone _ _ => cases hd.symm.trans hnone
  | msr m _ hw ht =>
    have hact : d.act = .none := by simpa [State.msrWritable, hd] using hw
    subst ht
    exact ⟨hpc, rfl, .inr hact⟩
  | lock _ _ hnone _ => cases hd.symm.trans hnone

/-- Settles O17: the effect keeps the pending transfer, and the ending is one in a delay slot. -/
theorem delaySlotEnds : Obligations.DelaySlotEnds := by
  intro i s t d hd h hne
  rcases exec_next h with heq | ⟨u, heffect, hend⟩
  · exact absurd heq hne
  obtain ⟨hpc, hds, hmsr | hnone⟩ := hend.in_slot (heffect.ds.trans hd)
  · exact ⟨hpc, hds, fun hact => by rw [hmsr, hact]; rfl, fun hact => by rw [hmsr, hact]; rfl⟩
  · exact ⟨hpc, hds, fun hact => absurd (hact.symm.trans hnone) (by decide),
      fun hact => absurd (hact.symm.trans hnone) (by decide)⟩

/-! ### The end of a transfer outside a delay slot (R220, R221) -/

/-- Registers, PC, MSR and the state between two instructions are not outside. -/
theorem sameOutside_between (s : State) (g : Vector Word 31) (pc : Word) (m : Msr) (imm : Option Imm16)
    (ds : Option Delayed) (w : Option Msr) (n k : Nat) :
    s.SameOutside { s with gpr := g, pc := pc, msr := m, imm := imm, ds := ds, window := w, icount := n, lastTaken := k } :=
  ⟨⟨rfl, rfl, rfl, rfl, rfl, rfl, rfl, rfl⟩, ⟨fun _ => rfl, fun _ => rfl, rfl, rfl, rfl⟩, ⟨rfl, rfl⟩, ⟨rfl, rfl⟩⟩

section
variable {s : State} (hd : s.ds = none)
include hd

/-- With nothing pending the next word follows and MSR stays, also after a link. -/
theorem moved_retire_outside_slot {u : State} (hpc : u.pc = s.pc) (hds : u.ds = s.ds) (hmsr : u.msr = s.msr)
    (hcount : u.icount = s.icount) : s.Moved u.retire (s.pc + 4#32) none s.msr := by
  have hmoved := moved_retire s u hpc hds hcount
  simpa only [State.following, State.afterSlot, hd, hmsr] using hmoved

theorem retire_went : s.Went s.retire (s.pc + 4#32) none s.msr :=
  ⟨fun _ => rfl, moved_retire_outside_slot hd rfl rfl rfl rfl, sameOutside_between s ..⟩

variable {i : Instr} {target : Word}

theorem jumps_of_exec (he : exec i s = s.jump target) : s.Jumps i target := by
  rw [State.Jumps, he]
  exact ⟨fun ha => ⟨_, jump_next hd ha, fun _ => rfl, { (retire_went hd).moved with pc := rfl }, sameOutside_between s ..⟩,
    jump_misaligned hd⟩

theorem jumpsDelayed_of_exec {act : SlotMsr} (he : exec i s = s.jumpDelayed target act) : s.JumpsDelayed i target act := by
  rw [State.JumpsDelayed, he]
  exact ⟨fun ha => ⟨_, jumpDelayed_next hd act ha, fun _ => rfl, { (retire_went hd).moved with ds := rfl },
    sameOutside_between s ..⟩, jumpDelayed_misaligned hd act⟩

/-- The link is written before the jump; `target` is a value read before it (R220). -/
theorem jumpsLinked_of_exec {rd : RegNum} (he : exec i s = (s.setReg rd s.pc).jumpDelayed target .none) :
    s.JumpsLinked i rd target := by
  have hu : (s.setReg rd s.pc).ds = none := hd
  have hmoved : s.Moved (s.setReg rd s.pc).retire (s.pc + 4#32) none s.msr := moved_retire_outside_slot hd rfl rfl rfl rfl
  rw [State.JumpsLinked, he]
  exact ⟨fun ha => ⟨_, jumpDelayed_next hu .none ha, oneReg_of_gpr _ _ rfl, { hmoved with ds := rfl },
    sameOutside_between s ..⟩, jumpDelayed_misaligned hu .none⟩

theorem notTaken_went : ∃ t, s.notTaken = .next t ∧ s.Went t (s.pc + 4#32) none s.msr := by
  rcases notTaken_cases s with ⟨hslot, -⟩ | ⟨-, hnext⟩
  · simp [hd] at hslot
  · exact ⟨_, hnext, retire_went hd⟩

variable {taken : Prop} [Decidable taken] {offset : Word}

theorem branches_of_exec (he : exec i s = s.branchIf (decide taken) false offset) : s.Branches i taken offset := by
  refine ⟨fun ht => jumps_of_exec hd ?_, fun ht => ?_⟩
  · rw [he, decide_eq_true ht]
    rfl
  · rw [he, decide_eq_false ht]
    exact notTaken_went hd

theorem branchesDelayed_of_exec (he : exec i s = s.branchIf (decide taken) true offset) :
    s.BranchesDelayed i taken offset := by
  refine ⟨fun ht => jumpsDelayed_of_exec hd ?_, fun ht => ?_⟩
  · rw [he, decide_eq_true ht]
    rfl
  · rw [he, decide_eq_false ht]
    exact notTaken_went hd

end

/-- Settles O12: the forms differ in the target, and in `jump` or `jumpDelayed`. -/
theorem unconditionalJumps : Obligations.UnconditionalJumps := fun _ _ _ hd =>
  ⟨jumps_of_exec hd rfl, jumps_of_exec hd rfl, jumps_of_exec hd rfl, jumps_of_exec hd rfl,
    jumpsDelayed_of_exec hd rfl, jumpsDelayed_of_exec hd rfl, jumpsDelayed_of_exec hd rfl, jumpsDelayed_of_exec hd rfl⟩

/-- Settles O13: the forms differ in the target, which each reads from the state without the link. -/
theorem linkedJumps : Obligations.LinkedJumps := fun _ _ _ _ hd =>
  ⟨jumpsLinked_of_exec hd rfl, jumpsLinked_of_exec hd rfl, jumpsLinked_of_exec hd rfl, jumpsLinked_of_exec hd rfl⟩

/-- Settles O14: the twelve forms are one branch, with a test of rA and an offset. -/
theorem conditionalBranchesPlain : Obligations.ConditionalBranchesPlain := by
  intro s ra rb imm hd
  constructorm* _ ∧ _ <;> exact branches_of_exec hd rfl

/-- Settles O15: the twelve forms are one delayed branch, with a test of rA and an offset. -/
theorem conditionalBranchesDelayed : Obligations.ConditionalBranchesDelayed := by
  intro s ra rb imm hd
  constructorm* _ ∧ _ <;> exact branchesDelayed_of_exec hd rfl

/-- Settles O16: the three returns are delayed jumps that differ in the MSR change they leave pending. -/
theorem returns : Obligations.Returns := fun _ _ _ hd =>
  ⟨jumpsDelayed_of_exec hd rfl, jumpsDelayed_of_exec hd rfl, jumpsDelayed_of_exec hd rfl⟩

end Sys2Proof.Machine
end

section
/-! PROOFS. The load and store family: an access that storage answers completes (43_load_store). `memRead_storage` and
`memWrite_storage` say what the memory operation leaves, past or through the data cache; the instruction adds its register
write and its end. -/

namespace Sys2Proof.Machine

variable {s t : State} {n : Size} {a : Nat}

/-- Through the data cache, a hit leaves the buslock output alone and anything else is a transfer (R92, R38). -/
theorem cachedRead_busLocked {v : Word} {dc : List (Nat × CacheLine)} {b : Bool} (h : s.CachedRead n a v dc b) :
    b = s.busLocked ∨ s.MayRead Msr.be b := by
  unfold State.CachedRead at h
  split at h
  · obtain ⟨-, hbe⟩ := h
    exact .inr hbe
  · split at h
    · obtain ⟨-, -, hbus⟩ := h
      exact .inl hbus
    · obtain ⟨-, hbe, -⟩ := h
      exact .inr hbe

/-- Settles O20: past the data cache the value and the transfer are the bus's; through it only the line and the buslock
output can differ; the rest is `load_frame`. -/
theorem loadsComplete : Obligations.LoadsComplete := by
  intro s n rd i base offset hload hans
  rw [exec_load hload, State.load]
  generalize effective n base offset = a at hans ⊢
  obtain ⟨v, dc, k, b, hread, hcase⟩ := memRead_storage s hans
  obtain ⟨hv, -⟩ := memRead_next s hread
  obtain ⟨hreg, hmoved, hin, hmem, hq⟩ := load_frame s rd v dc k b s.devLog rfl
  rw [hread]
  refine ⟨_, v, rfl, hreg, hv, hmoved, hin, hmem, hq, rfl, rfl, ?_⟩
  rcases hcase with ⟨-, hval, hdc, hbe⟩ | ⟨hnot, hline⟩
  · exact ⟨.inr hbe, fun _ => ⟨hbe, hdc, hval⟩⟩
  · exact ⟨cachedRead_busLocked hline, fun hb => absurd hb hnot⟩

/-- What a store that storage answers leaves alone and how it ends, whatever it wrote and drove on the bus. -/
theorem store_frame (s : State) (m : Memory) (st : List (Nat × Nat)) (dc : List (Nat × CacheLine)) (k : Nat) (b : Bool)
    (ht : t = State.retire { s with mem := m, stored := st, dcache := dc, draws := k, busLocked := b }) :
    s.SameRegs t ∧ s.Moved t s.following none (s.afterSlot s.msr) ∧ s.SameInputs t ∧ s.SameQueues t := by
  subst ht
  exact ⟨fun _ => rfl, moved_retire s _ rfl rfl rfl, ⟨rfl, rfl, rfl, rfl, rfl, rfl, rfl, rfl⟩, ⟨rfl, rfl⟩⟩

/-- Settles O22: memory is written whatever the data cache does, and read back by `read_writeSize`, the access lying inside
the address space; the rest is `store_frame`. -/
theorem storesComplete : Obligations.StoresComplete := by
  intro s n rd i base offset hstore hwf hans
  have hfits := effective_fits n base offset
  rw [exec_store hstore, State.store]
  generalize effective n base offset = a at hans hfits ⊢
  obtain ⟨dc, k, b, hwrite, hbe, hcase⟩ := memWrite_storage s (s.reg rd) hans
  obtain ⟨hregs, hmoved, hin, hq⟩ := store_frame s (Memory.writeSize s.mem n a (s.reg rd))
    (if Config.sharedID s.cfg a then Assoc.put s.stored (a / 4 * 4) s.icount else s.stored) dc k b rfl
  rw [hwrite]
  refine ⟨_, rfl, hregs, hmoved, hin, hq, rfl, rfl, rfl, hbe, read_writeSize n (s.reg rd) hwf hfits, fun hb => ?_⟩
  rcases hcase with ⟨-, hdc⟩ | ⟨hnot, -⟩
  · exact hdc
  · exact absurd hb hnot

end Sys2Proof.Machine
end

section
/-! PROOFS. The special family: the `imm` lock, reads and writes of the special registers, software breaks and cache line
writes (44_special). A read of MSR only draws free bits (`readMsr_eq`, `readFlag_eq`), so each instruction is a register, MSR
or line write followed by one of the shared ends, whose frame is stated once. -/

namespace Sys2Proof.Machine

variable {i : Instr} {s t : State}

/-! ### Setting the `imm` lock (R310) -/

theorem lockImm_next (hd : s.ds = none) (v : Imm16) : s.lockImm v = .next { s.retire with imm := some v } :=
  if_neg (by simp [hd])

/-- Settles O28: `imm` retires with its value locked, so it differs from an instruction without any effect in the lock. -/
theorem immPrefixLocks : Obligations.ImmPrefixLocks := by
  intro s v hd
  obtain ⟨hregs, hmoved, -⟩ := retire_went hd
  exact ⟨_, lockImm_next hd v, rfl, hmoved.pc, rfl, rfl, hmoved.msr, hregs, sameOutside_between s ..⟩

/-! ### Reads of the special registers (R311, R39) -/

/-- The count of free values drawn is not outside either. -/
theorem State.SameOutside.drawn (h : s.SameOutside t) (k : Nat) : s.SameOutside { t with draws := k } :=
  ⟨{ h.inputs with }, { h.storage with }, { h.caches with }, { h.queues with }⟩

/-- `writeBack` of a value read from MSR. -/
theorem readMsr_writeBack_wrote (s : State) (rd : RegNum) (v : Word) :
    ∃ t, s.readMsr.2.writeBack rd v = .next t ∧ s.Wrote t rd v s.msr := by
  obtain ⟨k, hk⟩ := readMsr_eq s
  rw [hk]
  exact ⟨_, rfl, wrote_retire s (State.setReg { s with draws := k } rd v) rfl rfl rfl rfl
    ((sameOutside_between s ..).drawn k)⟩

/-- Settles O30: both selectors write a register back, after no read and after a read of MSR. -/
theorem readSpecialRegister : Obligations.ReadSpecialRegister := by
  intro s rd
  obtain ⟨t, hnext, hwrote⟩ := readMsr_writeBack_wrote s rd s.readMsr.1.toWord
  exact ⟨writeBack_wrote s rd s.pc, t, s.readMsr.1, readMsr_mayRead s, hnext, hwrote⟩

/-! ### Explicit writes of MSR (R312 to R314, R40, R466) -/

theorem msrWritable_iff : s.msrWritable = true ↔ ∀ d, s.ds = some d → d.act = .none := by
  simp [State.msrWritable, Option.all_eq_true]

theorem msrWritable_of_return {d : Delayed} (hd : s.ds = some d) (hact : d.act ≠ .none) : s.msrWritable = false :=
  Bool.eq_false_iff.2 fun hw => hact (msrWritable_iff.1 hw d hd)

/-- Where MSR may be written, the end of the instruction does not change it again. -/
theorem slotMsr_of_msrWritable (hw : s.msrWritable = true) : s.slotMsr = s.msr := by
  rcases slotMsr_cases s with hm | ⟨⟨d, hd, hact⟩, -⟩ | ⟨⟨d, hd, hact⟩, -⟩
  · exact hm
  · cases hact.symm.trans (msrWritable_iff.1 hw d hd)
  · cases hact.symm.trans (msrWritable_iff.1 hw d hd)

/-- How an explicit MSR write ends, whatever register it wrote and however many free values its read of MSR drew. -/
theorem retireMsr_frame (hw : s.msrWritable = true) (g : Vector Word 31) (k : Nat) (m : Msr)
    (ht : t = State.retireMsr { s with gpr := g, draws := k } m) :
    t.msr = m ∧ t.window = some s.msr ∧ t.pc = s.following ∧ t.ds = none ∧ t.imm = none ∧ s.SameOutside t := by
  subst ht
  exact ⟨slotMsr_of_msrWritable (s := { s with gpr := g, draws := k, msr := m }) hw, rfl, rfl, rfl, rfl,
    (sameOutside_between s ..).drawn k⟩

theorem exec_mts_rmsr (s : State) (ra : RegNum) : exec (.mts ra .rmsr) s =
    if s.msrWritable then .next (s.retireMsr (Msr.ofWord (s.reg ra))) else .refused .msrWriteInReturnSlot := rfl

/-- Settles O32: `mts rmsr` is `retireMsr` where MSR may be written, on the register file and the draws as they are. -/
theorem mtsCompletes : Obligations.MtsCompletes := by
  refine fun s ra => ⟨fun hslot => ?_, fun d hd hact => ?_, rfl⟩
  · have hw := msrWritable_iff.2 hslot
    obtain ⟨hmsr, hwindow, hpc, hds, himm, hout⟩ := retireMsr_frame hw s.gpr s.draws (Msr.ofWord (s.reg ra)) rfl
    exact ⟨_, (exec_mts_rmsr s ra).trans (if_pos hw), hmsr, hwindow, hpc, hds, himm, fun _ => rfl, hout⟩
  · rw [exec_mts_rmsr, msrWritable_of_return hd hact]
    rfl

/-- The change is made to the stored MSR, while rD gets MSR as read (R466 points 2 and 3). -/
theorem changeMsr_completes (hopt : s.cfg.useMsrInstr = true) (hw : s.msrWritable = true) (rd : RegNum)
    (change : Word → Word) : ∃ t m, s.MayReadMsr m ∧ s.changeMsr rd change = .next t ∧ s.OneReg t rd m.toWord ∧
      t.msr = Msr.ofWord (change s.msr.toWord) ∧ t.window = some s.msr ∧ t.pc = s.following ∧ t.ds = none ∧
      t.imm = none ∧ s.SameOutside t := by
  obtain ⟨k, hk⟩ := readMsr_eq s
  rw [State.changeMsr, hopt, needs_true, if_pos hw, hk]
  exact ⟨_, _, readMsr_mayRead s, rfl, oneReg_of_gpr s _ rfl, retireMsr_frame hw _ k _ rfl⟩

theorem changeMsr_in_return_slot (hopt : s.cfg.useMsrInstr = true) (hw : s.msrWritable = false) (rd : RegNum)
    (change : Word → Word) : s.changeMsr rd change = .refused .msrWriteInReturnSlot := by
  rw [State.changeMsr, hopt, needs_true, hw]
  rfl

/-- The mask by the encoding in use (R313). -/
theorem msrMask_eq (s : State) (imm : Imm16) :
    s.msrMask imm = if s.cfg.msrEncoding = .printed then s.imm32 imm else imm.setWidth 32 := by
  unfold State.msrMask
  cases s.cfg.msrEncoding <;> rfl

theorem exec_msrset (s : State) (rd : RegNum) (imm : Imm16) :
    exec (.msrset rd imm) s = s.changeMsr rd (fun old => old ||| s.msrMask imm) := rfl

theorem exec_msrclr (s : State) (rd : RegNum) (imm : Imm16) :
    exec (.msrclr rd imm) s = s.changeMsr rd (fun old => old &&& ~~~s.msrMask imm) := rfl

/-- Settles O33: `msrset` and `msrclr` are `changeMsr` with the or and the and-not of the mask. -/
theorem msrSetAndClear : Obligations.MsrSetAndClear := by
  intro s rd imm mask hopt hmask
  rw [← msrMask_eq] at hmask
  subst hmask
  rw [exec_msrset, exec_msrclr]
  refine ⟨fun hslot => ?_, fun d hd hact => ?_⟩
  · have hw := msrWritable_iff.2 hslot
    exact ⟨changeMsr_completes hopt hw rd _, changeMsr_completes hopt hw rd _⟩
  · have hw := msrWritable_of_return hd hact
    exact ⟨changeMsr_in_return_slot hopt hw rd _, changeMsr_in_return_slot hopt hw rd _⟩

/-! ### Software breaks (R315, R316) -/

/-- A break links, sets BIP and jumps; `target` is a value read before the link. -/
theorem break_of_exec {rd : RegNum} {target : Word} (hd : s.ds = none)
    (he : exec i s = ((s.setReg rd s.pc).setBIP).jump target) :
    (target.toNat % 4 = 0 → ∃ t, exec i s = .next t ∧ s.Linked t rd target none { s.msr with bip := true }) ∧
      (target.toNat % 4 ≠ 0 → exec i s = .refused .misalignedFetch) := by
  have hu : ((s.setReg rd s.pc).setBIP).ds = none := hd
  have hmoved : s.Moved ((s.setReg rd s.pc).setBIP).retire s.following none { s.msr with bip := true } := by
    simpa [State.afterSlot, hd] using moved_retire s ((s.setReg rd s.pc).setBIP) rfl rfl rfl
  rw [he]
  exact ⟨fun ha => ⟨_, jump_next hu ha, oneReg_of_gpr s _ rfl, { hmoved with pc := rfl }, sameOutside_between s ..⟩,
    jump_misaligned hu⟩

/-- Settles O34: the two breaks differ in the target. -/
theorem softwareBreaks : Obligations.SoftwareBreaks := by
  intro s rd rb imm hd
  obtain ⟨hreg, hregMisaligned⟩ := break_of_exec (i := .brk rd rb) hd rfl
  obtain ⟨himm, himmMisaligned⟩ := break_of_exec (i := .brki rd imm) hd rfl
  exact ⟨hreg, hregMisaligned, himm, himmMisaligned⟩

/-! ### Cache line writes (R319, R320, R88, R91) -/

section
variable {f : Msr → Bool} {write : State → State} {present : Bool} (hp : present = true)
  (he : exec i s = needs present (if (s.readFlag f).1 then .refused .cacheWriteWhileEnabled
    else .next (write (s.readFlag f).2).retire))
include hp he

/-- A write guarded by an enable bit that reads 0. -/
theorem exec_of_cache_off (hoff : ∀ b, s.MayRead f b → b = false) :
    ∃ k, exec i s = .next (write { s with draws := k }).retire := by
  obtain ⟨k, hk⟩ := readFlag_eq s f
  refine ⟨k, ?_⟩
  rw [he, hp, needs_true, readFlag_forced s hoff, hk]
  rfl

theorem exec_of_cache_on (hon : ∀ b, s.MayRead f b → b = true) :
    exec i s = .refused .cacheWriteWhileEnabled := by
  rw [he, hp, needs_true, readFlag_forced s hon]
  rfl

end

/-- What a cache line write leaves alone and how it ends, whatever the caches then hold. -/
theorem cacheWrite_frame (s : State) (ic dc : List (Nat × CacheLine)) (k : Nat)
    (ht : t = State.retire { s with icache := ic, dcache := dc, draws := k }) :
    s.SameRegs t ∧ s.Moved t s.following none (s.afterSlot s.msr) ∧ s.SameInputs t ∧ s.SameStorage t ∧
      s.SameQueues t := by
  subst ht
  exact ⟨fun _ => rfl, moved_retire s _ rfl rfl rfl, ⟨rfl, rfl, rfl, rfl, rfl, rfl, rfl, rfl⟩,
    ⟨fun _ => rfl, fun _ => rfl, rfl, rfl, rfl⟩, ⟨rfl, rfl⟩⟩

theorem wic_of_ice_off {ra rb : RegNum} (hp : (s.cfg.icache.use && s.cfg.icache.allowWrite) = true)
    (hoff : ∀ b, s.MayRead Msr.ice b → b = false) :
    ∃ k, exec (.wic ra rb) s = .next (State.putICache { s with draws := k } (s.reg ra) (s.reg rb)).retire :=
  exec_of_cache_off (write := (·.putICache (s.reg ra) (s.reg rb))) hp rfl hoff

theorem wdc_of_dce_off {ra rb : RegNum} (hp : (s.cfg.dcache.use && s.cfg.dcache.allowWrite) = true)
    (hoff : ∀ b, s.MayRead Msr.dce b → b = false) :
    ∃ k, exec (.wdc ra rb) s = .next (State.putDCache { s with draws := k } (s.reg ra) (s.reg rb)).retire :=
  exec_of_cache_off (write := (·.putDCache (s.reg ra) (s.reg rb))) hp rfl hoff

/-- Settles O35: the line is read back by `find_put`, and the rest is `cacheWrite_frame`. -/
theorem cacheLineWrites : Obligations.CacheLineWrites := by
  refine fun s ra rb => ⟨fun huse hallow => ?_, fun huse hallow => ?_⟩
  · have hp : (s.cfg.icache.use && s.cfg.icache.allowWrite) = true := Bool.and_eq_true_iff.2 ⟨huse, hallow⟩
    refine ⟨fun hoff => ?_, exec_of_cache_on (write := (·.putICache (s.reg ra) (s.reg rb))) hp rfl⟩
    obtain ⟨k, hnext⟩ := wic_of_ice_off hp hoff
    obtain ⟨hregs, hmoved, hin, hstorage, hqueues⟩ := cacheWrite_frame s _ s.dcache k rfl
    exact ⟨_, hnext, hregs, hmoved, hin, hstorage, hqueues, rfl, fun j => find_put _ _ j _⟩
  · have hp : (s.cfg.dcache.use && s.cfg.dcache.allowWrite) = true := Bool.and_eq_true_iff.2 ⟨huse, hallow⟩
    refine ⟨fun hoff => ?_, exec_of_cache_on (write := (·.putDCache (s.reg ra) (s.reg rb))) hp rfl⟩
    obtain ⟨k, hnext⟩ := wdc_of_dce_off hp hoff
    obtain ⟨hregs, hmoved, hin, hstorage, hqueues⟩ := cacheWrite_frame s s.icache _ k rfl
    exact ⟨_, hnext, hregs, hmoved, hin, hstorage, hqueues, rfl, fun j => find_put _ _ j _⟩

end Sys2Proof.Machine
end

section
/-! PROOFS. The FSL family: gets, puts, what they do when the channel cannot go on, and the order of the queues (45_fsl). The
eight instructions are two gets and two puts, each with the control bit it expects or sends; what each of those four does on
a channel that can go on and on one that cannot is stated once. -/

namespace Sys2Proof.Machine

variable {s t : State} {r : RegNum} {ch : Channel} {x : FslItem} {q : List FslItem}

/-! ### The state of a channel (R340) -/

theorem hasChannel_of_lt (h : ch.toNat < s.cfg.fslLinks) : s.hasChannel ch = true := decide_eq_true h

theorem outFull_of_length_lt (h : (s.outQueue ch).length < s.cfg.fslDepth) : s.outFull ch = false :=
  decide_eq_false (Nat.not_le.2 h)

theorem outFull_of_length_eq (h : (s.outQueue ch).length = s.cfg.fslDepth) : s.outFull ch = true :=
  decide_eq_true h.ge

theorem inQueue_congr (h : t.inQ = s.inQ) (ch : Channel) : t.inQueue ch = s.inQueue ch := by
  rw [State.inQueue, h, State.inQueue]

theorem outQueue_congr (h : t.outQ = s.outQ) (ch : Channel) : t.outQueue ch = s.outQueue ch := by
  rw [State.outQueue, h, State.outQueue]

/-! ### The two gets and the two puts (R341 to R350) -/

section
variable (hch : s.hasChannel ch = true)
include hch

theorem getBlocking_empty (hempty : s.inQueue ch = []) (control : Bool) : s.getBlocking r ch control = .next s := by
  rw [State.getBlocking, hch, needs_true, hempty]

/-- The error bit `e` is whether the control bit is not the expected one. -/
theorem getBlocking_item (hq : s.inQueue ch = x :: q) {control e : Bool} (he : (x.control != control) = e) :
    s.getBlocking r ch control =
      .next (State.retire { s.popInto r ch control x q with msr := { s.msr with fsl := e } }) := by
  subst he
  rw [State.getBlocking, hch, needs_true, hq]
  rfl

/-- rD and the error bit take free values (log 12). -/
theorem getNonBlocking_empty (hempty : s.inQueue ch = []) (control : Bool) :
    ∃ t v b, s.getNonBlocking r ch control = .next t ∧ s.Wrote t r v { s.msr with fsl := b, c := true } := by
  rw [State.getNonBlocking, hch, needs_true, hempty]
  exact ⟨_, _, _, rfl, wrote_retire s _ rfl rfl rfl rfl ((sameOutside_between s ..).drawn _)⟩

theorem getNonBlocking_item (hq : s.inQueue ch = x :: q) {control e : Bool} (he : (x.control != control) = e) :
    s.getNonBlocking r ch control =
      .next (State.retire { s.popInto r ch control x q with msr := { s.msr with fsl := e, c := false } }) := by
  subst he
  rw [State.getNonBlocking, hch, needs_true, hq]
  rfl

theorem putBlocking_full (hfull : s.outFull ch = true) (control : Bool) : s.putBlocking r ch control = .next s := by
  rw [State.putBlocking, hch, needs_true, if_pos hfull]

theorem putBlocking_room (hroom : s.outFull ch = false) (control : Bool) :
    s.putBlocking r ch control = .next (State.retire { s.push r ch control with msr := s.msr }) := by
  rw [State.putBlocking, hch, needs_true, hroom]
  rfl

theorem putNonBlocking_full (hfull : s.outFull ch = true) (control : Bool) : ∃ t,
    s.putNonBlocking r ch control = .next t ∧ s.Went t s.following none (s.afterSlot { s.msr with c := true }) := by
  rw [State.putNonBlocking, hch, needs_true, if_pos hfull]
  exact ⟨_, rfl, fun _ => rfl, moved_retire s (s.setC true) rfl rfl rfl, sameOutside_between s ..⟩

theorem putNonBlocking_room (hroom : s.outFull ch = false) (control : Bool) : s.putNonBlocking r ch control =
    .next (State.retire { s.push r ch control with msr := { s.msr with c := false } }) := by
  rw [State.putNonBlocking, hch, needs_true, hroom]
  rfl

end

/-! ### Transfers that complete (R341 to R349) -/

/-- What a get that found an item leaves alone and how it ends, whatever it leaves in MSR. -/
theorem popInto_frame (s : State) (r : RegNum) (ch : Channel) (control : Bool) (x : FslItem) (q : List FslItem) (m : Msr)
    (ht : t = State.retire { s.popInto r ch control x q with msr := m }) :
    s.OneReg t r x.data ∧ s.Moved t s.following none (s.afterSlot m) ∧ s.SameInputs t ∧ s.SameStorage t ∧
      s.SameCaches t ∧ t.outQ = s.outQ ∧ t.inQueue ch = q ∧ ∀ k, k ≠ ch → t.inQueue k = s.inQueue k := by
  subst ht
  have hqueue := fun k => inQueue_set s ch k q (State.retire { s.popInto r ch control x q with msr := m }) rfl
  exact ⟨oneReg_of_gpr s _ rfl, moved_retire s _ rfl rfl rfl, ⟨rfl, rfl, rfl, rfl, rfl, rfl, rfl, rfl⟩,
    ⟨fun _ => rfl, fun _ => rfl, rfl, rfl, rfl⟩, ⟨rfl, rfl⟩, rfl, (hqueue ch).trans (if_pos rfl),
    fun k hk => (hqueue k).trans (if_neg hk)⟩

/-- The same of a put that found room. -/
theorem push_frame (s : State) (r : RegNum) (ch : Channel) (control : Bool) (m : Msr)
    (ht : t = State.retire { s.push r ch control with msr := m }) :
    s.SameRegs t ∧ s.Moved t s.following none (s.afterSlot m) ∧ s.SameInputs t ∧ s.SameStorage t ∧ s.SameCaches t ∧
      t.inQ = s.inQ ∧ t.outQueue ch = s.outQueue ch ++ [⟨s.reg r, control⟩] ∧
      ∀ k, k ≠ ch → t.outQueue k = s.outQueue k := by
  subst ht
  have hqueue := fun k => outQueue_set s ch k _ (State.retire { s.push r ch control with msr := m }) rfl
  exact ⟨fun _ => rfl, moved_retire s _ rfl rfl rfl, ⟨rfl, rfl, rfl, rfl, rfl, rfl, rfl, rfl⟩,
    ⟨fun _ => rfl, fun _ => rfl, rfl, rfl, rfl⟩, ⟨rfl, rfl⟩, rfl, (hqueue ch).trans (if_pos rfl),
    fun k hk => (hqueue k).trans (if_neg hk)⟩

/-- Settles O36: the error bit is the control bit where 0 is expected and its complement where 1 is; the rest is
`popInto_frame`. -/
theorem getTakesTheHead : Obligations.GetTakesTheHead := by
  rintro s rd ch x q hlinks hq i m (⟨rfl, rfl⟩ | ⟨rfl, rfl⟩ | ⟨rfl, rfl⟩ | ⟨rfl, rfl⟩) <;>
    have hch := hasChannel_of_lt hlinks
  · exact ⟨_, getBlocking_item hch hq (Bool.bne_false _), popInto_frame s rd ch false x q _ rfl⟩
  · exact ⟨_, getBlocking_item hch hq (Bool.bne_true _), popInto_frame s rd ch true x q _ rfl⟩
  · exact ⟨_, getNonBlocking_item hch hq (Bool.bne_false _), popInto_frame s rd ch false x q _ rfl⟩
  · exact ⟨_, getNonBlocking_item hch hq (Bool.bne_true _), popInto_frame s rd ch true x q _ rfl⟩

/-- Settles O37: with room every put is `push`, whose frame is `push_frame`. -/
theorem putAppendsAnItem : Obligations.PutAppendsAnItem := by
  rintro s ra ch hlinks hlen i ctl m (⟨rfl, rfl, rfl⟩ | ⟨rfl, rfl, rfl⟩ | ⟨rfl, rfl, rfl⟩ | ⟨rfl, rfl, rfl⟩) <;>
    have hch := hasChannel_of_lt hlinks <;> have hroom := outFull_of_length_lt hlen
  · exact ⟨_, putBlocking_room hch hroom false, push_frame s ra ch false _ rfl⟩
  · exact ⟨_, putBlocking_room hch hroom true, push_frame s ra ch true _ rfl⟩
  · exact ⟨_, putNonBlocking_room hch hroom false, push_frame s ra ch false _ rfl⟩
  · exact ⟨_, putNonBlocking_room hch hroom true, push_frame s ra ch true _ rfl⟩

/-! ### Transfers that cannot go on (R349, R350) -/

/-- Settles O38: neither failure looks at the control bit. -/
theorem nonBlockingFslFailure : Obligations.NonBlockingFslFailure := by
  refine fun s r ch hlinks => ⟨fun hempty => ?_, fun hlen => ?_⟩ <;> have hch := hasChannel_of_lt hlinks
  · exact ⟨getNonBlocking_empty hch hempty false, getNonBlocking_empty hch hempty true⟩
  · have hfull := outFull_of_length_eq hlen
    exact ⟨putNonBlocking_full hch hfull false, putNonBlocking_full hch hfull true⟩

/-- Settles O39: a wait answers the state it started from. -/
theorem blockingFslWaits : Obligations.BlockingFslWaits := by
  refine fun s r ch hlinks => ⟨fun hempty => ?_, fun hlen => ?_⟩ <;> have hch := hasChannel_of_lt hlinks
  · exact ⟨getBlocking_empty hch hempty false, getBlocking_empty hch hempty true⟩
  · have hfull := outFull_of_length_eq hlen
    exact ⟨putBlocking_full hch hfull false, putBlocking_full hch hfull true⟩

/-! ### The order of the queues (R340) -/

/-- Settles O44: `Effect` removes heads and appends items by the instructions named, and the ending touches no queue. -/
theorem fslOrderPreserved : Obligations.FslOrderPreserved := by
  intro i s t h ch
  rcases exec_next h with rfl | ⟨u, hu, hend⟩
  · exact ⟨.inl rfl, .inl rfl⟩
  obtain ⟨-, -, -, -, -, -, hinQ, houtQ, -⟩ := ending_frame hend
  rw [inQueue_congr hinQ, outQueue_congr houtQ]
  exact ⟨hu.inQ ch, (hu.outQ ch).imp_right fun ⟨hputs, _, happend⟩ => ⟨hputs, happend⟩⟩

end Sys2Proof.Machine
end

section
/-! PROOFS. The exceptions family: what an entry writes, what the event test does at a boundary, what one step is made of
(60_exceptions R402 to R421), and what the environment leaves alone (R437). -/

namespace Sys2Proof.Machine

variable {s t u : State}

/-! ### Entries (R402, R413, R417, R418, R421) -/

/-- What all entries have in common: the link, the vector, the new MSR and the closed window, and all that stays. -/
structure State.Entered (s t : State) (link : RegNum) (vector : Word) (m : Msr) : Prop where
  pc : t.pc = vector
  regs : s.OneReg t link s.pc
  msr : t.msr = m
  imm : t.imm = s.imm
  ds : t.ds = s.ds
  storage : s.SameStorage t
  caches : s.SameCaches t
  queues : s.SameQueues t
  window : t.window = none

/-- An entry is `enter` and the acknowledgement of one request. -/
theorem entered_of_enter {link : RegNum} {vector : Word} {change : Msr → Msr} {nm brk exc latch : Bool}
    (h : t = { s.enter link vector change with nm := nm, brk := brk, exc := exc, intLatch := latch }) :
    s.Entered t link vector (change s.msr) := by
  subst h
  exact ⟨rfl, oneReg_of_gpr _ _ rfl, rfl, rfl, rfl, ⟨fun _ => rfl, fun _ => rfl, rfl, rfl, rfl⟩, ⟨rfl, rfl⟩, ⟨rfl, rfl⟩, rfl⟩

theorem takeInterrupt_entered (s : State) : s.Entered s.takeInterrupt 14#5 0x10#32 { s.msr with ie := false } :=
  entered_of_enter (change := fun m => { m with ie := false }) rfl

theorem takeBreak_entered (s : State) : s.Entered s.takeBreak 16#5 0x18#32 { s.msr with bip := true } :=
  entered_of_enter (change := fun m => { m with bip := true }) rfl

theorem takeNmBreak_entered (s : State) : s.Entered s.takeNmBreak 16#5 0x18#32 { s.msr with bip := true } :=
  entered_of_enter (change := fun m => { m with bip := true }) rfl

theorem takeException_entered (s : State) : s.Entered s.takeException 17#5 0x08#32 s.msr :=
  entered_of_enter (change := id) rfl

/-- Settles O49: the entry is `Entered`, and of the requests only the latch is touched. -/
theorem interruptEntry : Obligations.InterruptEntry := by
  intro s
  obtain ⟨hpc, hregs, hmsr, himm, hds, hstorage, hcaches, hqueues, -⟩ := takeInterrupt_entered s
  exact ⟨hpc, hregs, hmsr, himm, hds, hstorage, hcaches, hqueues, rfl, rfl, rfl, rfl, rfl⟩

/-- Settles O50: the entry is `Entered`, and of the requests only BRK is cleared. -/
theorem breakEntry : Obligations.BreakEntry := by
  intro s
  obtain ⟨hpc, hregs, hmsr, himm, hds, hstorage, hcaches, hqueues, -⟩ := takeBreak_entered s
  exact ⟨hpc, hregs, hmsr, himm, hds, hstorage, hcaches, hqueues, rfl, rfl, rfl, rfl, rfl⟩

/-- Settles O51: both entries are `Entered` and clear their own request; `Entered` closes the window for all four. -/
theorem nonMaskableBreakAndExceptionEntry : Obligations.NonMaskableBreakAndExceptionEntry := by
  refine fun s => ⟨?_, ?_, (takeInterrupt_entered s).window, (takeBreak_entered s).window,
    (takeNmBreak_entered s).window, (takeException_entered s).window⟩
  · obtain ⟨hpc, hregs, hmsr, himm, hds, hstorage, hcaches, hqueues, -⟩ := takeNmBreak_entered s
    exact ⟨hpc, hregs, hmsr, himm, hds, hstorage, hcaches, hqueues, rfl, rfl, rfl, rfl, rfl⟩
  · obtain ⟨hpc, hregs, hmsr, himm, hds, hstorage, hcaches, hqueues, -⟩ := takeException_entered s
    exact ⟨hpc, hregs, hmsr, himm, hds, hstorage, hcaches, hqueues, rfl, rfl, rfl, rfl, rfl⟩

/-! ### One request at a boundary (R405, R411, R416, R418, R421) -/

theorem pollNm_disabled (h : s.nm = false) : s.pollNm = (false, s) := by
  simp [State.pollNm, State.offered, h]

theorem pollNm_enabled (h : s.nm = true) : s.pollNm = s.drawBit := by
  simp [State.pollNm, State.offered, h]

theorem pollBreak_disabled (h : s.brk = false ∨ (s.window = none ∧ s.msr.bip = true)) : s.pollBreak = (false, s) := by
  unfold State.pollBreak
  rcases h with hbrk | ⟨hw, hbip⟩
  · simp [hbrk]
  · simp [readFlag_closed s Msr.bip hw, State.offered, hbip]

theorem pollBreak_enabled (h : s.brk = true) (hw : s.window = none) (hbip : s.msr.bip = false) :
    s.pollBreak = s.drawBit := by
  simp [State.pollBreak, h, readFlag_closed s Msr.bip hw, State.offered, hbip]

theorem pollException_disabled (h : s.exc = false) : s.pollException = (false, s) := by
  simp [State.pollException, State.offered, h]

theorem pollException_enabled (h : s.exc = true) : s.pollException = s.drawBit := by
  simp [State.pollException, State.offered, h]

theorem pollInterrupt_disabled
    (h : s.interruptRequest = false ∨ (s.window = none ∧ (s.msr.ie = false ∨ s.msr.bip = true))) :
    s.pollInterrupt = (false, s) := by
  unfold State.pollInterrupt
  rcases h with hint | ⟨hw, hmask⟩
  · simp [hint]
  · have hoff : (s.msr.ie && !s.msr.bip) = false := by rcases hmask with h | h <;> simp [h]
    simp [readFlag_closed s _ hw, State.offered, hoff]

theorem pollInterrupt_enabled (h : s.interruptRequest = true) (hw : s.window = none) (hie : s.msr.ie = true)
    (hbip : s.msr.bip = false) : s.pollInterrupt = s.drawBit := by
  simp [State.pollInterrupt, h, readFlag_closed s _ hw, State.offered, hie, hbip]

/-! ### The event test (R404 to R406) -/

theorem pollEvents_heldOff (h : s.heldOff = true) : s.pollEvents = (false, s) := by
  simp [State.pollEvents, h]

/-- With every request absent or masked each part of the test passes the state on. -/
theorem pollEvents_undisturbed (h : s.undisturbed) : s.pollEvents = (false, s) := by
  rcases h with himm | hds | ⟨hnm, hexc, hbrk, hint⟩
  · exact pollEvents_heldOff (by simp [State.heldOff, himm])
  · exact pollEvents_heldOff (by simp [State.heldOff, hds])
  · cases hheld : s.heldOff with
    | true => exact pollEvents_heldOff hheld
    | false =>
      simp [State.pollEvents, hheld, pollNm_disabled hnm, pollBreak_disabled hbrk, pollException_disabled hexc,
        pollInterrupt_disabled hint]

/-- What the test answers where one entry is offered and nothing else can be taken: a free bit decides (R405). -/
def State.offers (s : State) (entry : State → State) : Bool × State :=
  if Config.freeBit s.draws then (true, entry { s with draws := s.draws + 1 })
  else (false, { s with draws := s.draws + 1 })

section
variable (hheld : s.heldOff = false)
include hheld

theorem pollEvents_nm_alone (hnm : s.nm = true) (hbrk : s.brk = false) (hexc : s.exc = false)
    (hint : s.interruptRequest = false) : s.pollEvents = s.offers State.takeNmBreak := by
  have hbreak := pollBreak_disabled (s := s.drawBit.2) (.inl hbrk)
  have hexception := pollException_disabled (s := s.drawBit.2) hexc
  have hinterrupt := pollInterrupt_disabled (s := s.drawBit.2) (.inl hint)
  simp only [State.pollEvents, hheld, pollNm_enabled hnm, hbreak, hexception, hinterrupt]
  rfl

theorem pollEvents_brk_alone (hw : s.window = none) (hbip : s.msr.bip = false) (hnm : s.nm = false)
    (hbrk : s.brk = true) (hexc : s.exc = false) (hint : s.interruptRequest = false) :
    s.pollEvents = s.offers State.takeBreak := by
  have hexception := pollException_disabled (s := s.drawBit.2) hexc
  have hinterrupt := pollInterrupt_disabled (s := s.drawBit.2) (.inl hint)
  simp only [State.pollEvents, hheld, pollNm_disabled hnm, pollBreak_enabled hbrk hw hbip, hexception, hinterrupt]
  rfl

theorem pollEvents_exc_alone (hnm : s.nm = false) (hbrk : s.brk = false) (hexc : s.exc = true)
    (hint : s.interruptRequest = false) : s.pollEvents = s.offers State.takeException := by
  have hinterrupt := pollInterrupt_disabled (s := s.drawBit.2) (.inl hint)
  simp only [State.pollEvents, hheld, pollNm_disabled hnm, pollBreak_disabled (.inl hbrk), pollException_enabled hexc,
    hinterrupt]
  rfl

theorem pollEvents_int_alone (hw : s.window = none) (hie : s.msr.ie = true) (hbip : s.msr.bip = false)
    (hnm : s.nm = false) (hbrk : s.brk = false) (hexc : s.exc = false) (hint : s.interruptRequest = true) :
    s.pollEvents = s.offers State.takeInterrupt := by
  simp only [State.pollEvents, hheld, pollNm_disabled hnm, pollBreak_disabled (.inl hbrk), pollException_disabled hexc,
    pollInterrupt_enabled hint hw hie hbip]
  rfl

end

/-- Settles O52: `pollEvents_cases` says what the test may take, and a lone enabled request is offered. -/
theorem eventsAtABoundary : Obligations.EventsAtABoundary := by
  refine fun s => ⟨?_, pollEvents_undisturbed, fun himm hds hw => ?_⟩
  · rcases pollEvents_cases s with ⟨hev, himm, hds, n, hentry⟩ | ⟨hev, n, he⟩
    · refine ⟨n, .inr ⟨himm, hds, ?_⟩⟩
      rcases hentry with ⟨hnm, he⟩ | ⟨hbrk, hbip, he⟩ | ⟨hexc, he⟩ | ⟨hint, hie, hbip, he⟩
      · exact .inl ⟨hnm, Prod.ext hev he⟩
      · exact .inr (.inl ⟨hbrk, hbip, Prod.ext hev he⟩)
      · exact .inr (.inr (.inl ⟨hexc, Prod.ext hev he⟩))
      · exact .inr (.inr (.inr ⟨hint, hie, hbip, Prod.ext hev he⟩))
    · exact ⟨n, .inl (Prod.ext hev he)⟩
  · have hheld : s.heldOff = false := by simp [State.heldOff, himm, hds]
    refine ⟨?_, ?_, ?_, ?_⟩
    · exact fun hnm hbrk hexc hint => pollEvents_nm_alone hheld hnm hbrk hexc hint
    · exact fun hbrk hbip hnm hexc hint => pollEvents_brk_alone hheld hw hbip hnm hbrk hexc hint
    · exact fun hexc hnm hbrk hint => pollEvents_exc_alone hheld hnm hbrk hexc hint
    · exact fun hint hie hbip hnm hbrk hexc => pollEvents_int_alone hheld hw hie hbip hnm hbrk hexc hint

/-! ### What a step is made of (R405) -/

/-- Fetch, decode and execute, where the fetch answers. -/
theorem fetchExec_of_fetch {w : Word} (h : s.fetchWord = .next (w, u)) :
    (∀ i, decodeWord u.cfg w = .ok i → s.fetchExec = exec i u) ∧
      (∀ e, decodeWord u.cfg w = .error e → s.fetchExec = .refused .illegalEncoding) := by
  refine ⟨fun i hi => ?_, fun e he => ?_⟩
  · simp [State.fetchExec, h, Res.bind, hi]
  · simp [State.fetchExec, h, Res.bind, he]

section
variable (hvalid : Config.valid s.cfg = true) (hrst : s.rst = false)
include hvalid hrst

theorem step_stopped (hstop : s.stopped = true) : step s = .next s := by
  simp [step, State.cycle, hvalid, hrst, hstop]

variable (hrun : s.stopped = false)
include hrun

theorem step_event (hev : s.pollEvents.1 = true) : step s = .next s.pollEvents.2 := by
  simp [step, State.cycle, hvalid, hrst, hrun, hev]

theorem step_no_event (hev : s.pollEvents.1 = false) : step s = s.pollEvents.2.fetchExec := by
  simp [step, State.cycle, hvalid, hrst, hrun, hev]

end

/-- Settles O46: the three equations of `step` without reset, the last with `fetchExec_of_fetch`. -/
theorem stepIsEventOrInstruction : Obligations.StepIsEventOrInstruction := by
  refine fun s hvalid hrst => ⟨step_stopped hvalid hrst, fun hrun => ?_⟩
  cases hev : s.pollEvents.1 with
  | true => exact .inl ⟨rfl, step_event hvalid hrst hrun hev⟩
  | false =>
    refine .inr ⟨rfl, fun w u hf => ?_⟩
    rw [step_no_event hvalid hrst hrun hev]
    exact fetchExec_of_fetch hf

/-- Settles O45: nothing disturbs the boundary, and past the instruction cache the fetch answers the word of storage. -/
theorem stepRunsDecodedInstruction : Obligations.StepRunsDecodedInstruction := by
  intro s hvalid hquiet ha hstale hbypass hfetch
  obtain ⟨hrst, hrun, hundisturbed⟩ := hquiet
  have hpoll : s.pollEvents = (false, s) := pollEvents_undisturbed hundisturbed
  have hword : s.fetchWord = .next (Memory.readWord (s.instrStorage s.pc.toNat) s.pc.toNat, s) := by
    rw [fetchWord_of_bypassesI ha hstale hbypass, instrRead_storage s hfetch]
  have hstep : step s = s.fetchExec := by
    rw [step_no_event hvalid hrst hrun (congrArg Prod.fst hpoll), hpoll]
  rw [hstep]
  exact fetchExec_of_fetch hword

/-! ### A placed instruction (R63, R72) -/

/-- Where the fetch reads shared memory past the instruction cache, placing a word is a store of it off the record. -/
theorem placeWord_eq (hshared : Config.sharedID s.cfg s.pc.toNat = true) (hcache : s.icacheMayServe s.pc.toNat = false)
    (v : Word) : s.placeWord v = { s with
      stored := Assoc.drop s.stored (s.pc.toNat / 4 * 4), mem := Memory.writeSize s.mem .word s.pc.toNat v } := by
  simp [State.placeWord, hshared, hcache]

theorem withFetchWord_toNat (s : State) (w : Word) : s.withFetchWord 32 w.toNat = s.placeWord w := by
  rw [State.withFetchWord, Nat.mod_eq_of_lt w.isLt, BitVec.ofNat_toNat, BitVec.setWidth_eq]

/-- From reset, with any memory, the instruction at address 0 runs first. -/
theorem step_reset_mem {i : Instr} (m : Memory) (h : decodeWord Config.full (m.readWord 0) = .ok i) :
    step { State.reset with mem := m } = exec i { State.reset with mem := m } := by
  have hvalid : Config.valid Config.full = true := by decide
  have haligned : aligned 0#32 = true := by decide
  have huncached : CacheConfig.cacheable Config.full.icache 0 = false := by decide
  obtain ⟨hruns, -⟩ := stepRunsDecodedInstruction { State.reset with mem := m } hvalid
    ⟨rfl, rfl, .inr (.inr ⟨rfl, rfl, .inl rfl, .inl rfl⟩)⟩ haligned rfl (.inl huncached) ⟨_, rfl, by decide⟩
  exact hruns i h

/-- Settles O60: the placed word is the one at address 0, and it decodes to its instruction. -/
theorem placedInstructionRunsFirst : Obligations.PlacedInstructionRunsFirst := by
  intro i hwf
  have hplaced : State.reset.placeWord (encode Config.full i)
      = { State.reset with mem := Memory.writeSize [] .word 0 (encode Config.full i) } :=
    placeWord_eq (by decide) (by decide) _
  have hword : Memory.readWord (Memory.writeSize [] .word 0 (encode Config.full i)) 0 = encode Config.full i :=
    readWord_writeSize_same _ rfl rfl (show 0 + 4 ≤ 2 ^ 32 by decide)
  rw [withFetchWord_toNat, hplaced]
  exact step_reset_mem _ (by rw [hword, decodeInvertsEncode _ i hwf])

/-! ### The environment (R437) -/

/-- The debug host does what it asked for, or nothing where there is no debug logic (R436). -/
theorem debugged_cases (s t : State) : s.debugged t = t ∨ s.debugged t = s := by
  unfold State.debugged
  split
  · exact .inl rfl
  · exact .inr rfl

theorem debugged_cfg (h : t.cfg = s.cfg) : (s.debugged t).cfg = s.cfg := by
  rcases debugged_cases s t with he | he <;> rw [he]
  exact h

theorem State.Inv.debugged (h : s.Inv) (ht : t.Inv) : (s.debugged t).Inv := by
  rcases debugged_cases s t with he | he <;> rw [he]
  · exact ht
  · exact h

theorem host_cfg (s : State) (a : HostAction) : (s.host a).cfg = s.cfg := by
  cases a with
  | post r => cases r <;> rfl
  | withdraw r => cases r <;> rfl
  | stop | resume | debugReg | debugPc | debugMsr | debugICache | debugDCache => exact debugged_cfg rfl
  | assertReset | setInterrupt | pushFsl | popFsl | writeData | writeInstr => rfl

/-- The debug host writes the PC as a word address (R26). -/
theorem aligned_append_zero (p : BitVec 30) : aligned (p ++ 0#2) = true := by
  rw [aligned_iff, BitVec.toNat_append, Nat.shiftLeft_eq]
  simp

/-- No request is part of the invariant. -/
theorem State.Inv.setRequest (h : s.Inv) (r : Request) (b : Bool) : (s.setRequest r b).Inv := by
  cases r <;> exact { h with }

/-- Taking an item off an output queue makes it no longer. -/
theorem State.Inv.popFsl (h : s.Inv) (ch : Channel) : (s.host (.popFsl ch)).Inv := by
  refine { h with outQ := fun k => ?_ }
  rw [outQueue_set s ch k s.outQ[ch.toNat].tail _ rfl]
  split
  · exact (List.tail_sublist _).length_le.trans (h.outQ ch)
  · exact h.outQ k

/-- Every action keeps the invariant: of what it speaks of, an action writes a byte of memory, a cache line in range, an
aligned PC, or takes an item off a queue. -/
theorem State.Inv.host (h : s.Inv) (a : HostAction) : (s.host a).Inv := by
  cases a with
  | assertReset => exact { h with }
  | setInterrupt level => exact { h with }
  | post r => exact h.setRequest r true
  | withdraw r => exact h.setRequest r false
  | pushFsl ch item => exact { h with }
  | popFsl ch => exact h.popFsl ch
  | writeData a b => exact { h with mem := write_wf b h.mem a.isLt }
  | writeInstr a b => exact { h with imem := write_wf b h.imem a.isLt }
  | stop => exact h.debugged { h with }
  | resume => exact h.debugged { h with }
  | debugReg r v => exact h.debugged { h with }
  | debugPc p => exact h.debugged { h with pc := aligned_append_zero p }
  | debugMsr v => exact h.debugged { h with }
  | debugICache a d => exact h.debugged { h with icache := linesWf_put a.toNat _ _ d h.icache }
  | debugDCache a d => exact h.debugged { h with dcache := linesWf_put a.toNat _ _ d h.dcache }

/-- A step keeps the configuration, a reset too. -/
theorem step_cfg (h : step s = .next t) : t.cfg = s.cfg := by
  obtain ⟨hpoll, -⟩ := pollEvents_frame s
  obtain ⟨-, ⟨-, rfl⟩ | ⟨-, rfl⟩ | ⟨-, rfl⟩ | ⟨-, -, hf⟩⟩ := step_next h
  · obtain ⟨habandon, -⟩ := abandon_cfg_mem s
    exact habandon
  · rfl
  · exact hpoll
  · obtain ⟨hcfg, -⟩ := fetchExec_cfg_mem hf
    exact hcfg.trans hpoll

/-- Settles O56, by induction on the run: a step and an action each keep the configuration and the invariant. -/
theorem environmentRunsKeepInvariant : Obligations.EnvironmentRunsKeepInvariant := by
  intro s t hrun
  induction hrun with
  | refl => exact ⟨rfl, id⟩
  | step _ hstep ih =>
    obtain ⟨hcfg, hinv⟩ := ih
    exact ⟨(step_cfg hstep).trans hcfg, fun h => (hinv h).of_step hstep⟩
  | host a _ ih =>
    obtain ⟨hcfg, hinv⟩ := ih
    exact ⟨(host_cfg _ a).trans hcfg, fun h => (hinv h).host a⟩

end Sys2Proof.Machine
end

section
/-! PROOFS. The reset family: what a step with reset asserted answers (70_reset_and_hazards R450 to R452). `resetCore` fixes all
but the configuration, the interrupt pin and the stop, and these the abandoned instruction keeps. -/

namespace Sys2Proof.Machine

variable {i : Instr} {s t u : State}

/-! ### What an instruction cannot reach (R405, R437) -/

theorem State.SameInputs.trans (hsu : s.SameInputs u) (hut : u.SameInputs t) : s.SameInputs t where
  cfg := hut.cfg.trans hsu.cfg
  rst := hut.rst.trans hsu.rst
  nm := hut.nm.trans hsu.nm
  brk := hut.brk.trans hsu.brk
  exc := hut.exc.trans hsu.exc
  intPin := hut.intPin.trans hsu.intPin
  intLatch := hut.intLatch.trans hsu.intLatch
  stopped := hut.stopped.trans hsu.stopped

/-- Free values and cache lines are no inputs. -/
theorem sameInputs_fetched (s : State) (ic : List (Nat × CacheLine)) (k : Nat) :
    s.SameInputs { s with icache := ic, draws := k } := ⟨rfl, rfl, rfl, rfl, rfl, rfl, rfl, rfl⟩

theorem Effect.sameInputs (hu : Effect i s u) : s.SameInputs u :=
  ⟨hu.cfg, hu.rst, hu.nm, hu.brk, hu.exc, hu.intPin, hu.intLatch, hu.stopped⟩

theorem Ending.sameInputs (he : Ending i u t) : u.SameInputs t := by
  cases he with
  | goOn ht => subst ht; constructor <;> rfl
  | jump _ _ _ ht => subst ht; constructor <;> rfl
  | delay _ _ _ ht => subst ht; constructor <;> rfl
  | msr _ _ _ ht => subst ht; constructor <;> rfl
  | lock _ _ _ ht => subst ht; constructor <;> rfl

theorem exec_sameInputs (he : exec i s = .next t) : s.SameInputs t := by
  rcases exec_next he with rfl | ⟨u, heffect, hend⟩
  · constructor <;> rfl
  · exact heffect.sameInputs.trans hend.sameInputs

theorem fetchExec_sameInputs (h : s.fetchExec = .next t) : s.SameInputs t := by
  obtain ⟨w, u, i, hw, he⟩ := fetchExec_next h
  obtain ⟨-, -, ic, k, rfl, -⟩ := fetchWord_next s hw
  exact (sameInputs_fetched s ic k).trans (exec_sameInputs he)

/-- Whatever a reset lets an instruction in progress still do (R450 (log 19)), it changes no input. -/
theorem abandon_sameInputs (s : State) : s.SameInputs s.abandon := by
  rcases abandon_cases s with ⟨k, h⟩ | h
  · rw [h]
    exact sameInputs_fetched s s.icache k
  · exact (sameInputs_fetched s s.icache _).trans (fetchExec_sameInputs h)

/-! ### The reset state (R50, R451, R452) -/

theorem step_reset (hvalid : Config.valid s.cfg = true) (hrst : s.rst = true) : step s = .next s.abandon.resetCore := by
  simp [step, State.cycle, hvalid, hrst]

theorem resetCore_reg (hknown : s.cfg.gprResetKnown = true) (r : RegNum) : s.resetCore.reg r = 0#32 := by
  have hgpr : s.resetCore.gpr = Vector.replicate 31 0#32 := if_pos hknown
  simp [State.reg, readGpr, hgpr]

theorem msrReset_toWord : Msr.reset.toWord = 0#32 := by decide

/-- Settles O53: the step is `resetCore` after the abandoned instruction, which keeps the configuration, the pin and the
stop. -/
theorem resetTaken : Obligations.ResetTaken := by
  intro s hvalid hrst
  have hinputs := abandon_sameInputs s
  have hreg (hknown : s.cfg.gprResetKnown = true) : ∀ r, s.abandon.resetCore.reg r = 0#32 :=
    resetCore_reg (hinputs.cfg ▸ hknown)
  exact ⟨_, step_reset hvalid hrst, rfl, msrReset_toWord, hreg, rfl, rfl, rfl, rfl, rfl, rfl, rfl, rfl, rfl, rfl, rfl,
    hinputs.cfg, hinputs.intPin, hinputs.stopped⟩

end Sys2Proof.Machine
end
